-- ==== Sys2Proof/Word.lean ====
section
/-!
DEFINITION. The word types (00_scope.md R4, R5): bytes and 16-bit words as bit vectors.
-/
namespace Sys2Proof

/-- `b8` of R5: one byte. -/
abbrev Byte := BitVec 8

/-- `b16` of R5: a register pair, SP, PC or a bus address. -/
abbrev Word := BitVec 16

end Sys2Proof
end

