-- ==== Sys2Proof/Machine/Bits.lean ====
section
/-! DEFINITION. Byte order and extension helpers (00_scope.md R5, R6; 20_memory.md R63). -/
namespace Sys2Proof

/-- `v[15:8]` of R5. -/
def hiByte (v : Word) : Byte := v.extractLsb' 8 8

/-- `v[7:0]` of R5. -/
def loByte (v : Word) : Byte := v.extractLsb' 0 8

/-- `hi:lo` of R5: `(hi << 8) | lo`. -/
def hiLo (hi lo : Byte) : Word := hi.zeroExtend 16 <<< 8 ||| lo.zeroExtend 16

/-- `zext_16` of R6. -/
def zext16 (v : Byte) : Word := v.zeroExtend 16

/-- `sext_16` of R6. -/
def sext16 (v : Byte) : Word := v.signExtend 16

end Sys2Proof
end

