-- ==== Sys2Proof/Syntax.lean ====
section
/-!
DEFINITION. The instructions (30_encoding.md): one constructor per row of opcode_table.json, with its operands.
Register fields that name `(HL)` or an illegal byte are other rows, so the operand types have no room for them (R92).
-/
namespace Sys2Proof

/-- The registers of the field `R8` (R92); its value 110, `(HL)`, is no register. -/
inductive Reg8 where
  | b | c | d | e | h | l | a
deriving DecidableEq, Repr, Inhabited

/-- The pairs of the field `R16SP` (R93). -/
inductive PairSp where
  | bc | de | hl | sp
deriving DecidableEq, Repr, Inhabited

/-- The pairs of the field `R16AF` (R94). -/
inductive PairAf where
  | bc | de | hl | af
deriving DecidableEq, Repr, Inhabited

/-- The condition field `cc` (R96). -/
inductive Cond where
  | nz | z | nc | c
deriving DecidableEq, Repr, Inhabited

/-- The instructions. Operands stand in the order of the spec's name of the form. -/
inductive Instr where
  /-- `LD r,r'` (R120) -/
  | ldRR (dst src : Reg8)
  /-- `LD r,n8` (R121) -/
  | ldRN8 (r : Reg8) (n : Byte)
  /-- `LD r,(HL)` (R122) -/
  | ldRHl (r : Reg8)
  /-- `LD (HL),r` (R123) -/
  | ldHlR (r : Reg8)
  /-- `LD (HL),n8` (R124) -/
  | ldHlN8 (n : Byte)
  /-- `LD A,(BC)` (R125) -/
  | ldABc
  /-- `LD A,(DE)` (R126) -/
  | ldADe
  /-- `LD (BC),A` (R127) -/
  | ldBcA
  /-- `LD (DE),A` (R128) -/
  | ldDeA
  /-- `LD A,(a16)` (R129) -/
  | ldAA16 (a : Word)
  /-- `LD (a16),A` (R130) -/
  | ldA16A (a : Word)
  /-- `LDH A,(C)` (R131) -/
  | ldhAC
  /-- `LDH (C),A` (R132) -/
  | ldhCA
  /-- `LDH A,(a8)` (R133) -/
  | ldhAA8 (n : Byte)
  /-- `LDH (a8),A` (R134) -/
  | ldhA8A (n : Byte)
  /-- `LD A,(HL-)` (R135) -/
  | ldAHld
  /-- `LD (HL-),A` (R136) -/
  | ldHldA
  /-- `LD A,(HL+)` (R137) -/
  | ldAHli
  /-- `LD (HL+),A` (R138) -/
  | ldHliA
  /-- `LD rr,n16` (R139) -/
  | ldRrN16 (p : PairSp) (n : Word)
  /-- `LD (a16),SP` (R140) -/
  | ldA16Sp (a : Word)
  /-- `LD SP,HL` (R141) -/
  | ldSpHl
  /-- `PUSH rr` (R142) -/
  | pushRr (p : PairAf)
  /-- `POP rr` (R143) -/
  | popRr (p : PairAf)
  /-- `LD HL,SP+e8` (R144) -/
  | ldHlSpE8 (e : Byte)
  /-- `ADD A,r` (R160) -/
  | addAR (r : Reg8)
  /-- `ADD A,(HL)` (R161) -/
  | addAHl
  /-- `ADD A,n8` (R162) -/
  | addAN8 (n : Byte)
  /-- `ADC A,r` (R163) -/
  | adcAR (r : Reg8)
  /-- `ADC A,(HL)` (R164) -/
  | adcAHl
  /-- `ADC A,n8` (R165) -/
  | adcAN8 (n : Byte)
  /-- `SUB r` (R166) -/
  | subR (r : Reg8)
  /-- `SUB (HL)` (R167) -/
  | subHl
  /-- `SUB n8` (R168) -/
  | subN8 (n : Byte)
  /-- `SBC A,r` (R169) -/
  | sbcAR (r : Reg8)
  /-- `SBC A,(HL)` (R170) -/
  | sbcAHl
  /-- `SBC A,n8` (R171) -/
  | sbcAN8 (n : Byte)
  /-- `AND r` (R172) -/
  | andR (r : Reg8)
  /-- `AND (HL)` (R173) -/
  | andHl
  /-- `AND n8` (R174) -/
  | andN8 (n : Byte)
  /-- `XOR r` (R175) -/
  | xorR (r : Reg8)
  /-- `XOR (HL)` (R176) -/
  | xorHl
  /-- `XOR n8` (R177) -/
  | xorN8 (n : Byte)
  /-- `OR r` (R178) -/
  | orR (r : Reg8)
  /-- `OR (HL)` (R179) -/
  | orHl
  /-- `OR n8` (R180) -/
  | orN8 (n : Byte)
  /-- `CP r` (R181) -/
  | cpR (r : Reg8)
  /-- `CP (HL)` (R182) -/
  | cpHl
  /-- `CP n8` (R183) -/
  | cpN8 (n : Byte)
  /-- `INC r` (R184) -/
  | incR (r : Reg8)
  /-- `INC (HL)` (R185) -/
  | incHl
  /-- `DEC r` (R186) -/
  | decR (r : Reg8)
  /-- `DEC (HL)` (R187) -/
  | decHl
  /-- `DAA` (R188) -/
  | daa
  /-- `CPL` (R189) -/
  | cpl
  /-- `SCF` (R190) -/
  | scf
  /-- `CCF` (R191) -/
  | ccf
  /-- `INC rr` (R200) -/
  | incRr (p : PairSp)
  /-- `DEC rr` (R201) -/
  | decRr (p : PairSp)
  /-- `ADD HL,rr` (R202) -/
  | addHlRr (p : PairSp)
  /-- `ADD SP,e8` (R203) -/
  | addSpE8 (e : Byte)
  /-- `RLCA` (R221) -/
  | rlca
  /-- `RRCA` (R222) -/
  | rrca
  /-- `RLA` (R223) -/
  | rla
  /-- `RRA` (R224) -/
  | rra
  /-- `RLC r` (R225) -/
  | rlcR (r : Reg8)
  /-- `RLC (HL)` (R226) -/
  | rlcHl
  /-- `RRC r` (R227) -/
  | rrcR (r : Reg8)
  /-- `RRC (HL)` (R228) -/
  | rrcHl
  /-- `RL r` (R229) -/
  | rlR (r : Reg8)
  /-- `RL (HL)` (R230) -/
  | rlHl
  /-- `RR r` (R231) -/
  | rrR (r : Reg8)
  /-- `RR (HL)` (R232) -/
  | rrHl
  /-- `SLA r` (R233) -/
  | slaR (r : Reg8)
  /-- `SLA (HL)` (R234) -/
  | slaHl
  /-- `SRA r` (R235) -/
  | sraR (r : Reg8)
  /-- `SRA (HL)` (R236) -/
  | sraHl
  /-- `SWAP r` (R237) -/
  | swapR (r : Reg8)
  /-- `SWAP (HL)` (R238) -/
  | swapHl
  /-- `SRL r` (R239) -/
  | srlR (r : Reg8)
  /-- `SRL (HL)` (R240) -/
  | srlHl
  /-- `BIT b,r` (R241) -/
  | bitR (b : Fin 8) (r : Reg8)
  /-- `BIT b,(HL)` (R242) -/
  | bitHl (b : Fin 8)
  /-- `RES b,r` (R243) -/
  | resR (b : Fin 8) (r : Reg8)
  /-- `RES b,(HL)` (R244) -/
  | resHl (b : Fin 8)
  /-- `SET b,r` (R245) -/
  | setR (b : Fin 8) (r : Reg8)
  /-- `SET b,(HL)` (R246) -/
  | setHl (b : Fin 8)
  /-- `JP a16` (R260) -/
  | jpA16 (a : Word)
  /-- `JP HL` (R261) -/
  | jpHl
  /-- `JP cc,a16` (R262) -/
  | jpCc (cc : Cond) (a : Word)
  /-- `JR e8` (R263) -/
  | jrE8 (e : Byte)
  /-- `JR cc,e8` (R264) -/
  | jrCc (cc : Cond) (e : Byte)
  /-- `CALL a16` (R265) -/
  | callA16 (a : Word)
  /-- `CALL cc,a16` (R266) -/
  | callCc (cc : Cond) (a : Word)
  /-- `RET` (R267) -/
  | ret
  /-- `RET cc` (R268) -/
  | retCc (cc : Cond)
  /-- `RETI` (R269) -/
  | reti
  /-- `RST t` (R270) -/
  | rstT (t : Fin 8)
  /-- `NOP` (R290) -/
  | nop
  /-- `HALT` (R291) -/
  | halt
  /-- STOP; its second byte is fetched and ignored (R292) -/
  | stop (n : Byte)
  /-- `DI` (R293) -/
  | di
  /-- `EI` (R294) -/
  | ei
  /-- one of the eleven unused opcode bytes (R100) (R295) -/
  | illegal (op : Byte)
  /-- the prefix byte and the byte after it, not yet looked up in the CB map (log 14) (R102) -/
  | prefixCB (op2 : Byte)
deriving DecidableEq, Repr

end Sys2Proof
end

