-- ==== Sys2Proof/WellFormed.lean ====
section
/-!
DEFINITION. The well-formed instructions: the terms of Instr that are the reading of their own bytes.
The operand types already hold every other field to the values its encoding admits.
-/
namespace Sys2Proof

/-- The eleven illegal opcode bytes (R100). -/
def illegalBytes : List Byte :=
  [0xD3, 0xDB, 0xDD, 0xE3, 0xE4, 0xEB, 0xEC, 0xED, 0xF4, 0xFC, 0xFD]

/-- `illegal op` stands for one of the eleven bytes (R100); the prefix with a second byte is always some row of the CB
map (R99), which is then the well-formed instruction (R102, log 14). -/
def Instr.WellFormed : Instr → Bool
  | .illegal op => illegalBytes.contains op
  | .prefixCB _ => false
  | _ => true

end Sys2Proof
end

