-- ==== Sys2Proof/Decode.lean ====
section
/-!
DEFINITION. Decoding and encoding (30_encoding.md). Decoding is by the fields x, y, z, p, q of R91, as the maps of R98
and R99 are laid out; the encoder is written from the bit patterns of the instruction rules.
-/
namespace Sys2Proof

/-- `x` of R91: bits 7:6. -/
def fieldX (op : Byte) : BitVec 2 := op.extractLsb' 6 2

/-- `y` of R91: bits 5:3. -/
def fieldY (op : Byte) : BitVec 3 := op.extractLsb' 3 3

/-- `z` of R91: bits 2:0. -/
def fieldZ (op : Byte) : BitVec 3 := op.extractLsb' 0 3

/-- `p` of R91: bits 5:4. -/
def fieldP (op : Byte) : BitVec 2 := op.extractLsb' 4 2

/-- `q` of R91: bit 3. -/
def fieldQ (op : Byte) : Bool := op.getLsbD 3

/-- `cc` of R91: bits 4:3. -/
def fieldCc (op : Byte) : BitVec 2 := op.extractLsb' 3 2

/-- What the field `R8` names (R92): a register, or the byte at HL. -/
inductive Operand8 where
  | reg (r : Reg8)
  | atHl
deriving DecidableEq, Repr

/-- `R8[i]` (R92). -/
def operand8 (i : BitVec 3) : Operand8 :=
  match i.toNat with
  | 0 => .reg .b
  | 1 => .reg .c
  | 2 => .reg .d
  | 3 => .reg .e
  | 4 => .reg .h
  | 5 => .reg .l
  | 6 => .atHl
  | _ => .reg .a

/-- `R16SP[p]` (R93). -/
def pairSp (p : BitVec 2) : PairSp :=
  match p.toNat with
  | 0 => .bc
  | 1 => .de
  | 2 => .hl
  | _ => .sp

/-- `R16AF[p]` (R94). -/
def pairAf (p : BitVec 2) : PairAf :=
  match p.toNat with
  | 0 => .bc
  | 1 => .de
  | 2 => .hl
  | _ => .af

/-- The condition a `cc` field names (R96). -/
def condOf (cc : BitVec 2) : Cond :=
  match cc.toNat with
  | 0 => .nz
  | 1 => .z
  | 2 => .nc
  | _ => .c

/-- A form that has a register row and an `(HL)` row (R92). -/
def byOperand (o : Operand8) (onReg : Reg8 → Instr) (onHl : Instr) : Instr :=
  match o with
  | .reg r => onReg r
  | .atHl => onHl

/-- The CB opcode map (R99). -/
def decodeCB (op2 : Byte) : Instr :=
  let o := operand8 (fieldZ op2)
  let y := (fieldY op2).toFin
  match (fieldX op2).toNat with
  | 0 =>
    match y.val with
    | 0 => byOperand o .rlcR .rlcHl
    | 1 => byOperand o .rrcR .rrcHl
    | 2 => byOperand o .rlR .rlHl
    | 3 => byOperand o .rrR .rrHl
    | 4 => byOperand o .slaR .slaHl
    | 5 => byOperand o .sraR .sraHl
    | 6 => byOperand o .swapR .swapHl
    | _ => byOperand o .srlR .srlHl
  | 1 => byOperand o (.bitR y) (.bitHl y)
  | 2 => byOperand o (.resR y) (.resHl y)
  | _ => byOperand o (.setR y) (.setHl y)

/-- The quadrant `x = 0` of the base map (R95, R98). -/
def decodeX0 (op b2 b3 : Byte) : Instr :=
  let o := operand8 (fieldY op)
  let rr := pairSp (fieldP op)
  let cc := condOf (fieldCc op)
  let n16 := hiLo b3 b2
  match (fieldZ op).toNat with
  | 0 =>
    match (fieldY op).toNat with
    | 0 => .nop
    | 1 => .ldA16Sp n16
    | 2 => .stop b2
    | 3 => .jrE8 b2
    | _ => .jrCc cc b2
  | 1 => if fieldQ op then .addHlRr rr else .ldRrN16 rr n16
  | 2 =>
    match (fieldY op).toNat with
    | 0 => .ldBcA
    | 1 => .ldABc
    | 2 => .ldDeA
    | 3 => .ldADe
    | 4 => .ldHliA
    | 5 => .ldAHli
    | 6 => .ldHldA
    | _ => .ldAHld
  | 3 => if fieldQ op then .decRr rr else .incRr rr
  | 4 => byOperand o .incR .incHl
  | 5 => byOperand o .decR .decHl
  | 6 => byOperand o (fun r => .ldRN8 r b2) (.ldHlN8 b2)
  | _ =>
    match (fieldY op).toNat with
    | 0 => .rlca
    | 1 => .rrca
    | 2 => .rla
    | 3 => .rra
    | 4 => .daa
    | 5 => .cpl
    | 6 => .scf
    | _ => .ccf

/-- The quadrant `x = 1`: the register loads and HALT (R98, R291). -/
def decodeX1 (op : Byte) : Instr :=
  match operand8 (fieldY op), operand8 (fieldZ op) with
  | .reg dst, .reg src => .ldRR dst src
  | .reg r, .atHl => .ldRHl r
  | .atHl, .reg r => .ldHlR r
  | .atHl, .atHl => .halt

/-- The quadrant `x = 2`: the ALU operations on `R8[z]` (R98, R150). -/
def decodeX2 (op : Byte) : Instr :=
  let o := operand8 (fieldZ op)
  match (fieldY op).toNat with
  | 0 => byOperand o .addAR .addAHl
  | 1 => byOperand o .adcAR .adcAHl
  | 2 => byOperand o .subR .subHl
  | 3 => byOperand o .sbcAR .sbcAHl
  | 4 => byOperand o .andR .andHl
  | 5 => byOperand o .xorR .xorHl
  | 6 => byOperand o .orR .orHl
  | _ => byOperand o .cpR .cpHl

/-- The quadrant `x = 3` (R98), with the illegal bytes (R100) and the prefix (R102). -/
def decodeX3 (op b2 b3 : Byte) : Instr :=
  let cc := condOf (fieldCc op)
  let n16 := hiLo b3 b2
  match (fieldZ op).toNat, (fieldY op).toNat with
  | 0, 4 => .ldhA8A b2
  | 0, 5 => .addSpE8 b2
  | 0, 6 => .ldhAA8 b2
  | 0, 7 => .ldHlSpE8 b2
  | 0, _ => .retCc cc
  | 1, 1 => .ret
  | 1, 3 => .reti
  | 1, 5 => .jpHl
  | 1, 7 => .ldSpHl
  | 1, _ => .popRr (pairAf (fieldP op))
  | 2, 4 => .ldhCA
  | 2, 5 => .ldA16A n16
  | 2, 6 => .ldhAC
  | 2, 7 => .ldAA16 n16
  | 2, _ => .jpCc cc n16
  | 3, 0 => .jpA16 n16
  | 3, 1 => decodeCB b2
  | 3, 6 => .di
  | 3, 7 => .ei
  | 3, _ => .illegal op
  | 4, 0 => .callCc cc n16
  | 4, 1 => .callCc cc n16
  | 4, 2 => .callCc cc n16
  | 4, 3 => .callCc cc n16
  | 4, _ => .illegal op
  | 5, 1 => .callA16 n16
  | 5, 3 => .illegal op
  | 5, 5 => .illegal op
  | 5, 7 => .illegal op
  | 5, _ => .pushRr (pairAf (fieldP op))
  | 6, 0 => .addAN8 b2
  | 6, 1 => .adcAN8 b2
  | 6, 2 => .subN8 b2
  | 6, 3 => .sbcAN8 b2
  | 6, 4 => .andN8 b2
  | 6, 5 => .xorN8 b2
  | 6, 6 => .orN8 b2
  | 6, _ => .cpN8 b2
  | _, _ => .rstT (fieldY op).toFin

/-- The instruction of three bytes in fetch order, of which it may use only the first or the first two (R90, R102). -/
def decodeBytes (op b2 b3 : Byte) : Instr :=
  match (fieldX op).toNat with
  | 0 => decodeX0 op b2 b3
  | 1 => decodeX1 op
  | 2 => decodeX2 op
  | _ => decodeX3 op b2 b3

/-- The opcodes of the two-byte rows: format OP_N8, STOP and the prefix (R90). -/
def lengthTwo : List Byte :=
  [0x06, 0x0E, 0x16, 0x1E, 0x26, 0x2E, 0x36, 0x3E, 0x10, 0x18, 0x20, 0x28, 0x30, 0x38, 0xC6, 0xCE, 0xD6, 0xDE, 0xE6,
   0xEE, 0xF6, 0xFE, 0xE0, 0xF0, 0xE8, 0xF8, 0xCB]

/-- The opcodes of the three-byte rows: format OP_N16 (R90). -/
def lengthThree : List Byte :=
  [0x01, 0x11, 0x21, 0x31, 0x08, 0xC2, 0xCA, 0xD2, 0xDA, 0xC3, 0xC4, 0xCC, 0xD4, 0xDC, 0xCD, 0xEA, 0xFA]

/-- The length of an instruction, settled by its first byte (R102). -/
def lengthOf (op : Byte) : Nat :=
  if lengthThree.contains op then 3 else if lengthTwo.contains op then 2 else 1

/-- Why a list of bytes is no instruction: it is empty, or ends before the instruction does. -/
inductive DecodeError where
  | truncated (needed given : Nat)
deriving DecidableEq, Repr

/-- Decode the first instruction of a list of bytes in fetch order; the rest of the list comes back. Total: the only
rejection is of a list that ends too early, since every byte value is an instruction or ILLEGAL (R100, R101). -/
def decode (bytes : List Byte) : Except DecodeError (Instr × List Byte) :=
  match bytes with
  | [] => .error (.truncated 1 0)
  | op :: rest =>
    if bytes.length < lengthOf op then .error (.truncated (lengthOf op) bytes.length)
    else .ok (decodeBytes op (rest.getD 0 0) (rest.getD 1 0), bytes.drop (lengthOf op))

/-- The code of a register in the field `R8` (R92). -/
def Reg8.code : Reg8 → BitVec 3
  | .b => 0b000
  | .c => 0b001
  | .d => 0b010
  | .e => 0b011
  | .h => 0b100
  | .l => 0b101
  | .a => 0b111

/-- The code of a pair in the field `R16SP` (R93). -/
def PairSp.code : PairSp → BitVec 2
  | .bc => 0b00
  | .de => 0b01
  | .hl => 0b10
  | .sp => 0b11

/-- The code of a pair in the field `R16AF` (R94). -/
def PairAf.code : PairAf → BitVec 2
  | .bc => 0b00
  | .de => 0b01
  | .hl => 0b10
  | .af => 0b11

/-- The code of a condition in the field `cc` (R96). -/
def Cond.code : Cond → BitVec 2
  | .nz => 0b00
  | .z => 0b01
  | .nc => 0b10
  | .c => 0b11

/-- A bit index or a restart index as a three-bit field (R97). -/
def code3 (i : Fin 8) : BitVec 3 := BitVec.ofFin i

/-- The bytes of an instruction in fetch order, from the bit patterns of the instruction rules. -/
def encode : Instr → List Byte
  | .ldRR dst src => [0b01#2 ++ dst.code ++ src.code]
  | .ldRN8 r n => [0b00#2 ++ r.code ++ 0b110#3, n]
  | .ldRHl r => [0b01#2 ++ r.code ++ 0b110#3]
  | .ldHlR r => [0b01110#5 ++ r.code]
  | .ldHlN8 n => [0b00110110#8, n]
  | .ldABc => [0b00001010#8]
  | .ldADe => [0b00011010#8]
  | .ldBcA => [0b00000010#8]
  | .ldDeA => [0b00010010#8]
  | .ldAA16 a => [0b11111010#8, loByte a, hiByte a]
  | .ldA16A a => [0b11101010#8, loByte a, hiByte a]
  | .ldhAC => [0b11110010#8]
  | .ldhCA => [0b11100010#8]
  | .ldhAA8 n => [0b11110000#8, n]
  | .ldhA8A n => [0b11100000#8, n]
  | .ldAHld => [0b00111010#8]
  | .ldHldA => [0b00110010#8]
  | .ldAHli => [0b00101010#8]
  | .ldHliA => [0b00100010#8]
  | .ldRrN16 p n => [0b00#2 ++ p.code ++ 0b0001#4, loByte n, hiByte n]
  | .ldA16Sp a => [0b00001000#8, loByte a, hiByte a]
  | .ldSpHl => [0b11111001#8]
  | .pushRr p => [0b11#2 ++ p.code ++ 0b0101#4]
  | .popRr p => [0b11#2 ++ p.code ++ 0b0001#4]
  | .ldHlSpE8 e => [0b11111000#8, e]
  | .addAR r => [0b10000#5 ++ r.code]
  | .addAHl => [0b10000110#8]
  | .addAN8 n => [0b11000110#8, n]
  | .adcAR r => [0b10001#5 ++ r.code]
  | .adcAHl => [0b10001110#8]
  | .adcAN8 n => [0b11001110#8, n]
  | .subR r => [0b10010#5 ++ r.code]
  | .subHl => [0b10010110#8]
  | .subN8 n => [0b11010110#8, n]
  | .sbcAR r => [0b10011#5 ++ r.code]
  | .sbcAHl => [0b10011110#8]
  | .sbcAN8 n => [0b11011110#8, n]
  | .andR r => [0b10100#5 ++ r.code]
  | .andHl => [0b10100110#8]
  | .andN8 n => [0b11100110#8, n]
  | .xorR r => [0b10101#5 ++ r.code]
  | .xorHl => [0b10101110#8]
  | .xorN8 n => [0b11101110#8, n]
  | .orR r => [0b10110#5 ++ r.code]
  | .orHl => [0b10110110#8]
  | .orN8 n => [0b11110110#8, n]
  | .cpR r => [0b10111#5 ++ r.code]
  | .cpHl => [0b10111110#8]
  | .cpN8 n => [0b11111110#8, n]
  | .incR r => [0b00#2 ++ r.code ++ 0b100#3]
  | .incHl => [0b00110100#8]
  | .decR r => [0b00#2 ++ r.code ++ 0b101#3]
  | .decHl => [0b00110101#8]
  | .daa => [0b00100111#8]
  | .cpl => [0b00101111#8]
  | .scf => [0b00110111#8]
  | .ccf => [0b00111111#8]
  | .incRr p => [0b00#2 ++ p.code ++ 0b0011#4]
  | .decRr p => [0b00#2 ++ p.code ++ 0b1011#4]
  | .addHlRr p => [0b00#2 ++ p.code ++ 0b1001#4]
  | .addSpE8 e => [0b11101000#8, e]
  | .rlca => [0b00000111#8]
  | .rrca => [0b00001111#8]
  | .rla => [0b00010111#8]
  | .rra => [0b00011111#8]
  | .rlcR r => [0b11001011#8, 0b00000#5 ++ r.code]
  | .rlcHl => [0b11001011#8, 0b00000110#8]
  | .rrcR r => [0b11001011#8, 0b00001#5 ++ r.code]
  | .rrcHl => [0b11001011#8, 0b00001110#8]
  | .rlR r => [0b11001011#8, 0b00010#5 ++ r.code]
  | .rlHl => [0b11001011#8, 0b00010110#8]
  | .rrR r => [0b11001011#8, 0b00011#5 ++ r.code]
  | .rrHl => [0b11001011#8, 0b00011110#8]
  | .slaR r => [0b11001011#8, 0b00100#5 ++ r.code]
  | .slaHl => [0b11001011#8, 0b00100110#8]
  | .sraR r => [0b11001011#8, 0b00101#5 ++ r.code]
  | .sraHl => [0b11001011#8, 0b00101110#8]
  | .swapR r => [0b11001011#8, 0b00110#5 ++ r.code]
  | .swapHl => [0b11001011#8, 0b00110110#8]
  | .srlR r => [0b11001011#8, 0b00111#5 ++ r.code]
  | .srlHl => [0b11001011#8, 0b00111110#8]
  | .bitR b r => [0b11001011#8, 0b01#2 ++ code3 b ++ r.code]
  | .bitHl b => [0b11001011#8, 0b01#2 ++ code3 b ++ 0b110#3]
  | .resR b r => [0b11001011#8, 0b10#2 ++ code3 b ++ r.code]
  | .resHl b => [0b11001011#8, 0b10#2 ++ code3 b ++ 0b110#3]
  | .setR b r => [0b11001011#8, 0b11#2 ++ code3 b ++ r.code]
  | .setHl b => [0b11001011#8, 0b11#2 ++ code3 b ++ 0b110#3]
  | .jpA16 a => [0b11000011#8, loByte a, hiByte a]
  | .jpHl => [0b11101001#8]
  | .jpCc cc a => [0b110#3 ++ cc.code ++ 0b010#3, loByte a, hiByte a]
  | .jrE8 e => [0b00011000#8, e]
  | .jrCc cc e => [0b001#3 ++ cc.code ++ 0b000#3, e]
  | .callA16 a => [0b11001101#8, loByte a, hiByte a]
  | .callCc cc a => [0b110#3 ++ cc.code ++ 0b100#3, loByte a, hiByte a]
  | .ret => [0b11001001#8]
  | .retCc cc => [0b110#3 ++ cc.code ++ 0b000#3]
  | .reti => [0b11011001#8]
  | .rstT t => [0b11#2 ++ code3 t ++ 0b111#3]
  | .nop => [0b00000000#8]
  | .halt => [0b01110110#8]
  | .stop n => [0b00010000#8, n]
  | .di => [0b11110011#8]
  | .ei => [0b11111011#8]
  | .illegal op => [op]
  | .prefixCB op2 => [0b11001011#8, op2]

/-- Byte `k` of a word numbered as opcode_table.json numbers bits: the first byte is bits 7..0. -/
def tableByte (w k : Nat) : Byte := BitVec.ofNat 8 (w / 2 ^ (8 * k))

/-- The bytes of a table word of `nbits` bits, with zeros above them, up to the longest instruction. -/
def tableBytes (nbits w : Nat) : List Byte :=
  let v := w % 2 ^ nbits
  [tableByte v 0, tableByte v 1, tableByte v 2]

/-- The instruction the decoder reads from a table word. -/
def decodeTableWord (nbits w : Nat) : Option Instr :=
  match decode (tableBytes nbits w) with
  | .ok (i, _) => some i
  | .error _ => none

end Sys2Proof
end

