-- ==== Sys2Proof/Config.lean ====
section
/-!
DEFINITION. The parameters of the model (00_scope.md R4) and the free values (values the spec leaves to the bus or
leaves OPEN).
-/
namespace Sys2Proof

/-- `DEVICE` of R4. It affects only reset values. -/
inductive Device where
  | dmg | cgb | agb | sgb | sgb2
deriving DecidableEq, Repr, Inhabited

/-- `IE_UPPER_READ` of R4: how bits 7..5 of IE behave (R32, D17). -/
inductive IeUpperRead where
  | ones
  | stored
deriving DecidableEq, Repr, Inhabited

/-- `Bus` of R4: which read and write functions (R61, D6) the core drives. -/
inductive BusKind where
  /-- the address map of R62, R69 and R70, with its devices behind `Config.busRead` and `Config.busWrite` -/
  | console
  /-- the TestBus of 95_test_vectors.md section 1: RAM everywhere but IF and IE, no device -/
  | testBus
  /-- any other bus: the `k`-th pair of a read and a write function, `Config.busRead` and `Config.busWrite`, which nothing
  constrains; it has every address but the core's own, IF and IE (log 18) -/
  | supplied (k : Nat)
deriving DecidableEq, Repr, Inhabited

/-- `BusState` of R61: the state of the bus's devices, as plain data. The bus's own functions read and write it; nothing in
the model looks inside (log 6). -/
abbrev BusState := List Nat

/-- The registers that a column of the table of R40, a value of `POST_BOOT_REGS` or a draw `INITIAL_REGS` gives: A to L, F
and SP. That SP is one of them is read from the table and from R361 for a draw; log 21 says what no value of
`POST_BOOT_REGS` replaces. -/
structure RegValues where
  a : Byte
  f : Byte
  b : Byte
  c : Byte
  d : Byte
  e : Byte
  h : Byte
  l : Byte
  sp : Word
deriving DecidableEq, Repr, Inhabited

/-- The parameters of R4. No step changes them. -/
structure Params where
  /-- `DEVICE` -/
  device : Device
  /-- `BOOT_ROM`: absent, or exactly 256 bytes (R4, R70) -/
  bootRom : Option (Vector Byte 256)
  /-- `IE_UPPER_READ` (R32) -/
  ieUpper : IeUpperRead
  /-- `STOP_SPEED_SWITCH`: present or absent (D14) -/
  speedSwitch : Bool
  /-- the value of `POST_BOOT_REGS(DEVICE)`: A to L, F and SP; none: its default, the table of R40 (D19, I18). DESIGN
  CHOICE (log 21): the table's other rows (PC, IME, mode, IF, IE and the hidden bits) are not part of it. -/
  postBoot : Option RegValues
  /-- `Bus` -/
  bus : BusKind
deriving DecidableEq, Repr

/-- The defaults of R4 and D14, D17, D19; DEVICE = DMG, no boot ROM and the console bus are the model's (log 1). -/
def Params.default : Params :=
  { device := .dmg, bootRom := none, ieUpper := .ones, speedSwitch := false, postBoot := none, bus := .console }

/-- What `STOP_SPEED_SWITCH` decides (D14): the new speed, the new KEY1 and whether STOP mode is entered. -/
structure SpeedSwitch where
  doubleSpeed : Bool
  key1 : Byte
  entersStop : Bool
deriving DecidableEq, Repr, Inhabited

/-- FREE VALUE (log 6): the read function of R61, of the devices of a bus: the byte a read returns and the state after it.
The spec makes it a parameter (R4, R61, D6) and leaves the devices out (R3, I14). -/
opaque Config.busRead : BusKind → BusState → Word → Byte × BusState

/-- FREE VALUE (log 6): the write function of R61. -/
opaque Config.busWrite : BusKind → BusState → Word → Byte → BusState

/-- FREE VALUE (log 6): the state of the devices after so many cycles (R72, R355). -/
opaque Config.busAdvance : BusKind → BusState → Nat → BusState

/-- FREE VALUE (log 12): the function of the KEY1 byte that the OPEN parameter `STOP_SPEED_SWITCH` supplies (D14). -/
opaque Config.speedSwitch : Byte → SpeedSwitch

end Sys2Proof
end

