-- ==== Sys2Proof/Machine/Memory.lean ====
section
/-!
DEFINITION. The bytes behind the bus as plain data (20_memory.md R60): a list of (address, byte) pairs in one canonical
form. Which address reaches which byte is the address map's business (Machine/Bus.lean).
-/
namespace Sys2Proof.Machine

/-- The listed bytes. An unlisted address reads `memDefault`. -/
abbrev Memory := List Host.Cell

/-- What an unlisted address reads as. DESIGN CHOICE, unsafe (log 5): the power-on contents are a draw (R362). -/
def memDefault : Byte := 0x00

/-- The byte at address `n`. -/
def memGet : Memory → Nat → Byte
  | [], _ => memDefault
  | (k, w) :: m, n => if k = n then w else memGet m n

/-- Put a cell before others, unless it holds what an unlisted address reads as. -/
def memCons (n : Nat) (v : Byte) (m : Memory) : Memory :=
  if v = memDefault then m else (n, v) :: m

/-- Store `v` at address `n`, keeping the canonical form. -/
def memSet : Memory → Nat → Byte → Memory
  | [], n, v => memCons n v []
  | (k, w) :: m, n, v =>
    if n < k then memCons n v ((k, w) :: m)
    else if n = k then memCons n v m
    else (k, w) :: memSet m n v

/-- The canonical form: addresses strictly rising and below 2^16, and no entry equal to what an unlisted address reads
as. -/
def Memory.wf : Memory → Bool
  | [] => true
  | (k, w) :: m => decide (k < 65536) && decide (w ≠ memDefault) && m.all (fun c => decide (k < c.1)) && Memory.wf m

/-- The canonical memory that holds the given cells, an earlier one over a later one; addresses wrap (R66). -/
def memOfCells : List Host.Cell → Memory
  | [] => []
  | (k, w) :: cs => memSet (memOfCells cs) (k % 65536) w

end Sys2Proof.Machine
end

