-- ==== Sys2Proof/Machine/PostBoot.lean ====
section
/-! DEFINITION. The values of reset (10_state.md R40; 70_reset_and_hazards.md R360, R361). -/
namespace Sys2Proof.Machine

/-- The default table `POST_BOOT_REGS(DEVICE)` (R40, D19). -/
def postBootTable : Device → RegValues
  | .dmg => { a := 0x01, f := 0xB0, b := 0x00, c := 0x13, d := 0x00, e := 0xD8, h := 0x01, l := 0x4D, sp := 0xFFFE }
  | .cgb => { a := 0x11, f := 0x80, b := 0x00, c := 0x00, d := 0xFF, e := 0x56, h := 0x00, l := 0x0D, sp := 0xFFFE }
  | .agb => { a := 0x11, f := 0x00, b := 0x01, c := 0x00, d := 0xFF, e := 0x56, h := 0x00, l := 0x0D, sp := 0xFFFE }
  | .sgb => { a := 0x01, f := 0x00, b := 0x00, c := 0x14, d := 0x00, e := 0x00, h := 0xC0, l := 0x60, sp := 0xFFFE }
  | .sgb2 => { a := 0xFF, f := 0x00, b := 0x00, c := 0x14, d := 0x00, e := 0x00, h := 0xC0, l := 0x60, sp := 0xFFFE }

/-- The DMG column when the cartridge's header checksum byte is 0x00 (note of R40, I18): a value for the parameter. -/
def dmgChecksumZero : RegValues := { postBootTable .dmg with f := 0x80 }

/-- `POST_BOOT_REGS(DEVICE)`: the value the parameter gives, else the table (D19). Which rows it replaces is the model's
choice: A to L, F and SP (log 21). -/
def postBootRegs (p : Params) : RegValues := p.postBoot.getD (postBootTable p.device)

/-- IF[4:0] after the hand-over: the V-blank request the boot ROM leaves (R40). -/
def postBootIf : BitVec 5 := 0x01

/-- The entry point with a boot ROM (R361). -/
def bootEntry : Word := 0x0000

/-- The entry point without one (R361). -/
def cartridgeEntry : Word := 0x0100

/-- A boot ROM file: exactly 256 bytes; any other size is a load error (R361), here `none`. -/
def loadBootRom (file : List Byte) : Option (Vector Byte 256) :=
  if h : file.length = 256 then some ⟨file.toArray, by simpa using h⟩ else none

end Sys2Proof.Machine
end

