-- ==== Sys2Proof/Machine/State.lean ====
section
/-!
DEFINITION. The state of the machine (10_state.md R35, and what stands behind the bus, 20_memory.md), the reasons a step
can stop, and reset. All of it is plain data.
-/
namespace Sys2Proof.Machine

/-- `mode` (R28). -/
inductive Mode where
  | run
  | halt
  | stop
deriving DecidableEq, Repr, Inhabited

/-- The record `IllegalOpcode(op, addr)` of R30: the byte and the address it was fetched from. -/
structure IllegalOpcode where
  op : Byte
  addr : Word
deriving DecidableEq, Repr, Inhabited

/-- What a step returns: `Cycles(n)`, in T-cycles, or `Fault` (R310, R14). -/
inductive StepResult where
  | cycles (n : Nat)
  | fault
deriving DecidableEq, Repr, Inhabited

structure State where
  /-- the eight 8-bit registers (R20); F holds Z N H C in bits 7..4 and 0 in bits 3..0 (R22) -/
  a : Byte
  f : Byte
  b : Byte
  c : Byte
  d : Byte
  e : Byte
  h : Byte
  l : Byte
  /-- the stack pointer (R24) -/
  sp : Word
  /-- the program counter (R25) -/
  pc : Word
  /-- `IME` (R26) -/
  ime : Bool
  /-- `ime_pending` (R27) -/
  imePending : Bool
  /-- `mode` (R28) -/
  mode : Mode
  /-- `halt_bug` (R29) -/
  haltBug : Bool
  /-- `fault`: none, or the recorded IllegalOpcode (R30) -/
  fault : Option IllegalOpcode
  /-- IF, bits 4..0 of 0xFF0F (R31) -/
  iflag : BitVec 5
  /-- IE at 0xFFFF; bits 7..5 are used only with `IE_UPPER_READ = STORED` (R32) -/
  ie : Byte
  /-- the bytes behind the bus (R60) -/
  mem : Memory
  /-- the boot ROM overlay is still mapped (R70) -/
  bootMapped : Bool
  /-- the MBC's RAM-enable latch, which gates cartridge RAM (R62; log 8) -/
  cartRamEnabled : Bool
  /-- KEY1 at 0xFF4D, used only with `STOP_SPEED_SWITCH` present (R33, D14; log 12); on the TestBus no address reaches it,
  the model's choice (log 12) -/
  key1 : Byte
  /-- the clock runs at double speed, only with `STOP_SPEED_SWITCH` present (D14; log 12) -/
  doubleSpeed : Bool
  /-- the bus state of R61: the state of the bus's devices (log 6) -/
  busState : BusState
  /-- the input `wake_input` of the step (R310, R334; log 4) -/
  wakeInput : Bool
  /-- the output of the last step (R310; log 2) -/
  result : StepResult
  /-- the model's own: `opaddr` of R310, the address the current opcode was fetched from (log 3) -/
  opAddr : Word
  /-- the parameters (R4); no step changes them -/
  params : Params
deriving DecidableEq, Repr

/-- Why the machine stops. -/
inductive Fault where
  /-- Raised by `step` in a state whose `fault` is recorded: the core takes no further step (R310, R340). Safe: it
  allows nothing the hardware does. -/
  | illegalOpcode (op : Byte) (addr : Word)
deriving DecidableEq, Repr

/-- Why an instruction has no meaning. -/
inductive Refusal where
  /-- Raised by an arm of `exec` whose instruction has no meaning yet (no arm does). Safe. -/
  | notModelled (mnemonic : String)
deriving DecidableEq, Repr

/-- What the spec draws at power-on (D20): `INITIAL_REGS`, the contents of memory, and the state of the bus's devices (R360:
their reset is the host's business). -/
structure Draw where
  regs : RegValues
  cells : List Host.Cell
  bus : BusState
deriving DecidableEq, Repr

/-- The draw of zeros, of a memory that lists nothing and of an empty bus state (log 11). -/
def Draw.zero : Draw := { regs := ⟨0, 0, 0, 0, 0, 0, 0, 0, 0⟩, cells := [], bus := [] }

/-- Reset (R360) for given parameters and a given draw: the values of R40, with the boot ROM mapped if there is one
(R70). Without one, A to L, F and SP are `POST_BOOT_REGS(DEVICE)`; the other rows of the table are fixed (log 21). -/
def State.powerOn (p : Params) (draw : Draw) : State :=
  let boot := p.bootRom.isSome
  let r := if boot then draw.regs else postBootRegs p
  { a := r.a, f := r.f &&& 0xF0, b := r.b, c := r.c, d := r.d, e := r.e, h := r.h, l := r.l
    sp := r.sp
    pc := if boot then bootEntry else cartridgeEntry
    ime := false, imePending := false, mode := .run, haltBug := false, fault := none
    iflag := if boot then 0 else postBootIf
    ie := 0
    mem := memOfCells draw.cells
    bootMapped := boot
    cartRamEnabled := false
    key1 := 0, doubleSpeed := false
    busState := draw.bus
    wakeInput := false
    result := .cycles 0
    opAddr := 0
    params := p }

/-- The machine right after reset with the default parameters (log 1). -/
def State.reset : State := State.powerOn Params.default Draw.zero

end Sys2Proof.Machine
end

