-- ==== Sys2Proof/Machine/Bus.lean ====
section
/-!
DEFINITION. The system bus (20_memory.md): the address map, and the two primitives `MemRead` and `MemWrite` (00_scope.md
R7), through which every access of the core goes.
-/
namespace Sys2Proof.Machine

/-- What an address reaches. -/
inductive BusTarget where
  /-- a readable and writable byte, at this place of `mem` -/
  | ram (n : Nat)
  /-- a read-only byte; a write is an MBC command (R68, R69) -/
  | rom (n : Nat)
  /-- a byte of the boot ROM overlay, read-only (R70) -/
  | boot (v : Byte)
  /-- cartridge RAM while the MBC's latch is clear (R62) -/
  | ramOff
  /-- the unusable region: reads 0xFF, writes ignored (R62, R69, D25) -/
  | unmapped
  /-- IF at 0xFF0F (R31) -/
  | ifReg
  /-- IE at 0xFFFF (R32) -/
  | ieReg
  /-- 0xFF50, whose non-zero write unmaps the boot ROM (R70) -/
  | bootLatch
  /-- KEY1 at 0xFF4D, with `STOP_SPEED_SWITCH` present (R33, D14) -/
  | key1
  /-- a register of a device outside the block (R3, R69), or any address of a supplied bus: the bus's own functions (R61) -/
  | device
deriving DecidableEq, Repr

/-- The I/O window 0xFF00-0xFF7F of R69, but for IF. -/
def ioTarget (s : State) (n : Nat) : BusTarget :=
  if n = 0xFF50 then .bootLatch
  else if n = 0xFF4D ∧ s.params.speedSwitch = true then .key1
  else .device

/-- The windows of R69, but for IF, IE and the boot ROM overlay. -/
def consoleTarget (s : State) (n : Nat) : BusTarget :=
  if n < 0x8000 then .rom n
  else if n < 0xA000 then .ram n
  else if n < 0xC000 then (if s.cartRamEnabled then .ram n else .ramOff)
  else if n < 0xE000 then .ram n
  else if n < 0xFE00 then .ram (n - 0x2000)
  else if n < 0xFEA0 then .ram n
  else if n < 0xFF00 then .unmapped
  else if n < 0xFF80 then ioTarget s n
  else .ram n

/-- The byte the boot ROM overlay puts at `n`, if it is mapped there (R70). -/
def bootByte (s : State) (n : Nat) : Option Byte :=
  if s.bootMapped && decide (n < 0x100) then s.params.bootRom.map (fun img => img.toList.getD n 0xFF) else none

/-- The addresses of a supplied bus: its own functions have them all, but for KEY1 with `STOP_SPEED_SWITCH` present (D14). -/
def suppliedTarget (s : State) (n : Nat) : BusTarget :=
  if n = 0xFF4D ∧ s.params.speedSwitch = true then .key1 else .device

/-- What address `a` reaches: IF and IE, which the core fixes (R69, R71), then the bus. DESIGN CHOICE (log 12): on the
TestBus 0xFF4D is a byte of its RAM even with `STOP_SPEED_SWITCH` present, so no write of a program reaches KEY1 there. -/
def busTarget (s : State) (a : Word) : BusTarget :=
  if a = 0xFF0F then .ifReg
  else if a = 0xFFFF then .ieReg
  else
    match s.params.bus with
    | .testBus => .ram a.toNat
    | .supplied _ => suppliedTarget s a.toNat
    | .console =>
      match bootByte s a.toNat with
      | some v => .boot v
      | none => consoleTarget s a.toNat

/-- Reading this target gives a free value (log 6, log 8). -/
def BusTarget.isFree : BusTarget → Bool
  | .device => true
  | .bootLatch => true
  | .ramOff => true
  | _ => false

/-- A read of this target may change the device's state (R61, R68). A read of cartridge RAM never does, enabled or not:
in 0xA000-0xBFFF only writes may (R68). -/
def BusTarget.seesRead : BusTarget → Bool
  | .device => true
  | .bootLatch => true
  | _ => false

/-- The window of cartridge RAM on the console's bus, where a write may change the MBC's state (R68, R69). -/
def inCartWindow (s : State) (a : Word) : Bool :=
  decide (s.params.bus = .console) && decide (0xA000 ≤ a.toNat) && decide (a.toNat < 0xC000)

/-- A write to `a` may change the owning device's state (R68): the devices, 0xFF50, ROM and what lies over it, where a write
is an MBC command, and cartridge RAM with its latch set; with the latch clear the write is ignored (R62). -/
def seesWrite (s : State) (a : Word) : Bool :=
  match busTarget s a with
  | .device => true
  | .bootLatch => true
  | .rom _ => true
  | .boot _ => true
  | .ram _ => inCartWindow s a
  | _ => false

/-- What the bus's read function returns at `a` (R61). -/
def deviceByte (s : State) (a : Word) : Byte := (Config.busRead s.params.bus s.busState a).1

/-- The bus state after a read of `a` (R61). -/
def busAfterRead (s : State) (a : Word) : BusState := (Config.busRead s.params.bus s.busState a).2

/-- The bus state after a write of `v` to `a` (R61). -/
def busAfterWrite (s : State) (a : Word) (v : Byte) : BusState := Config.busWrite s.params.bus s.busState a v

/-- A read of IF: `0xE0 | IF[4:0]` (R31). -/
def readIf (s : State) : Byte := 0b111#3 ++ s.iflag

/-- A read of IE, by `IE_UPPER_READ` (R32). -/
def readIe (s : State) : Byte :=
  match s.params.ieUpper with
  | .ones => 0b111#3 ++ s.ie.extractLsb' 0 5
  | .stored => s.ie

/-- A write of IF stores bits 4..0 (R31). -/
def writeIf (s : State) (v : Byte) : State := { s with iflag := v.extractLsb' 0 5 }

/-- A write of IE, by `IE_UPPER_READ` (R32). -/
def writeIe (s : State) (v : Byte) : State :=
  match s.params.ieUpper with
  | .ones => { s with ie := 0b000#3 ++ v.extractLsb' 0 5 }
  | .stored => { s with ie := v }

/-- The value a read of address `a` returns (R61, R62). -/
def readByte (s : State) (a : Word) : Byte :=
  match busTarget s a with
  | .ram n => memGet s.mem n
  | .rom n => memGet s.mem n
  | .boot v => v
  | .unmapped => 0xFF
  | .ifReg => readIf s
  | .ieReg => readIe s
  | .key1 => s.key1
  | .ramOff => deviceByte s a
  | .bootLatch => deviceByte s a
  | .device => deviceByte s a

/-- The state after a read of address `a`: a device may react to being read (R61). -/
def afterRead (s : State) (a : Word) : State :=
  if (busTarget s a).seesRead then { s with busState := busAfterRead s a } else s

/-- `MemRead(a, 1)` (R7). -/
def memRead (s : State) (a : Word) : Byte × State := (readByte s a, afterRead s a)

/-- What a write changes but for the devices: a byte of RAM, IF, IE, KEY1, the boot ROM's latch. A write to ROM, to an
unmapped address or to disabled cartridge RAM changes no byte (R62). -/
def storeByte (s : State) (a : Word) (v : Byte) : State :=
  match busTarget s a with
  | .ram n => { s with mem := memSet s.mem n v }
  | .rom _ => s
  | .boot _ => s
  | .ramOff => s
  | .unmapped => s
  | .ifReg => writeIf s v
  | .ieReg => writeIe s v
  | .bootLatch => { s with bootMapped := s.bootMapped && decide (v = 0) }
  | .key1 => { s with key1 := v }
  | .device => s

/-- `MemWrite(a, 1, v)` (R7): the byte is stored, and the owning device sees the write (R61, R68; log 7). -/
def memWrite (s : State) (a : Word) (v : Byte) : State :=
  { storeByte s a v with busState := if seesWrite s a then busAfterWrite s a v else s.busState }

/-- Put a byte behind the bus from outside the core (R355): the byte of RAM or ROM that address `a` reaches. -/
def pokeByte (s : State) (a : Word) (v : Byte) : State :=
  match busTarget s a with
  | .ram n => { s with mem := memSet s.mem n v }
  | .rom n => { s with mem := memSet s.mem n v }
  | _ => s

end Sys2Proof.Machine
end

