-- ==== Sys2Proof/Machine/Operands.lean ====
section
/-! DEFINITION. Operand forms (30_encoding.md R92-R97): registers, pairs, conditions and addresses. -/
namespace Sys2Proof.Machine

/-- A read of `R8[r]` (R92). -/
def getR8 (s : State) : Reg8 → Byte
  | .a => s.a
  | .b => s.b
  | .c => s.c
  | .d => s.d
  | .e => s.e
  | .h => s.h
  | .l => s.l

/-- A write of `R8[r]` (R92). -/
def setR8 (s : State) (r : Reg8) (v : Byte) : State :=
  match r with
  | .a => { s with a := v }
  | .b => { s with b := v }
  | .c => { s with c := v }
  | .d => { s with d := v }
  | .e => { s with e := v }
  | .h => { s with h := v }
  | .l => { s with l := v }

/-- The views of R21, high register first. -/
def getAF (s : State) : Word := hiLo s.a s.f
def getBC (s : State) : Word := hiLo s.b s.c
def getDE (s : State) : Word := hiLo s.d s.e
def getHL (s : State) : Word := hiLo s.h s.l

/-- A write of AF: F keeps only its flags (R22). -/
def setAF (s : State) (v : Word) : State := { s with a := hiByte v, f := loByte v &&& 0xF0 }
def setBC (s : State) (v : Word) : State := { s with b := hiByte v, c := loByte v }
def setDE (s : State) (v : Word) : State := { s with d := hiByte v, e := loByte v }
def setHL (s : State) (v : Word) : State := { s with h := hiByte v, l := loByte v }

/-- A read of `R16SP[p]` (R93). -/
def getPairSp (s : State) : PairSp → Word
  | .bc => getBC s
  | .de => getDE s
  | .hl => getHL s
  | .sp => s.sp

/-- A write of `R16SP[p]` (R93). -/
def setPairSp (s : State) (p : PairSp) (v : Word) : State :=
  match p with
  | .bc => setBC s v
  | .de => setDE s v
  | .hl => setHL s v
  | .sp => { s with sp := v }

/-- A read of `R16AF[p]` (R94). -/
def getPairAf (s : State) : PairAf → Word
  | .bc => getBC s
  | .de => getDE s
  | .hl => getHL s
  | .af => getAF s

/-- A write of `R16AF[p]` (R94, R143). -/
def setPairAf (s : State) (p : PairAf) (v : Word) : State :=
  match p with
  | .bc => setBC s v
  | .de => setDE s v
  | .hl => setHL s v
  | .af => setAF s v

/-- The flags in F (R22). -/
def flagZ (s : State) : Bool := s.f.getLsbD 7
def flagN (s : State) : Bool := s.f.getLsbD 6
def flagH (s : State) : Bool := s.f.getLsbD 5
def flagC (s : State) : Bool := s.f.getLsbD 4

/-- `Cond(cc)` (R96). -/
def condHolds (s : State) : Cond → Bool
  | .nz => !flagZ s
  | .z => flagZ s
  | .nc => !flagC s
  | .c => flagC s

/-- The address `0xFF00 + zext_16(n)` of the LDH forms (R97). -/
def highPage (n : Byte) : Word := 0xFF00 + zext16 n

end Sys2Proof.Machine
end

