-- ==== Sys2Proof/Machine/Flags.lean ====
section
/-!
DEFINITION. Flag computations: the carrying primitives (00_scope.md R10, R11), SetZNHC (R12), and the functions of the
ALU, INC/DEC, DAA, rotates and bits (41_alu8.md R150, R151, R188; 43_rotate_shift_bit.md R220). Sums and comparisons are
on naturals, before any truncation (R6).
-/
namespace Sys2Proof.Machine

/-- F with these four flags and a zero low nibble (R22). -/
def packFlags (z n h c : Bool) : Byte :=
  BitVec.ofBool z ++ BitVec.ofBool n ++ BitVec.ofBool h ++ BitVec.ofBool c ++ 0b0000#4

/-- `SetZNHC(z, n, h, c)` (R12); `none` is the argument `-`, which keeps the flag. -/
def setZNHC (s : State) (z n h c : Option Bool) : State :=
  { s with f := packFlags (z.getD (flagZ s)) (n.getD (flagN s)) (h.getD (flagH s)) (c.getD (flagC s)) }

/-- What a carrying primitive returns: the result, the half-carry and the carry. -/
structure Carrying (w : Nat) where
  r : BitVec w
  h : Bool
  c : Bool
deriving DecidableEq, Repr

/-- `Add8(a, b, cin)` (R10). -/
def add8 (a b : Byte) (cin : Bool) : Carrying 8 :=
  { r := BitVec.ofNat 8 (a.toNat + b.toNat + cin.toNat)
    h := decide (a.toNat % 16 + b.toNat % 16 + cin.toNat > 0xF)
    c := decide (a.toNat + b.toNat + cin.toNat > 0xFF) }

/-- `Sub8(a, b, cin)` (R10): half-carry and carry are borrows. -/
def sub8 (a b : Byte) (cin : Bool) : Carrying 8 :=
  { r := a - b - BitVec.ofNat 8 cin.toNat
    h := decide (a.toNat % 16 < b.toNat % 16 + cin.toNat)
    c := decide (a.toNat < b.toNat + cin.toNat) }

/-- `Add16(a, b)` (R11): carries out of bits 11 and 15. -/
def add16 (a b : Word) : Carrying 16 :=
  { r := BitVec.ofNat 16 (a.toNat + b.toNat)
    h := decide (a.toNat % 4096 + b.toNat % 4096 > 0xFFF)
    c := decide (a.toNat + b.toNat > 0xFFFF) }

/-- `z(v)` of R12. -/
def isZero (v : Byte) : Bool := decide (v = 0)

/-- The operations of R150, in the order of the field `y`. -/
inductive AluOp where
  | add | adc | sub | sbc | and | xor | or | cp
deriving DecidableEq, Repr

/-- What `Alu` returns (R150): the result, n, h, c (z is z(r)) and whether A is written. -/
structure AluResult where
  r : Byte
  n : Bool
  h : Bool
  c : Bool
  writesA : Bool
deriving DecidableEq, Repr

/-- The row of an addition or a subtraction in the table of R150. -/
def aluOf (x : Carrying 8) (n writesA : Bool) : AluResult := { r := x.r, n := n, h := x.h, c := x.c, writesA := writesA }

/-- `Alu(op, a, b)` with the C flag `cf` before the instruction (R150). -/
def alu (op : AluOp) (a b : Byte) (cf : Bool) : AluResult :=
  match op with
  | .add => aluOf (add8 a b false) false true
  | .adc => aluOf (add8 a b cf) false true
  | .sub => aluOf (sub8 a b false) true true
  | .sbc => aluOf (sub8 a b cf) true true
  | .and => { r := a &&& b, n := false, h := true, c := false, writesA := true }
  | .xor => { r := a ^^^ b, n := false, h := false, c := false, writesA := true }
  | .or => { r := a ||| b, n := false, h := false, c := false, writesA := true }
  | .cp => aluOf (sub8 a b false) true false

/-- `AluExec(op, b)` (R150). -/
def aluExec (op : AluOp) (b : Byte) (s : State) : State :=
  let x := alu op s.a b (flagC s)
  setZNHC (if x.writesA then { s with a := x.r } else s) (some (isZero x.r)) (some x.n) (some x.h) (some x.c)

/-- `Inc8(v)` (R151): the result and h; z is z(r). -/
def inc8 (v : Byte) : Byte × Bool := (v + 1, decide (v.toNat % 16 = 0xF))

/-- `Dec8(v)` (R151): the result and h; z is z(r). -/
def dec8 (v : Byte) : Byte × Bool := (v - 1, decide (v.toNat % 16 = 0))

/-- DAA (R188): the new A and the new C, from A and the flags N, H, C. -/
def daaAdjust (a : Byte) (n h c : Bool) : Byte × Bool :=
  if n then
    let a1 := if c then a - 0x60 else a
    let a2 := if h then a1 - 0x06 else a1
    (a2, c)
  else
    let high := c || decide (a.toNat > 0x99)
    let low := h || decide (a.toNat % 16 > 0x09)
    let a1 := if high then a + 0x60 else a
    let a2 := if low then a1 + 0x06 else a1
    (a2, high)

/-- The kinds of R220, in the order of the field `y`. -/
inductive RotKind where
  | rlc | rrc | rl | rr | sla | sra | swap | srl
deriving DecidableEq, Repr

/-- `RotShift(kind, v, Cf)` (R220): the result and the new carry. -/
def rotShift (kind : RotKind) (v : Byte) (cf : Bool) : Byte × Bool :=
  match kind with
  | .rlc => (v <<< 1 ||| BitVec.ofNat 8 (v.getLsbD 7).toNat, v.getLsbD 7)
  | .rrc => (v >>> 1 ||| BitVec.ofNat 8 (v.getLsbD 0).toNat <<< 7, v.getLsbD 0)
  | .rl => (v <<< 1 ||| BitVec.ofNat 8 cf.toNat, v.getLsbD 7)
  | .rr => (v >>> 1 ||| BitVec.ofNat 8 cf.toNat <<< 7, v.getLsbD 0)
  | .sla => (v <<< 1, v.getLsbD 7)
  | .sra => (v >>> 1 ||| v &&& 0x80, v.getLsbD 0)
  | .swap => (v <<< 4 ||| v >>> 4, false)
  | .srl => (v >>> 1, v.getLsbD 0)

/-- The bit `1 << b` of R243 and R245. -/
def bitMask (b : Fin 8) : Byte := 1#8 <<< b.val

/-- `v & ~(1 << b)` (R243). -/
def resetBit (v : Byte) (b : Fin 8) : Byte := v &&& ~~~ bitMask b

/-- `v | (1 << b)` (R245). -/
def setBit (v : Byte) (b : Fin 8) : Byte := v ||| bitMask b

end Sys2Proof.Machine
end

