-- ==== Sys2Proof/Machine/Ops.lean ====
section
/-!
DEFINITION. The named operations: fetch (00_scope.md R8), stack (R9), outcomes (R13, R14), the interrupt controller
(60_exceptions.md R312), dispatch and the return from it (R320, R321, R269).
-/
namespace Sys2Proof.Machine

/-- The outcome of a step or a meaning. -/
abbrev StepOutcome := Host.Outcome State Fault Refusal

/-- End an instruction: the step returns `Cycles(n)` (R14, R310). -/
def doneIn (n : Nat) (s : State) : StepOutcome := .next { s with result := .cycles n }

/-- `FetchOpcode()` (R8): with `halt_bug` set the PC stays, and the flag clears. It notes `opaddr` (R310; log 3). -/
def fetchOpcode (s : State) : Byte × State :=
  let t := { afterRead s s.pc with opAddr := s.pc }
  (readByte s s.pc, if s.haltBug then { t with haltBug := false } else { t with pc := s.pc + 1 })

/-- `FetchImm8()` (R8). -/
def fetchImm8 (s : State) : Byte × State :=
  (readByte s s.pc, { afterRead s s.pc with pc := s.pc + 1 })

/-- Fetch an instruction: its opcode, then the further bytes its length asks for (R8, R102). -/
def fetchInstr (s : State) : Instr × State :=
  let (op, s1) := fetchOpcode s
  match lengthOf op with
  | 1 => (decodeBytes op 0 0, s1)
  | 2 =>
    let (b2, s2) := fetchImm8 s1
    (decodeBytes op b2 0, s2)
  | _ =>
    let (b2, s2) := fetchImm8 s1
    let (b3, s3) := fetchImm8 s2
    (decodeBytes op b2 b3, s3)

/-- `Push16(v)` (R9): the high byte to SP-1, then the low byte to SP-2. -/
def push16 (v : Word) (s : State) : State :=
  let s1 := memWrite { s with sp := s.sp - 1 } (s.sp - 1) (hiByte v)
  memWrite { s1 with sp := s1.sp - 1 } (s1.sp - 1) (loByte v)

/-- `Pop16()` (R9): the low byte from SP, then the high byte from SP+1. -/
def pop16 (s : State) : Word × State :=
  let (lo, s1) := memRead s s.sp
  let s2 := { s1 with sp := s1.sp + 1 }
  let (hi, s3) := memRead s2 s2.sp
  (hiLo hi lo, { s3 with sp := s3.sp + 1 })

/-- `raise IllegalOpcode(op, addr)` (R13, R340): the fault is recorded, the step returns `Fault`, nothing else
changes. -/
def raiseIllegal (op : Byte) (addr : Word) (s : State) : StepOutcome :=
  .next { s with fault := some { op := op, addr := addr }, result := .fault }

/-- `pending()` (R312): `IF & IE & 0x1F`; IME is not looked at. -/
def pending (s : State) : BitVec 5 := s.iflag &&& s.ie.extractLsb' 0 5

/-- The lowest set bit: the source of highest priority (R316). -/
def lowestSet (p : BitVec 5) : Option (Fin 5) :=
  if p.getLsbD 0 then some 0
  else if p.getLsbD 1 then some 1
  else if p.getLsbD 2 then some 2
  else if p.getLsbD 3 then some 3
  else if p.getLsbD 4 then some 4
  else none

/-- The bit of source `k` in IF and IE (R313). -/
def sourceBit (k : Fin 5) : BitVec 5 := 1#5 <<< k.val

/-- `request(k)` (R312). -/
def requestInterrupt (k : Fin 5) (s : State) : State := { s with iflag := s.iflag ||| sourceBit k }

/-- `IF[k] <- 0` (R312, R320). -/
def clearIf (k : Fin 5) (s : State) : State := { s with iflag := s.iflag &&& ~~~ sourceBit k }

/-- `take_pending()` (R312). -/
def takePending (s : State) : Option (Fin 5) × State :=
  match lowestSet (pending s) with
  | some k => (some k, clearIf k s)
  | none => (none, s)

/-- `Vector(k)` (R321). -/
def vector (k : Fin 5) : Word := 0x0040 + 8 * BitVec.ofNat 16 k.val

/-- The address a dispatch pushes: PC, or PC - 1 after a HALT bug (R320, D13). -/
def dispatchReturn (s : State) : Word := if s.haltBug then s.pc - 1 else s.pc

/-- `Dispatch()` (R320) of the source `k`, chosen before the push (D15). -/
def dispatch (k : Fin 5) (s : State) : StepOutcome :=
  let s1 := push16 (dispatchReturn s) { s with haltBug := false }
  doneIn 20 { clearIf k s1 with ime := false, imePending := false, pc := vector k }

/-- The return of R267 and R269: PC is popped. -/
def returnPop (s : State) : State :=
  let (v, s1) := pop16 s
  { s1 with pc := v }

/-- The return from an interrupt (R269, R323): PC is popped and IME set at once. -/
def returnFromInterrupt (s : State) : State := { returnPop s with ime := true }

end Sys2Proof.Machine
end

