-- ==== Sys2Proof/Machine/Boundary.lean ====
section
/-! DEFINITION. What a step does around an instruction (60_exceptions.md R310): idle steps, dispatch, the fetch and the EI
promotion; and how an instruction is put where a step fetches it. -/
namespace Sys2Proof.Machine

/-- A step in STOP mode (R310, R334): only `wake_input` ends it. -/
def stopStep (s : State) : StepOutcome := doneIn 4 { s with mode := if s.wakeInput then .run else .stop }

/-- A step in HALT mode (R310, R332): a pending interrupt ends it; IME is not consulted. -/
def haltStep (s : State) : StepOutcome := doneIn 4 { s with mode := if pending s = 0 then .halt else .run }

/-- The source a step dispatches, if it dispatches: IME = 1 and an interrupt pending (R310). -/
def dispatchSource (s : State) : Option (Fin 5) := if s.ime then lowestSet (pending s) else none

/-- The end of an instruction's step (R310): if `ime_pending` was set before the instruction and still is, IME becomes 1.
A step that raised ends before this. -/
def promoteIme (pend : Bool) (s : State) : State :=
  if s.fault.isNone && pend && s.imePending then { s with ime := true, imePending := false } else s

/-- `promoteIme` on an outcome. -/
def endInstr (pend : Bool) (o : StepOutcome) : StepOutcome :=
  match o with
  | .next s => .next (promoteIme pend s)
  | .fault r => .fault r
  | .refused r => .refused r

/-- Fetch and execute one instruction (R310, R102); `run` is the dispatch of R104. -/
def instrStep (run : Instr → State → StepOutcome) (s : State) : StepOutcome :=
  let (i, s1) := fetchInstr s
  endInstr s.imePending (run i s1)

/-- `step(wake_input)` (R310), over the dispatch of R104; `wake_input` is in the state (log 4). -/
def stepWith (run : Instr → State → StepOutcome) (s : State) : StepOutcome :=
  match s.fault with
  | some r => .fault (.illegalOpcode r.op r.addr)
  | none =>
    match s.mode with
    | .stop => stopStep s
    | .halt => haltStep s
    | .run =>
      match dispatchSource s with
      | some k => dispatch k s
      | none => instrStep run s

/-- A place from which an instruction can be fetched without a device: three plain bytes of the bus from `a` on. -/
def isPlain (s : State) (a : Word) : Bool :=
  match busTarget s a with
  | .ram _ => true
  | .rom _ => true
  | _ => false

/-- Where `withFetchWord` puts an instruction: at PC if the bytes there are plain, else in work RAM (log 13). -/
def fetchPlace (s : State) : Word :=
  if isPlain s s.pc && isPlain s (s.pc + 1) && isPlain s (s.pc + 2) then s.pc else 0xC000

/-- The state in which the next step executes an instruction: RUN, no fault, no HALT bug, and no interrupt to dispatch
first. -/
def readyToFetch (s : State) : State :=
  { s with
    pc := fetchPlace s, mode := .run, fault := none, haltBug := false
    iflag := if (dispatchSource s).isSome then 0 else s.iflag }

/-- Three bytes put at PC from outside the core. -/
def placeBytes (s : State) (b1 b2 b3 : Byte) : State :=
  pokeByte (pokeByte (pokeByte s s.pc b1) (s.pc + 1) b2) (s.pc + 2) b3

end Sys2Proof.Machine
end

