-- ==== Sys2Proof/Machine/Loads.lean ====
section
/-!
DEFINITION. Loads, stores and stack operations (40_loads.md). In every meaning PC has advanced past the instruction's
bytes, which the fetch has read (R25; log 17).
-/
namespace Sys2Proof.Machine

/-- Load A from address `a`. -/
def loadA (a : Word) (s : State) : State :=
  let (v, s1) := memRead s a
  { s1 with a := v }

/-- LD r,r' (R120). -/
def execLdRR (dst src : Reg8) (s : State) : StepOutcome := doneIn 4 (setR8 s dst (getR8 s src))

/-- LD r,n8 (R121). -/
def execLdRN8 (r : Reg8) (n : Byte) (s : State) : StepOutcome := doneIn 8 (setR8 s r n)

/-- LD r,(HL) (R122). -/
def execLdRHl (r : Reg8) (s : State) : StepOutcome :=
  let (v, s1) := memRead s (getHL s)
  doneIn 8 (setR8 s1 r v)

/-- LD (HL),r (R123). -/
def execLdHlR (r : Reg8) (s : State) : StepOutcome := doneIn 8 (memWrite s (getHL s) (getR8 s r))

/-- LD (HL),n8 (R124). -/
def execLdHlN8 (n : Byte) (s : State) : StepOutcome := doneIn 12 (memWrite s (getHL s) n)

/-- LD A,(BC) (R125). -/
def execLdABc (s : State) : StepOutcome := doneIn 8 (loadA (getBC s) s)

/-- LD A,(DE) (R126). -/
def execLdADe (s : State) : StepOutcome := doneIn 8 (loadA (getDE s) s)

/-- LD (BC),A (R127). -/
def execLdBcA (s : State) : StepOutcome := doneIn 8 (memWrite s (getBC s) s.a)

/-- LD (DE),A (R128). -/
def execLdDeA (s : State) : StepOutcome := doneIn 8 (memWrite s (getDE s) s.a)

/-- LD A,(a16) (R129). -/
def execLdAA16 (a : Word) (s : State) : StepOutcome := doneIn 16 (loadA a s)

/-- LD (a16),A (R130). -/
def execLdA16A (a : Word) (s : State) : StepOutcome := doneIn 16 (memWrite s a s.a)

/-- LDH A,(C) (R131). -/
def execLdhAC (s : State) : StepOutcome := doneIn 8 (loadA (highPage s.c) s)

/-- LDH (C),A (R132). -/
def execLdhCA (s : State) : StepOutcome := doneIn 8 (memWrite s (highPage s.c) s.a)

/-- LDH A,(a8) (R133). -/
def execLdhAA8 (n : Byte) (s : State) : StepOutcome := doneIn 12 (loadA (highPage n) s)

/-- LDH (a8),A (R134). -/
def execLdhA8A (n : Byte) (s : State) : StepOutcome := doneIn 12 (memWrite s (highPage n) s.a)

/-- LD A,(HL-) (R135). -/
def execLdAHld (s : State) : StepOutcome := doneIn 8 (setHL (loadA (getHL s) s) (getHL s - 1))

/-- LD (HL-),A (R136). -/
def execLdHldA (s : State) : StepOutcome := doneIn 8 (setHL (memWrite s (getHL s) s.a) (getHL s - 1))

/-- LD A,(HL+) (R137). -/
def execLdAHli (s : State) : StepOutcome := doneIn 8 (setHL (loadA (getHL s) s) (getHL s + 1))

/-- LD (HL+),A (R138). -/
def execLdHliA (s : State) : StepOutcome := doneIn 8 (setHL (memWrite s (getHL s) s.a) (getHL s + 1))

/-- LD rr,n16 (R139). -/
def execLdRrN16 (p : PairSp) (n : Word) (s : State) : StepOutcome := doneIn 12 (setPairSp s p n)

/-- LD (a16),SP (R140): the low byte first. -/
def execLdA16Sp (a : Word) (s : State) : StepOutcome :=
  doneIn 20 (memWrite (memWrite s a (loByte s.sp)) (a + 1) (hiByte s.sp))

/-- LD SP,HL (R141). -/
def execLdSpHl (s : State) : StepOutcome := doneIn 8 { s with sp := getHL s }

/-- PUSH rr (R142). -/
def execPushRr (p : PairAf) (s : State) : StepOutcome := doneIn 16 (push16 (getPairAf s p) s)

/-- POP rr (R143). -/
def execPopRr (p : PairAf) (s : State) : StepOutcome :=
  let (v, s1) := pop16 s
  doneIn 12 (setPairAf s1 p v)

/-- The flags of LD HL,SP+e8 and ADD SP,e8: those of the 8-bit add of SP's low byte (R144, R203, D26, C3). -/
def setSpOffsetFlags (sp : Word) (e : Byte) (s : State) : State :=
  let x := add8 (loByte sp) e false
  setZNHC s (some false) (some false) (some x.h) (some x.c)

/-- LD HL,SP+e8 (R144). -/
def execLdHlSpE8 (e : Byte) (s : State) : StepOutcome :=
  doneIn 12 (setSpOffsetFlags s.sp e (setHL s (s.sp + sext16 e)))

end Sys2Proof.Machine
end

