-- ==== Sys2Proof/Machine/Alu16.lean ====
section
/-! DEFINITION. 16-bit arithmetic (42_alu16.md). -/
namespace Sys2Proof.Machine

/-- INC rr (R200): no flag changes. -/
def execIncRr (p : PairSp) (s : State) : StepOutcome := doneIn 8 (setPairSp s p (getPairSp s p + 1))

/-- DEC rr (R201): no flag changes. -/
def execDecRr (p : PairSp) (s : State) : StepOutcome := doneIn 8 (setPairSp s p (getPairSp s p - 1))

/-- ADD HL,rr (R202): Z is kept. -/
def execAddHlRr (p : PairSp) (s : State) : StepOutcome :=
  let x := add16 (getHL s) (getPairSp s p)
  doneIn 8 (setZNHC (setHL s x.r) none (some false) (some x.h) (some x.c))

/-- ADD SP,e8 (R203). -/
def execAddSpE8 (e : Byte) (s : State) : StepOutcome :=
  doneIn 16 (setSpOffsetFlags s.sp e { s with sp := s.sp + sext16 e })

end Sys2Proof.Machine
end

