-- ==== Sys2Proof/Machine/Alu8.lean ====
section
/-! DEFINITION. 8-bit arithmetic and logic (41_alu8.md). -/
namespace Sys2Proof.Machine

/-- An ALU operation on a register (R150). -/
def aluReg (op : AluOp) (r : Reg8) (s : State) : StepOutcome := doneIn 4 (aluExec op (getR8 s r) s)

/-- An ALU operation on the byte at HL (R150). -/
def aluHl (op : AluOp) (s : State) : StepOutcome :=
  let (v, s1) := memRead s (getHL s)
  doneIn 8 (aluExec op v s1)

/-- An ALU operation on an immediate (R150). -/
def aluImm (op : AluOp) (n : Byte) (s : State) : StepOutcome := doneIn 8 (aluExec op n s)

/-- ADD A,r (R160). -/
def execAddAR (r : Reg8) (s : State) : StepOutcome := aluReg .add r s

/-- ADD A,(HL) (R161). -/
def execAddAHl (s : State) : StepOutcome := aluHl .add s

/-- ADD A,n8 (R162). -/
def execAddAN8 (n : Byte) (s : State) : StepOutcome := aluImm .add n s

/-- ADC A,r (R163). -/
def execAdcAR (r : Reg8) (s : State) : StepOutcome := aluReg .adc r s

/-- ADC A,(HL) (R164). -/
def execAdcAHl (s : State) : StepOutcome := aluHl .adc s

/-- ADC A,n8 (R165). -/
def execAdcAN8 (n : Byte) (s : State) : StepOutcome := aluImm .adc n s

/-- SUB r (R166). -/
def execSubR (r : Reg8) (s : State) : StepOutcome := aluReg .sub r s

/-- SUB (HL) (R167). -/
def execSubHl (s : State) : StepOutcome := aluHl .sub s

/-- SUB n8 (R168). -/
def execSubN8 (n : Byte) (s : State) : StepOutcome := aluImm .sub n s

/-- SBC A,r (R169). -/
def execSbcAR (r : Reg8) (s : State) : StepOutcome := aluReg .sbc r s

/-- SBC A,(HL) (R170). -/
def execSbcAHl (s : State) : StepOutcome := aluHl .sbc s

/-- SBC A,n8 (R171). -/
def execSbcAN8 (n : Byte) (s : State) : StepOutcome := aluImm .sbc n s

/-- AND r (R172). -/
def execAndR (r : Reg8) (s : State) : StepOutcome := aluReg .and r s

/-- AND (HL) (R173). -/
def execAndHl (s : State) : StepOutcome := aluHl .and s

/-- AND n8 (R174). -/
def execAndN8 (n : Byte) (s : State) : StepOutcome := aluImm .and n s

/-- XOR r (R175). -/
def execXorR (r : Reg8) (s : State) : StepOutcome := aluReg .xor r s

/-- XOR (HL) (R176). -/
def execXorHl (s : State) : StepOutcome := aluHl .xor s

/-- XOR n8 (R177). -/
def execXorN8 (n : Byte) (s : State) : StepOutcome := aluImm .xor n s

/-- OR r (R178). -/
def execOrR (r : Reg8) (s : State) : StepOutcome := aluReg .or r s

/-- OR (HL) (R179). -/
def execOrHl (s : State) : StepOutcome := aluHl .or s

/-- OR n8 (R180). -/
def execOrN8 (n : Byte) (s : State) : StepOutcome := aluImm .or n s

/-- CP r (R181). -/
def execCpR (r : Reg8) (s : State) : StepOutcome := aluReg .cp r s

/-- CP (HL) (R182). -/
def execCpHl (s : State) : StepOutcome := aluHl .cp s

/-- CP n8 (R183). -/
def execCpN8 (n : Byte) (s : State) : StepOutcome := aluImm .cp n s

/-- INC r (R184): C is kept. -/
def execIncR (r : Reg8) (s : State) : StepOutcome :=
  let (v, h) := inc8 (getR8 s r)
  doneIn 4 (setZNHC (setR8 s r v) (some (isZero v)) (some false) (some h) none)

/-- INC (HL) (R185): one read, then one write. -/
def execIncHl (s : State) : StepOutcome :=
  let (v, s1) := memRead s (getHL s)
  let (r, h) := inc8 v
  doneIn 12 (setZNHC (memWrite s1 (getHL s) r) (some (isZero r)) (some false) (some h) none)

/-- DEC r (R186): C is kept. -/
def execDecR (r : Reg8) (s : State) : StepOutcome :=
  let (v, h) := dec8 (getR8 s r)
  doneIn 4 (setZNHC (setR8 s r v) (some (isZero v)) (some true) (some h) none)

/-- DEC (HL) (R187): one read, then one write. -/
def execDecHl (s : State) : StepOutcome :=
  let (v, s1) := memRead s (getHL s)
  let (r, h) := dec8 v
  doneIn 12 (setZNHC (memWrite s1 (getHL s) r) (some (isZero r)) (some true) (some h) none)

/-- DAA (R188). -/
def execDaa (s : State) : StepOutcome :=
  let (a, c) := daaAdjust s.a (flagN s) (flagH s) (flagC s)
  doneIn 4 (setZNHC { s with a := a } (some (isZero a)) none (some false) (some c))

/-- CPL (R189). -/
def execCpl (s : State) : StepOutcome :=
  doneIn 4 (setZNHC { s with a := s.a ^^^ 0xFF } none (some true) (some true) none)

/-- SCF (R190). -/
def execScf (s : State) : StepOutcome := doneIn 4 (setZNHC s none (some false) (some false) (some true))

/-- CCF (R191). -/
def execCcf (s : State) : StepOutcome := doneIn 4 (setZNHC s none (some false) (some false) (some (!flagC s)))

end Sys2Proof.Machine
end

