-- ==== Sys2Proof/Machine/Control.lean ====
section
/-!
DEFINITION. Control transfer (44_control.md). PC is the address of the next instruction; no flag is written (C4).
-/
namespace Sys2Proof.Machine

/-- `Push16(PC); PC <- a` (R265, R270). -/
def callTo (a : Word) (s : State) : State := { push16 s.pc s with pc := a }

/-- `PC <- PC + sext_16(e)` (R263). -/
def jumpRel (e : Byte) (s : State) : State := { s with pc := s.pc + sext16 e }

/-- JP a16 (R260). -/
def execJpA16 (a : Word) (s : State) : StepOutcome := doneIn 16 { s with pc := a }

/-- JP HL (R261). -/
def execJpHl (s : State) : StepOutcome := doneIn 4 { s with pc := getHL s }

/-- JP cc,a16 (R262). -/
def execJpCc (cc : Cond) (a : Word) (s : State) : StepOutcome :=
  if condHolds s cc then doneIn 16 { s with pc := a } else doneIn 12 s

/-- JR e8 (R263). -/
def execJrE8 (e : Byte) (s : State) : StepOutcome := doneIn 12 (jumpRel e s)

/-- JR cc,e8 (R264). -/
def execJrCc (cc : Cond) (e : Byte) (s : State) : StepOutcome :=
  if condHolds s cc then doneIn 12 (jumpRel e s) else doneIn 8 s

/-- CALL a16 (R265). -/
def execCallA16 (a : Word) (s : State) : StepOutcome := doneIn 24 (callTo a s)

/-- CALL cc,a16 (R266). -/
def execCallCc (cc : Cond) (a : Word) (s : State) : StepOutcome :=
  if condHolds s cc then doneIn 24 (callTo a s) else doneIn 12 s

/-- RET (R267). -/
def execRet (s : State) : StepOutcome := doneIn 16 (returnPop s)

/-- RET cc (R268). -/
def execRetCc (cc : Cond) (s : State) : StepOutcome :=
  if condHolds s cc then doneIn 20 (returnPop s) else doneIn 8 s

/-- RETI (R269): IME is set at once. -/
def execReti (s : State) : StepOutcome := doneIn 16 (returnFromInterrupt s)

/-- The target of RST (R97, R270): `zext_16(t * 8)`. -/
def restartAddress (t : Fin 8) : Word := BitVec.ofNat 16 (t.val * 8)

/-- RST t (R270). -/
def execRstT (t : Fin 8) (s : State) : StepOutcome := doneIn 16 (callTo (restartAddress t) s)

end Sys2Proof.Machine
end

