-- ==== Sys2Proof/Machine/RotateShiftBit.lean ====
section
/-! DEFINITION. Rotates, shifts and bit operations (43_rotate_shift_bit.md), and the prefix CB (30_encoding.md R102). -/
namespace Sys2Proof.Machine

/-- An accumulator rotate: Z is cleared (R220). -/
def rotateA (kind : RotKind) (s : State) : StepOutcome :=
  let (r, c) := rotShift kind s.a (flagC s)
  doneIn 4 (setZNHC { s with a := r } (some false) (some false) (some false) (some c))

/-- A CB rotate or shift of a register (R220). -/
def rotReg (kind : RotKind) (r : Reg8) (s : State) : StepOutcome :=
  let (v, c) := rotShift kind (getR8 s r) (flagC s)
  doneIn 8 (setZNHC (setR8 s r v) (some (isZero v)) (some false) (some false) (some c))

/-- A CB rotate or shift of the byte at HL: one read, then one write (R220, R64). -/
def rotHl (kind : RotKind) (s : State) : StepOutcome :=
  let (v, s1) := memRead s (getHL s)
  let (r, c) := rotShift kind v (flagC s)
  doneIn 16 (setZNHC (memWrite s1 (getHL s) r) (some (isZero r)) (some false) (some false) (some c))

/-- The flags of a bit test of `v` (R241, R242): Z is the complement of the bit, C is kept. -/
def bitTest (b : Fin 8) (v : Byte) (s : State) : State :=
  setZNHC s (some (!v.getLsbD b.val)) (some false) (some true) none

/-- `v <- MemRead(HL); MemWrite(HL, g(v))` (R244, R246). -/
def modifyHl (g : Byte → Byte) (s : State) : State :=
  let (v, s1) := memRead s (getHL s)
  memWrite s1 (getHL s) (g v)

/-- RLCA (R221). -/
def execRlca (s : State) : StepOutcome := rotateA .rlc s

/-- RRCA (R222). -/
def execRrca (s : State) : StepOutcome := rotateA .rrc s

/-- RLA (R223). -/
def execRla (s : State) : StepOutcome := rotateA .rl s

/-- RRA (R224). -/
def execRra (s : State) : StepOutcome := rotateA .rr s

/-- RLC r (R225). -/
def execRlcR (r : Reg8) (s : State) : StepOutcome := rotReg .rlc r s

/-- RLC (HL) (R226). -/
def execRlcHl (s : State) : StepOutcome := rotHl .rlc s

/-- RRC r (R227). -/
def execRrcR (r : Reg8) (s : State) : StepOutcome := rotReg .rrc r s

/-- RRC (HL) (R228). -/
def execRrcHl (s : State) : StepOutcome := rotHl .rrc s

/-- RL r (R229). -/
def execRlR (r : Reg8) (s : State) : StepOutcome := rotReg .rl r s

/-- RL (HL) (R230). -/
def execRlHl (s : State) : StepOutcome := rotHl .rl s

/-- RR r (R231). -/
def execRrR (r : Reg8) (s : State) : StepOutcome := rotReg .rr r s

/-- RR (HL) (R232). -/
def execRrHl (s : State) : StepOutcome := rotHl .rr s

/-- SLA r (R233). -/
def execSlaR (r : Reg8) (s : State) : StepOutcome := rotReg .sla r s

/-- SLA (HL) (R234). -/
def execSlaHl (s : State) : StepOutcome := rotHl .sla s

/-- SRA r (R235). -/
def execSraR (r : Reg8) (s : State) : StepOutcome := rotReg .sra r s

/-- SRA (HL) (R236). -/
def execSraHl (s : State) : StepOutcome := rotHl .sra s

/-- SWAP r (R237). -/
def execSwapR (r : Reg8) (s : State) : StepOutcome := rotReg .swap r s

/-- SWAP (HL) (R238). -/
def execSwapHl (s : State) : StepOutcome := rotHl .swap s

/-- SRL r (R239). -/
def execSrlR (r : Reg8) (s : State) : StepOutcome := rotReg .srl r s

/-- SRL (HL) (R240). -/
def execSrlHl (s : State) : StepOutcome := rotHl .srl s

/-- BIT b,r (R241). -/
def execBitR (b : Fin 8) (r : Reg8) (s : State) : StepOutcome := doneIn 8 (bitTest b (getR8 s r) s)

/-- BIT b,(HL) (R242): one read and no write. -/
def execBitHl (b : Fin 8) (s : State) : StepOutcome :=
  let (v, s1) := memRead s (getHL s)
  doneIn 12 (bitTest b v s1)

/-- RES b,r (R243). -/
def execResR (b : Fin 8) (r : Reg8) (s : State) : StepOutcome := doneIn 8 (setR8 s r (resetBit (getR8 s r) b))

/-- RES b,(HL) (R244). -/
def execResHl (b : Fin 8) (s : State) : StepOutcome := doneIn 16 (modifyHl (fun v => resetBit v b) s)

/-- SET b,r (R245). -/
def execSetR (b : Fin 8) (r : Reg8) (s : State) : StepOutcome := doneIn 8 (setR8 s r (setBit (getR8 s r) b))

/-- SET b,(HL) (R246). -/
def execSetHl (b : Fin 8) (s : State) : StepOutcome := doneIn 16 (modifyHl (fun v => setBit v b) s)

/-- The kind of the field `y` (R220). -/
def rotKindOf (y : BitVec 3) : RotKind :=
  match y.toNat with
  | 0 => .rlc
  | 1 => .rrc
  | 2 => .rl
  | 3 => .rr
  | 4 => .sla
  | 5 => .sra
  | 6 => .swap
  | _ => .srl

/-- PREFIX CB (R102): execute CB-row(op2), read from the structure of the CB page (R99). The decoder gives the row
itself (log 14). -/
def execPrefixCB (op2 : Byte) (s : State) : StepOutcome :=
  match (fieldX op2).toNat, operand8 (fieldZ op2) with
  | 0, .reg r => rotReg (rotKindOf (fieldY op2)) r s
  | 0, .atHl => rotHl (rotKindOf (fieldY op2)) s
  | 1, .reg r => execBitR (fieldY op2).toFin r s
  | 1, .atHl => execBitHl (fieldY op2).toFin s
  | 2, .reg r => execResR (fieldY op2).toFin r s
  | 2, .atHl => execResHl (fieldY op2).toFin s
  | _, .reg r => execSetR (fieldY op2).toFin r s
  | _, .atHl => execSetHl (fieldY op2).toFin s

end Sys2Proof.Machine
end

