-- ==== Sys2Proof/Machine/System.lean ====
section
/-! DEFINITION. System and control instructions (45_system.md). -/
namespace Sys2Proof.Machine

/-- NOP (R290). -/
def execNop (s : State) : StepOutcome := doneIn 4 s

/-- HALT (R291): the HALT bug with IME = 0 and an interrupt pending, else HALT mode. -/
def execHalt (s : State) : StepOutcome :=
  if !s.ime && decide (pending s ≠ 0) then doneIn 4 { s with haltBug := true }
  else doneIn 4 { s with mode := .halt }

/-- What `STOP_SPEED_SWITCH` does at a STOP with KEY1 bit 0 set (D14; log 12). -/
def switchSpeed (x : SpeedSwitch) (s : State) : State :=
  { s with doubleSpeed := x.doubleSpeed, key1 := x.key1, mode := if x.entersStop then .stop else s.mode }

/-- STOP (R292): its second byte has been fetched and is ignored. With `STOP_SPEED_SWITCH` absent, the default, it
always enters STOP mode (D32). -/
def execStop (_n : Byte) (s : State) : StepOutcome :=
  if s.params.speedSwitch && s.key1.getLsbD 0 then doneIn 4 (switchSpeed (Config.speedSwitch s.key1) s)
  else doneIn 4 { s with mode := .stop }

/-- DI (R293). -/
def execDi (s : State) : StepOutcome := doneIn 4 { s with ime := false, imePending := false }

/-- EI (R294): IME follows at the end of the next instruction's step (R310). -/
def execEi (s : State) : StepOutcome := doneIn 4 { s with imePending := true }

/-- ILLEGAL (R295): the fault is recorded with the address the byte was fetched from. -/
def execIllegal (op : Byte) (s : State) : StepOutcome := raiseIllegal op s.opAddr s

end Sys2Proof.Machine
end

