-- ==== Sys2Proof/Machine/Dispatch.lean ====
section
/-! DEFINITION. The dispatch of an instruction to its meaning (R104): one arm per constructor of Instr. -/
namespace Sys2Proof.Machine

def exec (i : Instr) (s : State) : Host.Outcome State Fault Refusal :=
  match i with
  | .ldRR dst src => Sys2Proof.Machine.execLdRR dst src s
  | .ldRN8 r n => Sys2Proof.Machine.execLdRN8 r n s
  | .ldRHl r => Sys2Proof.Machine.execLdRHl r s
  | .ldHlR r => Sys2Proof.Machine.execLdHlR r s
  | .ldHlN8 n => Sys2Proof.Machine.execLdHlN8 n s
  | .ldABc => Sys2Proof.Machine.execLdABc s
  | .ldADe => Sys2Proof.Machine.execLdADe s
  | .ldBcA => Sys2Proof.Machine.execLdBcA s
  | .ldDeA => Sys2Proof.Machine.execLdDeA s
  | .ldAA16 a => Sys2Proof.Machine.execLdAA16 a s
  | .ldA16A a => Sys2Proof.Machine.execLdA16A a s
  | .ldhAC => Sys2Proof.Machine.execLdhAC s
  | .ldhCA => Sys2Proof.Machine.execLdhCA s
  | .ldhAA8 n => Sys2Proof.Machine.execLdhAA8 n s
  | .ldhA8A n => Sys2Proof.Machine.execLdhA8A n s
  | .ldAHld => Sys2Proof.Machine.execLdAHld s
  | .ldHldA => Sys2Proof.Machine.execLdHldA s
  | .ldAHli => Sys2Proof.Machine.execLdAHli s
  | .ldHliA => Sys2Proof.Machine.execLdHliA s
  | .ldRrN16 p n => Sys2Proof.Machine.execLdRrN16 p n s
  | .ldA16Sp a => Sys2Proof.Machine.execLdA16Sp a s
  | .ldSpHl => Sys2Proof.Machine.execLdSpHl s
  | .pushRr p => Sys2Proof.Machine.execPushRr p s
  | .popRr p => Sys2Proof.Machine.execPopRr p s
  | .ldHlSpE8 e => Sys2Proof.Machine.execLdHlSpE8 e s
  | .addAR r => Sys2Proof.Machine.execAddAR r s
  | .addAHl => Sys2Proof.Machine.execAddAHl s
  | .addAN8 n => Sys2Proof.Machine.execAddAN8 n s
  | .adcAR r => Sys2Proof.Machine.execAdcAR r s
  | .adcAHl => Sys2Proof.Machine.execAdcAHl s
  | .adcAN8 n => Sys2Proof.Machine.execAdcAN8 n s
  | .subR r => Sys2Proof.Machine.execSubR r s
  | .subHl => Sys2Proof.Machine.execSubHl s
  | .subN8 n => Sys2Proof.Machine.execSubN8 n s
  | .sbcAR r => Sys2Proof.Machine.execSbcAR r s
  | .sbcAHl => Sys2Proof.Machine.execSbcAHl s
  | .sbcAN8 n => Sys2Proof.Machine.execSbcAN8 n s
  | .andR r => Sys2Proof.Machine.execAndR r s
  | .andHl => Sys2Proof.Machine.execAndHl s
  | .andN8 n => Sys2Proof.Machine.execAndN8 n s
  | .xorR r => Sys2Proof.Machine.execXorR r s
  | .xorHl => Sys2Proof.Machine.execXorHl s
  | .xorN8 n => Sys2Proof.Machine.execXorN8 n s
  | .orR r => Sys2Proof.Machine.execOrR r s
  | .orHl => Sys2Proof.Machine.execOrHl s
  | .orN8 n => Sys2Proof.Machine.execOrN8 n s
  | .cpR r => Sys2Proof.Machine.execCpR r s
  | .cpHl => Sys2Proof.Machine.execCpHl s
  | .cpN8 n => Sys2Proof.Machine.execCpN8 n s
  | .incR r => Sys2Proof.Machine.execIncR r s
  | .incHl => Sys2Proof.Machine.execIncHl s
  | .decR r => Sys2Proof.Machine.execDecR r s
  | .decHl => Sys2Proof.Machine.execDecHl s
  | .daa => Sys2Proof.Machine.execDaa s
  | .cpl => Sys2Proof.Machine.execCpl s
  | .scf => Sys2Proof.Machine.execScf s
  | .ccf => Sys2Proof.Machine.execCcf s
  | .incRr p => Sys2Proof.Machine.execIncRr p s
  | .decRr p => Sys2Proof.Machine.execDecRr p s
  | .addHlRr p => Sys2Proof.Machine.execAddHlRr p s
  | .addSpE8 e => Sys2Proof.Machine.execAddSpE8 e s
  | .rlca => Sys2Proof.Machine.execRlca s
  | .rrca => Sys2Proof.Machine.execRrca s
  | .rla => Sys2Proof.Machine.execRla s
  | .rra => Sys2Proof.Machine.execRra s
  | .rlcR r => Sys2Proof.Machine.execRlcR r s
  | .rlcHl => Sys2Proof.Machine.execRlcHl s
  | .rrcR r => Sys2Proof.Machine.execRrcR r s
  | .rrcHl => Sys2Proof.Machine.execRrcHl s
  | .rlR r => Sys2Proof.Machine.execRlR r s
  | .rlHl => Sys2Proof.Machine.execRlHl s
  | .rrR r => Sys2Proof.Machine.execRrR r s
  | .rrHl => Sys2Proof.Machine.execRrHl s
  | .slaR r => Sys2Proof.Machine.execSlaR r s
  | .slaHl => Sys2Proof.Machine.execSlaHl s
  | .sraR r => Sys2Proof.Machine.execSraR r s
  | .sraHl => Sys2Proof.Machine.execSraHl s
  | .swapR r => Sys2Proof.Machine.execSwapR r s
  | .swapHl => Sys2Proof.Machine.execSwapHl s
  | .srlR r => Sys2Proof.Machine.execSrlR r s
  | .srlHl => Sys2Proof.Machine.execSrlHl s
  | .bitR b r => Sys2Proof.Machine.execBitR b r s
  | .bitHl b => Sys2Proof.Machine.execBitHl b s
  | .resR b r => Sys2Proof.Machine.execResR b r s
  | .resHl b => Sys2Proof.Machine.execResHl b s
  | .setR b r => Sys2Proof.Machine.execSetR b r s
  | .setHl b => Sys2Proof.Machine.execSetHl b s
  | .jpA16 a => Sys2Proof.Machine.execJpA16 a s
  | .jpHl => Sys2Proof.Machine.execJpHl s
  | .jpCc cc a => Sys2Proof.Machine.execJpCc cc a s
  | .jrE8 e => Sys2Proof.Machine.execJrE8 e s
  | .jrCc cc e => Sys2Proof.Machine.execJrCc cc e s
  | .callA16 a => Sys2Proof.Machine.execCallA16 a s
  | .callCc cc a => Sys2Proof.Machine.execCallCc cc a s
  | .ret => Sys2Proof.Machine.execRet s
  | .retCc cc => Sys2Proof.Machine.execRetCc cc s
  | .reti => Sys2Proof.Machine.execReti s
  | .rstT t => Sys2Proof.Machine.execRstT t s
  | .nop => Sys2Proof.Machine.execNop s
  | .halt => Sys2Proof.Machine.execHalt s
  | .stop n => Sys2Proof.Machine.execStop n s
  | .di => Sys2Proof.Machine.execDi s
  | .ei => Sys2Proof.Machine.execEi s
  | .illegal op => Sys2Proof.Machine.execIllegal op s
  | .prefixCB op2 => Sys2Proof.Machine.execPrefixCB op2 s

end Sys2Proof.Machine
end

