-- ==== Sys2Proof/Machine/Step.lean ====
section
/-! DEFINITION. The step (60_exceptions.md R310), and the host's placing of an instruction. -/
namespace Sys2Proof.Machine

/-- One step of the machine (R310). -/
def step (s : State) : Host.Outcome State Fault Refusal := stepWith exec s

/-- The state with the instruction of a table word stored where the next step fetches (log 13). -/
def State.withFetchWord (s : State) (nbits w : Nat) : State :=
  let v := w % 2 ^ nbits
  placeBytes (readyToFetch s) (tableByte v 0) (tableByte v 1) (tableByte v 2)

end Sys2Proof.Machine
end

