-- ==== Sys2Proof/Machine/Environment.lean ====
section
/-!
DEFINITION. What the host may do between steps (60_exceptions.md R355). A step never does any of it (20_memory.md R72).
-/
namespace Sys2Proof.Machine

/-- The interactions of R355 that change the state. -/
inductive EnvAction where
  /-- a device requests interrupt `k` (R312, R314) -/
  | request (k : Fin 5)
  /-- the host drives `wake_input` (R334) -/
  | wake (level : Bool)
  /-- the devices advance by the cycles the last step returned (R72, R355) -/
  | advance
  /-- something else changes the devices' state: a button, a peer on the serial line, a cartridge (R72, R355) -/
  | devices (bus : BusState)
  /-- a device changes a byte of memory behind the bus (R72, R355) -/
  | poke (a : Word) (v : Byte)
  /-- the MBC sets or clears its RAM-enable latch (R62; log 8) -/
  | cartRam (enabled : Bool)
  /-- reset, with what it draws (R360, D20) -/
  | reset (draw : Draw)
deriving DecidableEq, Repr

/-- The cycles a step returned (R310); a step that ended in `Fault` returned none (R382). -/
def StepResult.spent : StepResult → Nat
  | .cycles n => n
  | .fault => 0

/-- The state after a host action between two steps. -/
def envAct (act : EnvAction) (s : State) : State :=
  match act with
  | .request k => requestInterrupt k s
  | .wake level => { s with wakeInput := level }
  | .advance => { s with busState := Config.busAdvance s.params.bus s.busState s.result.spent }
  | .devices bus => { s with busState := bus }
  | .poke a v => pokeByte s a v
  | .cartRam enabled => { s with cartRamEnabled := enabled }
  | .reset draw => State.powerOn s.params draw

end Sys2Proof.Machine
end

