-- ==== Sys2Proof/Safety.lean ====
section
/-!
DEFINITION. What counts as a safe run, in the terms claims use (70_reset_and_hazards.md R390, R391; 60_exceptions.md
R337), and the state invariant.
-/
namespace Sys2Proof.Machine

/-- No fault is recorded (R30). A state with one refutes any claim of correct execution (R340, R390). -/
def Safe (s : State) : Bool := s.fault.isNone

/-- The launch premise `CleanEntry` (R391); that the bus is total is a fact of the model. -/
def CleanEntry (s : State) : Bool :=
  s.fault.isNone && decide (s.mode = .run) && !s.haltBug && !s.imePending && decide (s.f &&& 0x0F = 0)

/-- The ends of a run (R390). -/
inductive RunEnd where
  | faulted
  | haltedForGood
  | stopped
deriving DecidableEq, Repr

/-- The end a state is at, if it is at one (R337, R390). A core in STOP mode whose `wake_input` is raised is at no end: its
next step wakes it. With `wake_input` 0 it is stopped for as long as the host does not raise it, which is the premise R390
puts on the host's later actions. -/
def runEnd (s : State) : Option RunEnd :=
  if s.fault.isSome then some .faulted
  else
    match s.mode with
    | .halt => if s.ie &&& 0x1F = 0 then some .haltedForGood else none
    | .stop => if s.wakeInput then none else some .stopped
    | .run => none

/-- The state invariant: bits 3..0 of F are 0 (R22), memory is canonical, bits 7..5 of IE are 0 unless stored (R32),
a halted or stopped core has `ime_pending = 0` (R317) and no HALT bug (R331), the boot ROM is mapped only where there
is one (R70), and the last result is `Fault` exactly when a fault is recorded (R340). -/
structure Inv (s : State) : Prop where
  lowNibble : s.f &&& 0x0F = 0
  memory : Memory.wf s.mem = true
  ieUpper : s.params.ieUpper = .ones → s.ie &&& 0xE0 = 0
  idlePending : s.mode ≠ .run → s.imePending = false
  idleHaltBug : s.mode ≠ .run → s.haltBug = false
  overlay : s.bootMapped = true → s.params.bootRom.isSome = true
  faulted : s.result = .fault ↔ s.fault.isSome = true

/-- The states that steps and host actions reach from a state: the runs of R390 with the host between steps (R355). -/
inductive Reaches (s : State) : State → Prop where
  | start : Reaches s s
  | step {t u : State} : Reaches s t → step t = .next u → Reaches s u
  | env {t : State} (act : EnvAction) : Reaches s t → Reaches s (envAct act t)

end Sys2Proof.Machine
end

