-- ==== Sys2Proof/Certificates/Slice0/Obligations.lean ====
section
/-!
DEFINITION. The statements for the provers: what each instruction does and leaves alone, what a step does around it,
and what holds of the whole machine. In a statement about `exec`, the state is the one after the fetch: PC is the address
of the next instruction (R25).
-/
namespace Sys2Proof.Claims

open Sys2Proof.Machine

/-! ## What stays the same -/

/-- The hidden state, the input and the parameters are unchanged. -/
def Kept (s t : State) : Prop :=
  t.ime = s.ime ∧ t.imePending = s.imePending ∧ t.mode = s.mode ∧ t.haltBug = s.haltBug ∧ t.fault = s.fault ∧
    t.wakeInput = s.wakeInput ∧ t.opAddr = s.opAddr ∧ t.params = s.params

/-- The registers not in the list are unchanged. -/
def RegsKept (s t : State) (but : List Reg8) : Prop := ∀ q, q ∉ but → getR8 t q = getR8 s q

/-- Everything of the core but the registers in the list is unchanged: F, SP, PC and the hidden state too. -/
def CoreKept (s t : State) (but : List Reg8) : Prop :=
  RegsKept s t but ∧ t.f = s.f ∧ t.sp = s.sp ∧ t.pc = s.pc ∧ Kept s t

/-- As `CoreKept`, with F left to the statement. -/
def CoreKeptButF (s t : State) (but : List Reg8) : Prop :=
  RegsKept s t but ∧ t.sp = s.sp ∧ t.pc = s.pc ∧ Kept s t

/-- The latches and registers behind the bus are unchanged. -/
def LatchesKept (s t : State) : Prop :=
  t.bootMapped = s.bootMapped ∧ t.cartRamEnabled = s.cartRamEnabled ∧ t.key1 = s.key1 ∧ t.doubleSpeed = s.doubleSpeed

/-- No bus access beyond the fetch: every byte reads as before, and IF, IE and the devices are untouched. -/
def BusKept (s t : State) : Prop :=
  (∀ a, readByte t a = readByte s a) ∧ t.mem = s.mem ∧ t.iflag = s.iflag ∧ t.ie = s.ie ∧ LatchesKept s t ∧
    t.busState = s.busState

/-- The targets whose reads a device sees: the devices and 0xFF50 (R61, R68). -/
def ReadByDevice : BusTarget → Bool
  | .device => true
  | .bootLatch => true
  | _ => false

/-- One read of address `x` and no write: every byte that is not a device's reads as before, and a device at `x` is in the
state the bus's read function gives (R61). -/
def BusRead (x : Word) (s t : State) : Prop :=
  (∀ a, (busTarget s a).isFree = false → readByte t a = readByte s a) ∧ t.mem = s.mem ∧ t.iflag = s.iflag ∧
    t.ie = s.ie ∧ LatchesKept s t ∧
    t.busState =
      (if ReadByDevice (busTarget s x) then (Config.busRead s.params.bus s.busState x).2 else s.busState)

/-- Two addresses reach the same byte: they are equal, or both reach one byte of RAM (the mirror of R69). -/
def SameByte (s : State) (a x : Word) : Prop :=
  a = x ∨ ∃ n, busTarget s a = .ram n ∧ busTarget s x = .ram n

/-- The addresses whose writes a device sees: the devices, 0xFF50, ROM, where a write is an MBC command, and the window of
cartridge RAM while it is enabled (R68, R69). -/
def WrittenByDevice (s : State) (x : Word) : Bool :=
  match busTarget s x with
  | .device => true
  | .bootLatch => true
  | .rom _ => true
  | .boot _ => true
  | .ram _ => decide (s.params.bus = .console ∧ 0xA000 ≤ x.toNat ∧ x.toNat < 0xC000)
  | _ => false

/-- What a write of `v` leaves in IE (R32). -/
def storedIe (p : Params) (v : Byte) : Byte := if p.ieUpper = .ones then v &&& 0x1F else v

/-- One write of `v` to address `x`: the byte reads back if it is RAM; every address outside it reads as before (but a
device's, and but the boot ROM's own bytes when the write is the one to 0xFF50); no other byte behind the bus changes; IF,
IE, the latches and what devices see are as the address map says (R31, R32, R62, R69, R70). -/
def BusWritten (x : Word) (v : Byte) (s t : State) : Prop :=
  (Memory.wf s.mem = true → ∀ n, busTarget s x = .ram n → readByte t x = v) ∧
  (∀ a, ¬ SameByte s a x → (busTarget s a).isFree = false →
    (busTarget s x = .bootLatch → bootByte s a.toNat = none) → readByte t a = readByte s a) ∧
  (∀ n, busTarget s x ≠ .ram n → memGet t.mem n = memGet s.mem n) ∧
  t.iflag = (if x = 0xFF0F then v.extractLsb' 0 5 else s.iflag) ∧
  t.ie = (if x = 0xFFFF then storedIe s.params v else s.ie) ∧
  t.bootMapped = (if busTarget s x = .bootLatch then s.bootMapped && decide (v = 0) else s.bootMapped) ∧
  t.cartRamEnabled = s.cartRamEnabled ∧
  t.key1 = (if busTarget s x = .key1 then v else s.key1) ∧
  t.doubleSpeed = s.doubleSpeed ∧
  t.busState = (if WrittenByDevice s x then Config.busWrite s.params.bus s.busState x v else s.busState)

/-- A push of two bytes (R9): `hi` to SP-1, then `lo` to SP-2, as two writes in that order; SP falls by 2. In RAM both bytes
read back, and every address outside them reads as before. -/
def PushedBytes (hi lo : Byte) (s t : State) : Prop :=
  t.sp = s.sp - 2 ∧
  BusWritten (s.sp - 1) hi s (memWrite s (s.sp - 1) hi) ∧
  BusWritten (s.sp - 2) lo (memWrite s (s.sp - 1) hi) t ∧
  (Memory.wf s.mem = true → ∀ n, busTarget s (s.sp - 1) = .ram n → readByte t (s.sp - 1) = hi) ∧
  (Memory.wf s.mem = true → ∀ n, busTarget s (s.sp - 2) = .ram n → readByte t (s.sp - 2) = lo) ∧
  (∀ a, ¬ SameByte s a (s.sp - 1) → ¬ SameByte s a (s.sp - 2) → (busTarget s a).isFree = false →
    bootByte s a.toNat = none → readByte t a = readByte s a)

/-- A push of `v` (R9): its bits 15..8, then its bits 7..0. -/
def Pushed (v : Word) (s t : State) : Prop := PushedBytes (v.extractLsb' 8 8) (v.extractLsb' 0 8) s t

/-- The value a pop returns (R9): the low byte from SP, then the high byte from SP+1. -/
def popped (s : State) : Word :=
  BitVec.ofNat 16 ((readByte (afterRead s s.sp) (s.sp + 1)).toNat * 256 + (readByte s s.sp).toNat)

/-- The bus after a pop: a read of SP, then a read of SP+1; SP rises by 2. -/
def PoppedBus (s t : State) : Prop := t.sp = s.sp + 2 ∧ BusRead (s.sp + 1) (afterRead s s.sp) t

/-- The flags, with bits 3..0 of F zero (R22). -/
def FlagsAre (t : State) (z n h c : Bool) : Prop :=
  flagZ t = z ∧ flagN t = n ∧ flagH t = h ∧ flagC t = c ∧ t.f &&& 0x0F = 0

/-! ## Numbers of the encoding -/

/-- The field `R8` (R92). -/
def regNo : Reg8 → Nat
  | .b => 0 | .c => 1 | .d => 2 | .e => 3 | .h => 4 | .l => 5 | .a => 7

/-- The field `R16SP` (R93). -/
def pairNo : PairSp → Nat
  | .bc => 0 | .de => 1 | .hl => 2 | .sp => 3

/-- The field `R16AF` (R94). -/
def pairAfNo : PairAf → Nat
  | .bc => 0 | .de => 1 | .hl => 2 | .af => 3

/-- The field `cc` (R96). -/
def condNo : Cond → Nat
  | .nz => 0 | .z => 1 | .nc => 2 | .c => 3

/-- The two registers of a pair of `R16AF`, high one first (R21, R94): A and F for AF. -/
def pairAfBytes (s : State) : PairAf → Byte × Byte
  | .bc => (s.b, s.c) | .de => (s.d, s.e) | .hl => (s.h, s.l) | .af => (s.a, s.f)

/-- `Cond(cc)` on the bits of F (R96, R22). -/
def condBit (s : State) : Cond → Bool
  | .nz => !s.f.getLsbD 7 | .z => s.f.getLsbD 7 | .nc => !s.f.getLsbD 4 | .c => s.f.getLsbD 4

/-- The registers of a pair; SP has none. -/
def pairRegs : PairSp → List Reg8
  | .bc => [.b, .c] | .de => [.d, .e] | .hl => [.h, .l] | .sp => []

/-- The value of a pair, as R21 puts it together. -/
def pairNat (s : State) : PairSp → Nat
  | .bc => s.b.toNat * 256 + s.c.toNat
  | .de => s.d.toNat * 256 + s.e.toNat
  | .hl => s.h.toNat * 256 + s.l.toNat
  | .sp => s.sp.toNat

/-- The value of HL (R21). -/
def hlNat (s : State) : Nat := s.h.toNat * 256 + s.l.toNat

/-- A form of an instruction: its bytes, and that it answers a next state, in so many cycles, of which `P` holds. -/
def Form (i : Instr) (bytes : List Nat) (cycles : Nat) (s : State) (P : State → Prop) : Prop :=
  (encode i).map BitVec.toNat = bytes ∧ ∃ t, exec i s = .next t ∧ t.result = .cycles cycles ∧ P t

/-- The three forms of an ALU operation (R150): on a register, on the byte at HL, on an immediate. `effect a cf v t` says
what A and F of `t` are. The base of the register form's opcode is `op`. -/
def AluForms (onReg : Reg8 → Instr) (onHl : Instr) (onImm : Byte → Instr) (op : Nat)
    (effect : Byte → Bool → Byte → State → Prop) : Prop :=
  ∀ s : State,
    (∀ r, Form (onReg r) [op + regNo r] 4 s fun t =>
      effect s.a (flagC s) (getR8 s r) t ∧ CoreKeptButF s t [.a] ∧ BusKept s t) ∧
    (Form onHl [op + 6] 8 s fun t =>
      effect s.a (flagC s) (readByte s (getHL s)) t ∧ CoreKeptButF s t [.a] ∧ BusRead (getHL s) s t) ∧
    (∀ n, Form (onImm n) [op + 70, n.toNat] 8 s fun t =>
      effect s.a (flagC s) n t ∧ CoreKeptButF s t [.a] ∧ BusKept s t)

/-- The two forms of a CB rotate or shift (R220): on a register, on the byte at HL. Bit `i` of the result is
`bit v cf i`, the new carry `carry v`, from the operand `v` and the old carry `cf`. -/
def RotForms (onReg : Reg8 → Instr) (onHl : Instr) (op : Nat) (bit : Byte → Bool → Nat → Bool)
    (carry : Byte → Bool) : Prop :=
  ∀ s : State,
    (∀ r, Form (onReg r) [0xCB, op + regNo r] 8 s fun t =>
      (∀ i < 8, (getR8 t r).getLsbD i = bit (getR8 s r) (flagC s) i) ∧
      FlagsAre t (decide (getR8 t r = 0)) false false (carry (getR8 s r)) ∧ CoreKeptButF s t [r] ∧ BusKept s t) ∧
    (∃ w : Byte, (∀ i < 8, w.getLsbD i = bit (readByte s (getHL s)) (flagC s) i) ∧
      Form onHl [0xCB, op + 6] 16 s fun t =>
        FlagsAre t (decide (w = 0)) false false (carry (readByte s (getHL s))) ∧ CoreKeptButF s t [] ∧
        BusWritten (getHL s) w (afterRead s (getHL s)) t)

/-- An accumulator rotate (R220): as the CB form on A, but Z is cleared. -/
def AccForm (i : Instr) (op : Nat) (bit : Byte → Bool → Nat → Bool) (carry : Byte → Bool) : Prop :=
  ∀ s : State, Form i [op] 4 s fun t =>
    (∀ k < 8, t.a.getLsbD k = bit s.a (flagC s) k) ∧ FlagsAre t false false false (carry s.a) ∧
    CoreKeptButF s t [.a] ∧ BusKept s t

/-- A core that executes the instruction at PC in its next step: no fault, RUN, and nothing to dispatch (R310). -/
def Executes (s : State) : Prop := s.fault = none ∧ s.mode = .run ∧ (s.ime = false ∨ pending s = 0)

end Sys2Proof.Claims

open Sys2Proof Sys2Proof.Machine Sys2Proof.Claims

/-! ## Loads, stores and stack -/

/-- LD r,r' and LD r,n8 (R120, R121). -/
def Obligations.RegisterLoads : Prop :=
  ∀ s : State,
    (∀ dst src, Form (.ldRR dst src) [0x40 + 8 * regNo dst + regNo src] 4 s fun t =>
      getR8 t dst = getR8 s src ∧ CoreKept s t [dst] ∧ BusKept s t) ∧
    (∀ r n, Form (.ldRN8 r n) [0x06 + 8 * regNo r, n.toNat] 8 s fun t =>
      getR8 t r = n ∧ CoreKept s t [r] ∧ BusKept s t)

/-- LD r,(HL) (R122): the address is HL as it was, LD H and LD L too. -/
def Obligations.LoadFromHl : Prop :=
  ∀ (s : State) r, Form (.ldRHl r) [0x46 + 8 * regNo r] 8 s fun t =>
    getR8 t r = readByte s (getHL s) ∧ CoreKept s t [r] ∧ BusRead (getHL s) s t

/-- LD (HL),r and LD (HL),n8 (R123, R124). -/
def Obligations.StoreToHl : Prop :=
  ∀ s : State,
    (∀ r, Form (.ldHlR r) [0x70 + regNo r] 8 s fun t =>
      CoreKept s t [] ∧ BusWritten (getHL s) (getR8 s r) s t) ∧
    (∀ n, Form (.ldHlN8 n) [0x36, n.toNat] 12 s fun t => CoreKept s t [] ∧ BusWritten (getHL s) n s t)

/-- LD A,(BC), LD A,(DE), LD A,(a16), LDH A,(C) and LDH A,(a8) (R125, R126, R129, R131, R133). -/
def Obligations.AccumulatorLoads : Prop :=
  ∀ s : State,
    let loads (x : Word) (t : State) : Prop := t.a = readByte s x ∧ CoreKept s t [.a] ∧ BusRead x s t
    (Form .ldABc [0x0A] 8 s (loads (BitVec.ofNat 16 (pairNat s .bc)))) ∧
    (Form .ldADe [0x1A] 8 s (loads (BitVec.ofNat 16 (pairNat s .de)))) ∧
    (∀ a : Word, Form (.ldAA16 a) [0xFA, a.toNat % 256, a.toNat / 256] 16 s (loads a)) ∧
    (Form .ldhAC [0xF2] 8 s (loads (BitVec.ofNat 16 (0xFF00 + s.c.toNat)))) ∧
    (∀ n : Byte, Form (.ldhAA8 n) [0xF0, n.toNat] 12 s (loads (BitVec.ofNat 16 (0xFF00 + n.toNat))))

/-- LD (BC),A, LD (DE),A, LD (a16),A, LDH (C),A and LDH (a8),A (R127, R128, R130, R132, R134). -/
def Obligations.AccumulatorStores : Prop :=
  ∀ s : State,
    let stores (x : Word) (t : State) : Prop := CoreKept s t [] ∧ BusWritten x s.a s t
    (Form .ldBcA [0x02] 8 s (stores (getBC s))) ∧
    (Form .ldDeA [0x12] 8 s (stores (getDE s))) ∧
    (∀ a : Word, Form (.ldA16A a) [0xEA, a.toNat % 256, a.toNat / 256] 16 s (stores a)) ∧
    (Form .ldhCA [0xE2] 8 s (stores (highPage s.c))) ∧
    (∀ n : Byte, Form (.ldhA8A n) [0xE0, n.toNat] 12 s (stores (highPage n))) ∧
    (∀ n : Byte, (highPage n).toNat = 0xFF00 + n.toNat)

/-- LD A,(HL-), LD (HL-),A, LD A,(HL+) and LD (HL+),A (R135-R138): HL moves by one, modulo 2^16, after the access. -/
def Obligations.HlStepping : Prop :=
  ∀ s : State,
    let core (t : State) (but : List Reg8) (hl : Nat) : Prop := hlNat t = hl % 65536 ∧ CoreKept s t (.h :: .l :: but)
    (Form .ldAHld [0x3A] 8 s fun t =>
      t.a = readByte s (getHL s) ∧ core t [.a] (hlNat s + 65535) ∧ BusRead (getHL s) s t) ∧
    (Form .ldHldA [0x32] 8 s fun t => core t [] (hlNat s + 65535) ∧ BusWritten (getHL s) s.a s t) ∧
    (Form .ldAHli [0x2A] 8 s fun t =>
      t.a = readByte s (getHL s) ∧ core t [.a] (hlNat s + 1) ∧ BusRead (getHL s) s t) ∧
    (Form .ldHliA [0x22] 8 s fun t => core t [] (hlNat s + 1) ∧ BusWritten (getHL s) s.a s t)

/-- LD rr,n16 and LD SP,HL (R139, R141). -/
def Obligations.PairLoads : Prop :=
  ∀ s : State,
    (∀ p (n : Word), Form (.ldRrN16 p n) [0x01 + 16 * pairNo p, n.toNat % 256, n.toNat / 256] 12 s fun t =>
      pairNat t p = n.toNat ∧ RegsKept s t (pairRegs p) ∧ (p ≠ .sp → t.sp = s.sp) ∧ t.f = s.f ∧ t.pc = s.pc ∧
      Kept s t ∧ BusKept s t) ∧
    (Form .ldSpHl [0xF9] 8 s fun t =>
      t.sp.toNat = hlNat s ∧ RegsKept s t [] ∧ t.f = s.f ∧ t.pc = s.pc ∧ Kept s t ∧ BusKept s t)

/-- LD (a16),SP (R140): the low byte to a16, then the high byte to a16 + 1. -/
def Obligations.StoreSp : Prop :=
  ∀ (s : State) (a : Word), Form (.ldA16Sp a) [0x08, a.toNat % 256, a.toNat / 256] 20 s fun t =>
    CoreKept s t [] ∧
    BusWritten a (s.sp.extractLsb' 0 8) s (memWrite s a (s.sp.extractLsb' 0 8)) ∧
    BusWritten (a + 1) (s.sp.extractLsb' 8 8) (memWrite s a (s.sp.extractLsb' 0 8)) t ∧
    (∀ x, ¬ SameByte s x a → ¬ SameByte s x (a + 1) → (busTarget s x).isFree = false → bootByte s x.toNat = none →
      readByte t x = readByte s x)

/-- PUSH rr (R142, R9): the pair's high register to SP-1, then its low one to SP-2; for AF these are A and F. -/
def Obligations.PushPair : Prop :=
  ∀ (s : State) p, Form (.pushRr p) [0xC5 + 16 * pairAfNo p] 16 s fun t =>
    PushedBytes (pairAfBytes s p).1 (pairAfBytes s p).2 s t ∧ RegsKept s t [] ∧ t.f = s.f ∧ t.pc = s.pc ∧ Kept s t

/-- POP rr (R143, R9): POP AF drops bits 3..0 of the low byte. -/
def Obligations.PopPair : Prop :=
  ∀ s : State,
    let rest (t : State) : Prop := PoppedBus s t ∧ t.pc = s.pc ∧ Kept s t
    (Form (.popRr .bc) [0xC1] 12 s fun t =>
      pairNat t .bc = (popped s).toNat ∧ RegsKept s t [.b, .c] ∧ t.f = s.f ∧ rest t) ∧
    (Form (.popRr .de) [0xD1] 12 s fun t =>
      pairNat t .de = (popped s).toNat ∧ RegsKept s t [.d, .e] ∧ t.f = s.f ∧ rest t) ∧
    (Form (.popRr .hl) [0xE1] 12 s fun t =>
      pairNat t .hl = (popped s).toNat ∧ RegsKept s t [.h, .l] ∧ t.f = s.f ∧ rest t) ∧
    (Form (.popRr .af) [0xF1] 12 s fun t =>
      t.a.toNat = (popped s).toNat / 256 ∧ t.f.toNat = (popped s).toNat % 256 / 16 * 16 ∧ RegsKept s t [.a] ∧ rest t)

/-- LD HL,SP+e8 and ADD SP,e8 (R144, R203): the sum is signed and modulo 2^16, the flags are those of the unsigned add of
the low byte. -/
def Obligations.SpOffset : Prop :=
  ∀ (s : State) (e : Byte),
    let flags (t : State) : Prop :=
      FlagsAre t false false (decide (s.sp.toNat % 16 + e.toNat % 16 > 15)) (decide (s.sp.toNat % 256 + e.toNat > 255))
    (Form (.ldHlSpE8 e) [0xF8, e.toNat] 12 s fun t =>
      (hlNat t : Int) = ((s.sp.toNat : Int) + e.toInt) % 65536 ∧ flags t ∧ CoreKeptButF s t [.h, .l] ∧ BusKept s t) ∧
    (Form (.addSpE8 e) [0xE8, e.toNat] 16 s fun t =>
      (t.sp.toNat : Int) = ((s.sp.toNat : Int) + e.toInt) % 65536 ∧ flags t ∧ RegsKept s t [] ∧ t.pc = s.pc ∧
      Kept s t ∧ BusKept s t)

/-! ## 8-bit arithmetic and logic -/

/-- ADD A,r, ADD A,(HL), ADD A,n8 (R160-R162, R150, R10). -/
def Obligations.AddForms : Prop :=
  AluForms .addAR .addAHl .addAN8 0x80 fun a _ v t =>
    t.a.toNat = (a.toNat + v.toNat) % 256 ∧
    FlagsAre t (decide (t.a = 0)) false (decide (a.toNat % 16 + v.toNat % 16 > 15)) (decide (a.toNat + v.toNat > 255))

/-- ADC A,r, ADC A,(HL), ADC A,n8 (R163-R165): the carry-in takes part in both H and C. -/
def Obligations.AdcForms : Prop :=
  AluForms .adcAR .adcAHl .adcAN8 0x88 fun a cf v t =>
    t.a.toNat = (a.toNat + v.toNat + cf.toNat) % 256 ∧
    FlagsAre t (decide (t.a = 0)) false (decide (a.toNat % 16 + v.toNat % 16 + cf.toNat > 15))
      (decide (a.toNat + v.toNat + cf.toNat > 255))

/-- SUB r, SUB (HL), SUB n8 (R166-R168): H and C are borrows. -/
def Obligations.SubForms : Prop :=
  AluForms .subR .subHl .subN8 0x90 fun a _ v t =>
    t.a.toNat = (a.toNat + 256 - v.toNat) % 256 ∧
    FlagsAre t (decide (t.a = 0)) true (decide (a.toNat % 16 < v.toNat % 16)) (decide (a.toNat < v.toNat))

/-- SBC A,r, SBC A,(HL), SBC A,n8 (R169-R171): the borrow-in takes part in both H and C. -/
def Obligations.SbcForms : Prop :=
  AluForms .sbcAR .sbcAHl .sbcAN8 0x98 fun a cf v t =>
    t.a.toNat = (a.toNat + 256 - v.toNat + 256 - cf.toNat) % 256 ∧
    FlagsAre t (decide (t.a = 0)) true (decide (a.toNat % 16 < v.toNat % 16 + cf.toNat))
      (decide (a.toNat < v.toNat + cf.toNat))

/-- AND, XOR and OR with r, (HL) and n8 (R172-R180): H is 1 after AND alone, C is 0. -/
def Obligations.LogicForms : Prop :=
  (AluForms .andR .andHl .andN8 0xA0 fun a _ v t =>
    (∀ i < 8, t.a.getLsbD i = (a.getLsbD i && v.getLsbD i)) ∧ FlagsAre t (decide (t.a = 0)) false true false) ∧
  (AluForms .xorR .xorHl .xorN8 0xA8 fun a _ v t =>
    (∀ i < 8, t.a.getLsbD i = (a.getLsbD i != v.getLsbD i)) ∧ FlagsAre t (decide (t.a = 0)) false false false) ∧
  (AluForms .orR .orHl .orN8 0xB0 fun a _ v t =>
    (∀ i < 8, t.a.getLsbD i = (a.getLsbD i || v.getLsbD i)) ∧ FlagsAre t (decide (t.a = 0)) false false false)

/-- CP r, CP (HL), CP n8 (R181-R183): the flags of SUB, and A stays. -/
def Obligations.CpForms : Prop :=
  AluForms .cpR .cpHl .cpN8 0xB8 fun a _ v t =>
    t.a = a ∧ FlagsAre t (decide (a = v)) true (decide (a.toNat % 16 < v.toNat % 16)) (decide (a.toNat < v.toNat))

/-- INC r, INC (HL), DEC r and DEC (HL) (R184-R187): C is kept. -/
def Obligations.IncDecByte : Prop :=
  ∀ s : State,
    (∀ r, Form (.incR r) [0x04 + 8 * regNo r] 4 s fun t =>
      (getR8 t r).toNat = ((getR8 s r).toNat + 1) % 256 ∧
      FlagsAre t (decide (getR8 t r = 0)) false (decide ((getR8 s r).toNat % 16 = 15)) (flagC s) ∧
      CoreKeptButF s t [r] ∧ BusKept s t) ∧
    (∀ r, Form (.decR r) [0x05 + 8 * regNo r] 4 s fun t =>
      (getR8 t r).toNat = ((getR8 s r).toNat + 255) % 256 ∧
      FlagsAre t (decide (getR8 t r = 0)) true (decide ((getR8 s r).toNat % 16 = 0)) (flagC s) ∧
      CoreKeptButF s t [r] ∧ BusKept s t) ∧
    (∀ v w x : Byte, v = readByte s (getHL s) → w.toNat = (v.toNat + 1) % 256 → x.toNat = (v.toNat + 255) % 256 →
      (Form .incHl [0x34] 12 s fun t =>
        FlagsAre t (decide (w = 0)) false (decide (v.toNat % 16 = 15)) (flagC s) ∧ CoreKeptButF s t [] ∧
        BusWritten (getHL s) w (afterRead s (getHL s)) t) ∧
      (Form .decHl [0x35] 12 s fun t =>
        FlagsAre t (decide (x = 0)) true (decide (v.toNat % 16 = 0)) (flagC s) ∧ CoreKeptButF s t [] ∧
        BusWritten (getHL s) x (afterRead s (getHL s)) t))

/-- DAA (R188), on any A: the two adjustments are decided by A and the flags before the instruction. -/
def Obligations.DecimalAdjust : Prop :=
  ∀ s : State, Form .daa [0x27] 4 s fun t =>
    (flagN s = false →
      t.a.toNat = (s.a.toNat + (if flagC s = true ∨ s.a.toNat > 0x99 then 0x60 else 0) +
        (if flagH s = true ∨ s.a.toNat % 16 > 9 then 6 else 0)) % 256 ∧
      flagC t = (flagC s || decide (s.a.toNat > 0x99))) ∧
    (flagN s = true →
      t.a.toNat = (s.a.toNat + 256 - ((if flagC s = true then 0x60 else 0) + (if flagH s = true then 6 else 0))) % 256 ∧
      flagC t = flagC s) ∧
    FlagsAre t (decide (t.a = 0)) (flagN s) false (flagC t) ∧ CoreKeptButF s t [.a] ∧ BusKept s t

/-- ADD A,r then DAA adds two-digit decimal numbers: for A and r valid BCD, A is the BCD of the sum modulo 100 and C says
whether it reached 100 (what R188 is for: decimal adjust after a BCD addition). -/
def Obligations.BcdAddition : Prop :=
  ∀ (s t u : State) (r : Reg8),
    let bcd (v : Byte) : Prop := v.toNat % 16 < 10 ∧ v.toNat / 16 < 10
    let dec (v : Byte) : Nat := v.toNat / 16 * 10 + v.toNat % 16
    bcd s.a → bcd (getR8 s r) → exec (.addAR r) s = .next t → exec .daa t = .next u →
      bcd u.a ∧ dec u.a = (dec s.a + dec (getR8 s r)) % 100 ∧ flagC u = decide (dec s.a + dec (getR8 s r) ≥ 100)

/-- CPL, SCF and CCF (R189-R191). -/
def Obligations.ComplementAndCarry : Prop :=
  ∀ s : State,
    (Form .cpl [0x2F] 4 s fun t =>
      t.a.toNat = 255 - s.a.toNat ∧ FlagsAre t (flagZ s) true true (flagC s) ∧ CoreKeptButF s t [.a] ∧ BusKept s t) ∧
    (Form .scf [0x37] 4 s fun t => FlagsAre t (flagZ s) false false true ∧ CoreKeptButF s t [] ∧ BusKept s t) ∧
    (Form .ccf [0x3F] 4 s fun t => FlagsAre t (flagZ s) false false (!flagC s) ∧ CoreKeptButF s t [] ∧ BusKept s t)

/-! ## 16-bit arithmetic -/

/-- INC rr and DEC rr (R200, R201): no flag changes. -/
def Obligations.IncDecPair : Prop :=
  ∀ (s : State) p,
    let rest (t : State) : Prop :=
      RegsKept s t (pairRegs p) ∧ (p ≠ .sp → t.sp = s.sp) ∧ t.f = s.f ∧ t.pc = s.pc ∧ Kept s t ∧ BusKept s t
    (Form (.incRr p) [0x03 + 16 * pairNo p] 8 s fun t => pairNat t p = (pairNat s p + 1) % 65536 ∧ rest t) ∧
    (Form (.decRr p) [0x0B + 16 * pairNo p] 8 s fun t => pairNat t p = (pairNat s p + 65535) % 65536 ∧ rest t)

/-- ADD HL,rr (R202, R11): H is the carry out of bit 11, C out of bit 15; Z is kept. -/
def Obligations.AddHlPair : Prop :=
  ∀ (s : State) p, Form (.addHlRr p) [0x09 + 16 * pairNo p] 8 s fun t =>
    hlNat t = (hlNat s + pairNat s p) % 65536 ∧
    FlagsAre t (flagZ s) false (decide (hlNat s % 4096 + pairNat s p % 4096 > 4095))
      (decide (hlNat s + pairNat s p > 65535)) ∧
    CoreKeptButF s t [.h, .l] ∧ BusKept s t

/-! ## Rotates, shifts and bits -/

/-- RLCA, RRCA, RLA and RRA (R221-R224, R220). -/
def Obligations.AccumulatorRotates : Prop :=
  AccForm .rlca 0x07 (fun v _ i => v.getLsbD ((i + 7) % 8)) (fun v => v.getLsbD 7) ∧
  AccForm .rrca 0x0F (fun v _ i => v.getLsbD ((i + 1) % 8)) (fun v => v.getLsbD 0) ∧
  AccForm .rla 0x17 (fun v cf i => if i = 0 then cf else v.getLsbD (i - 1)) (fun v => v.getLsbD 7) ∧
  AccForm .rra 0x1F (fun v cf i => if i = 7 then cf else v.getLsbD (i + 1)) (fun v => v.getLsbD 0)

/-- RLC, RRC, RL and RR of a register and of (HL) (R225-R232, R220). -/
def Obligations.Rotates : Prop :=
  RotForms .rlcR .rlcHl 0x00 (fun v _ i => v.getLsbD ((i + 7) % 8)) (fun v => v.getLsbD 7) ∧
  RotForms .rrcR .rrcHl 0x08 (fun v _ i => v.getLsbD ((i + 1) % 8)) (fun v => v.getLsbD 0) ∧
  RotForms .rlR .rlHl 0x10 (fun v cf i => if i = 0 then cf else v.getLsbD (i - 1)) (fun v => v.getLsbD 7) ∧
  RotForms .rrR .rrHl 0x18 (fun v cf i => if i = 7 then cf else v.getLsbD (i + 1)) (fun v => v.getLsbD 0)

/-- SLA, SRA, SWAP and SRL of a register and of (HL) (R233-R240, R220). -/
def Obligations.ShiftsAndSwap : Prop :=
  RotForms .slaR .slaHl 0x20 (fun v _ i => if i = 0 then false else v.getLsbD (i - 1)) (fun v => v.getLsbD 7) ∧
  RotForms .sraR .sraHl 0x28 (fun v _ i => if i = 7 then v.getLsbD 7 else v.getLsbD (i + 1)) (fun v => v.getLsbD 0) ∧
  RotForms .swapR .swapHl 0x30 (fun v _ i => v.getLsbD ((i + 4) % 8)) (fun _ => false) ∧
  RotForms .srlR .srlHl 0x38 (fun v _ i => if i = 7 then false else v.getLsbD (i + 1)) (fun v => v.getLsbD 0)

/-- BIT b,r and BIT b,(HL) (R241, R242): Z is the complement of the bit, C is kept, nothing is written. -/
def Obligations.BitTests : Prop :=
  ∀ (s : State) (b : Fin 8),
    (∀ r, Form (.bitR b r) [0xCB, 0x40 + 8 * b.val + regNo r] 8 s fun t =>
      FlagsAre t (!(getR8 s r).getLsbD b.val) false true (flagC s) ∧ CoreKeptButF s t [] ∧ BusKept s t) ∧
    (Form (.bitHl b) [0xCB, 0x46 + 8 * b.val] 12 s fun t =>
      FlagsAre t (!(readByte s (getHL s)).getLsbD b.val) false true (flagC s) ∧ CoreKeptButF s t [] ∧
      BusRead (getHL s) s t)

/-- RES and SET of a register and of (HL) (R243-R246): bit b alone is forced; (HL) is read once and written once, even if
the bit already had the value. -/
def Obligations.BitResetAndSet : Prop :=
  ∀ (s : State) (b : Fin 8),
    let forced (w v : Byte) (x : Bool) : Prop := ∀ i < 8, w.getLsbD i = if i = b.val then x else v.getLsbD i
    (∀ r, Form (.resR b r) [0xCB, 0x80 + 8 * b.val + regNo r] 8 s fun t =>
      forced (getR8 t r) (getR8 s r) false ∧ CoreKept s t [r] ∧ BusKept s t) ∧
    (∀ r, Form (.setR b r) [0xCB, 0xC0 + 8 * b.val + regNo r] 8 s fun t =>
      forced (getR8 t r) (getR8 s r) true ∧ CoreKept s t [r] ∧ BusKept s t) ∧
    (∃ w, forced w (readByte s (getHL s)) false ∧ Form (.resHl b) [0xCB, 0x86 + 8 * b.val] 16 s fun t =>
      CoreKept s t [] ∧ BusWritten (getHL s) w (afterRead s (getHL s)) t) ∧
    (∃ w, forced w (readByte s (getHL s)) true ∧ Form (.setHl b) [0xCB, 0xC6 + 8 * b.val] 16 s fun t =>
      CoreKept s t [] ∧ BusWritten (getHL s) w (afterRead s (getHL s)) t)

/-- The row PREFIX CB (R102): it executes the row of the CB map that the decoder reads from the two bytes, for each of the
256 second bytes, and completes. -/
def Obligations.PrefixRunsTheCbRow : Prop :=
  ∀ (op2 b3 : Byte) (s : State),
    (encode (.prefixCB op2)).map BitVec.toNat = [0xCB, op2.toNat] ∧
    exec (.prefixCB op2) s = exec (decodeBytes 0xCB op2 b3) s ∧
    ∃ t, exec (.prefixCB op2) s = .next t ∧ t.pc = s.pc ∧ t.sp = s.sp

/-! ## Control transfer -/

/-- JP a16, JP HL, JP cc,a16, JR e8 and JR cc,e8 (R260-R264): only PC changes. -/
def Obligations.Jumps : Prop :=
  ∀ s : State,
    let rest (t : State) : Prop := RegsKept s t [] ∧ t.f = s.f ∧ t.sp = s.sp ∧ Kept s t ∧ BusKept s t
    let relative (e : Byte) (t : State) : Prop := (t.pc.toNat : Int) = ((s.pc.toNat : Int) + e.toInt) % 65536
    (∀ a : Word, Form (.jpA16 a) [0xC3, a.toNat % 256, a.toNat / 256] 16 s fun t => t.pc = a ∧ rest t) ∧
    (Form .jpHl [0xE9] 4 s fun t => t.pc.toNat = hlNat s ∧ rest t) ∧
    (∀ cc (a : Word), Form (.jpCc cc a) [0xC2 + 8 * condNo cc, a.toNat % 256, a.toNat / 256]
      (if condBit s cc then 16 else 12) s fun t => t.pc = (if condBit s cc then a else s.pc) ∧ rest t) ∧
    (∀ e : Byte, Form (.jrE8 e) [0x18, e.toNat] 12 s fun t => relative e t ∧ rest t) ∧
    (∀ cc (e : Byte), Form (.jrCc cc e) [0x20 + 8 * condNo cc, e.toNat] (if condBit s cc then 12 else 8) s fun t =>
      (if condBit s cc then relative e t else t.pc = s.pc) ∧ rest t)

/-- CALL a16, CALL cc,a16 and RST t (R265, R266, R270): the return address is pushed; a call not taken does nothing. -/
def Obligations.Calls : Prop :=
  ∀ s : State,
    let called (a : Word) (t : State) : Prop :=
      t.pc = a ∧ Pushed s.pc s t ∧ RegsKept s t [] ∧ t.f = s.f ∧ Kept s t
    (∀ a : Word, Form (.callA16 a) [0xCD, a.toNat % 256, a.toNat / 256] 24 s (called a)) ∧
    (∀ cc (a : Word), Form (.callCc cc a) [0xC4 + 8 * condNo cc, a.toNat % 256, a.toNat / 256]
      (if condBit s cc then 24 else 12) s fun t =>
        if condBit s cc then called a t else CoreKept s t [] ∧ BusKept s t) ∧
    (∀ t' : Fin 8, Form (.rstT t') [0xC7 + 8 * t'.val] 16 s (called (BitVec.ofNat 16 (8 * t'.val))))

/-- RET, RET cc and RETI (R267-R269): PC is popped; RETI sets IME at once and leaves `ime_pending` alone. -/
def Obligations.Returns : Prop :=
  ∀ s : State,
    let returned (t : State) : Prop :=
      t.pc = popped s ∧ PoppedBus s t ∧ RegsKept s t [] ∧ t.f = s.f ∧ Kept s { t with ime := s.ime }
    (Form .ret [0xC9] 16 s fun t => returned t ∧ t.ime = s.ime) ∧
    (∀ cc, Form (.retCc cc) [0xC0 + 8 * condNo cc] (if condBit s cc then 20 else 8) s fun t =>
      if condBit s cc then returned t ∧ t.ime = s.ime else CoreKept s t [] ∧ BusKept s t) ∧
    (Form .reti [0xD9] 16 s fun t => returned t ∧ t.ime = true)

/-! ## System -/

/-- NOP, DI and EI (R290, R293, R294). -/
def Obligations.NopDiEi : Prop :=
  ∀ s : State,
    let rest (t : State) : Prop :=
      CoreKept s { t with ime := s.ime, imePending := s.imePending } [] ∧ BusKept s t
    (Form .nop [0x00] 4 s fun t => rest t ∧ t.ime = s.ime ∧ t.imePending = s.imePending) ∧
    (Form .di [0xF3] 4 s fun t => rest t ∧ t.ime = false ∧ t.imePending = false) ∧
    (Form .ei [0xFB] 4 s fun t => rest t ∧ t.ime = s.ime ∧ t.imePending = true)

/-- HALT (R291): with IME = 0 and an interrupt pending the core does not halt and the HALT bug is armed; otherwise it
enters HALT mode. -/
def Obligations.HaltEntersOrArmsBug : Prop :=
  ∀ s : State,
    let bug : Prop := s.ime = false ∧ ∃ k : Fin 5, s.iflag.getLsbD k.val = true ∧ s.ie.getLsbD k.val = true
    Form .halt [0x76] 4 s fun t =>
      (bug → t.haltBug = true ∧ t.mode = s.mode) ∧ (¬ bug → t.mode = .halt ∧ t.haltBug = s.haltBug) ∧
      CoreKept s { t with mode := s.mode, haltBug := s.haltBug } [] ∧ BusKept s t

/-- STOP (R292): STOP mode, whatever IME, IF, IE and the second byte hold, with `STOP_SPEED_SWITCH` absent or KEY1 bit 0
clear. With the switch present and KEY1 bit 0 set, the function of KEY1 that D14 leaves open gives the new speed, the new
KEY1, and whether STOP mode is entered or the mode stays; nothing else changes, whatever that function is (log 12). -/
def Obligations.StopEntersStopMode : Prop :=
  ∀ (s : State) (n : Byte),
    (s.params.speedSwitch = false ∨ s.key1.getLsbD 0 = false → Form (.stop n) [0x10, n.toNat] 4 s fun t =>
      t.mode = .stop ∧ CoreKept s { t with mode := s.mode } [] ∧ BusKept s t) ∧
    (s.params.speedSwitch = true → s.key1.getLsbD 0 = true → Form (.stop n) [0x10, n.toNat] 4 s fun t =>
      t.doubleSpeed = (Config.speedSwitch s.key1).doubleSpeed ∧ t.key1 = (Config.speedSwitch s.key1).key1 ∧
      t.mode = (if (Config.speedSwitch s.key1).entersStop then .stop else s.mode) ∧
      CoreKept s { t with mode := s.mode } [] ∧ BusKept s { t with key1 := s.key1, doubleSpeed := s.doubleSpeed })

/-- ILLEGAL (R295, R340): the fault is recorded with the byte and its address, the result is `Fault`, and nothing else
changes. That the raising step answers a next state is the model's (log 2). -/
def Obligations.IllegalRecordsFault : Prop :=
  ∀ (s : State) (op : Byte), op.toNat ∈ [0xD3, 0xDB, 0xDD, 0xE3, 0xE4, 0xEB, 0xEC, 0xED, 0xF4, 0xFC, 0xFD] →
    (∀ b2 b3, decodeBytes op b2 b3 = .illegal op) ∧ (encode (.illegal op)).map BitVec.toNat = [op.toNat] ∧
    ∃ t, exec (.illegal op) s = .next t ∧ t.fault = some { op := op, addr := s.opAddr } ∧ t.result = .fault ∧
      CoreKept s { t with fault := s.fault } [] ∧ BusKept s t

/-! ## The step -/

/-- A step runs the decoded instruction (R310, R102): where a step executes and the bytes at PC, none of them a device's,
decode to `i`, the step is `exec i` with PC past the instruction and `opaddr` noted, and then the EI promotion. -/
def Obligations.StepRunsDecodedInstruction : Prop :=
  ∀ (s : State) (i : Instr) (rest : List Byte),
    Executes s → s.haltBug = false →
    decode [readByte s s.pc, readByte s (s.pc + 1), readByte s (s.pc + 2)] = .ok (i, rest) →
    (∀ k < 3 - rest.length, (busTarget s (s.pc + BitVec.ofNat 16 k)).isFree = false) →
    step s = endInstr s.imePending
      (exec i { s with pc := s.pc + BitVec.ofNat 16 (3 - rest.length), opAddr := s.pc })

/-- The HALT bug (R331, R8, R371): with `halt_bug` set the byte at PC is read twice, as opcode and as the byte after it; PC
ends one lower than without it, and the flag clears. -/
def Obligations.HaltBugReadsTheByteTwice : Prop :=
  ∀ (s : State) (i : Instr) (rest : List Byte),
    Executes s → s.haltBug = true →
    decode [readByte s s.pc, readByte s s.pc, readByte s (s.pc + 1)] = .ok (i, rest) →
    (∀ k < 2, (busTarget s (s.pc + BitVec.ofNat 16 k)).isFree = false) →
    step s = endInstr s.imePending
      (exec i { s with pc := s.pc + BitVec.ofNat 16 (2 - rest.length), opAddr := s.pc, haltBug := false })

/-- Dispatch (R310, R320, R321): with IME = 1 and an interrupt pending, a step pushes PC (PC - 1 after a HALT bug), clears
IME and `ime_pending`, clears the served bit of IF after the push, and jumps to 0x0040 + 8k, in 20 cycles; the source is
the lowest set bit, chosen before the push. -/
def Obligations.StepDispatchesInterrupt : Prop :=
  ∀ (s : State) (k : Fin 5),
    s.fault = none → s.mode = .run → s.ime = true →
    (s.iflag.getLsbD k.val = true ∧ s.ie.getLsbD k.val = true) →
    (∀ j < k, ¬ (s.iflag.getLsbD j.val = true ∧ s.ie.getLsbD j.val = true)) →
    let ret := if s.haltBug then s.pc - 1 else s.pc
    ∃ u t, Pushed ret s u ∧ RegsKept s u [] ∧ u.f = s.f ∧ Kept s { u with haltBug := s.haltBug } ∧
      step s = .next t ∧
      t = { u with
        ime := false, imePending := false, haltBug := false, pc := BitVec.ofNat 16 (0x40 + 8 * k.val)
        iflag := u.iflag &&& ~~~(1#5 <<< k.val), result := .cycles 20 }

/-- The interrupt controller (R312): request sets a bit, pending changes nothing, take_pending clears the bit of highest
priority and no other. -/
def Obligations.InterruptController : Prop :=
  ∀ (s : State),
    (∀ k j : Fin 5, (requestInterrupt k s).iflag.getLsbD j.val = (decide (j = k) || s.iflag.getLsbD j.val)) ∧
    (∀ j : Fin 5, (pending s).getLsbD j.val = (s.iflag.getLsbD j.val && s.ie.getLsbD j.val)) ∧
    (takePending s = (none, s) ↔ pending s = 0) ∧
    (∀ k, (takePending s).1 = some k →
      (pending s).getLsbD k.val = true ∧ (∀ j < k, (pending s).getLsbD j.val = false) ∧
      (∀ j : Fin 5, (takePending s).2.iflag.getLsbD j.val = (decide (j ≠ k) && s.iflag.getLsbD j.val)) ∧
      (takePending s).2.ie = s.ie)

/-- A step in HALT mode (R332, R335): 4 cycles, no bus access, and nothing but `mode` may change; it ends the mode exactly
when an enabled request is flagged, whatever IME holds. -/
def Obligations.HaltModeStep : Prop :=
  ∀ s : State, s.fault = none → s.mode = .halt →
    step s = .next { s with
      mode := if (∃ k : Fin 5, s.iflag.getLsbD k.val = true ∧ s.ie.getLsbD k.val = true) then .run else .halt
      result := .cycles 4 }

/-- A step in STOP mode (R334, R335): 4 cycles, no bus access; only `wake_input` ends the mode, no interrupt does. -/
def Obligations.StopModeStep : Prop :=
  ∀ s : State, s.fault = none → s.mode = .stop →
    step s = .next { s with mode := if s.wakeInput then .run else .stop, result := .cycles 4 } ∧
    ∀ k : Fin 5, ∀ t, s.wakeInput = false → step (requestInterrupt k s) = .next t → t.mode = .stop

/-- The fault is final (R340, R310, R360): a core with a fault recorded takes no step, and no host action but a reset clears
it. -/
def Obligations.FaultIsFinal : Prop :=
  ∀ (s : State) (r : IllegalOpcode), s.fault = some r →
    step s = .fault (.illegalOpcode r.op r.addr) ∧
    (∀ act, (∀ draw, act ≠ .reset draw) → (envAct act s).fault = some r) ∧
    (∀ draw, (envAct (.reset draw) s).fault = none)

/-- The EI delay (R294, R310, R370): an instruction's step that starts with `ime_pending` set and does not clear it ends with
IME = 1; one that starts with it clear ends as the instruction left it, so EI's own step leaves IME as it was. -/
def Obligations.EiDelay : Prop :=
  ∀ (s u : State), Executes s → exec (fetchInstr s).1 (fetchInstr s).2 = .next u →
    (s.imePending = false → step s = .next u) ∧
    (s.imePending = true → u.fault = none → u.imePending = true →
      step s = .next { u with ime := true, imePending := false }) ∧
    (s.imePending = true → u.imePending = false → step s = .next u) ∧
    ((fetchInstr s).1 = .ei → s.imePending = false → ∃ t, step s = .next t ∧ t.ime = s.ime ∧ t.imePending = true)

/-! ## Whole-machine rules -/

/-- The invariant of `Inv` is kept by every step (R22, R32, R317, R331, R340; the canonical form of memory is the
model's). -/
def Obligations.StepKeepsInvariant : Prop := ∀ s t : State, Inv s → step s = .next t → Inv t

/-- `Inv` holds after reset, for every choice of the parameters and of the draw (R360). -/
def Obligations.InvariantAtReset : Prop :=
  Inv State.reset ∧ ∀ (p : Params) (draw : Draw), Inv (State.powerOn p draw)

/-- The host's actions between steps keep `Inv`, and none but reset writes a register, SP, PC, IME, `ime_pending`,
`halt_bug` or `mode` (R355). -/
def Obligations.HostActionsKeepInvariant : Prop :=
  ∀ (s : State) (act : EnvAction), Inv s →
    Inv (envAct act s) ∧
    ((∀ draw, act ≠ .reset draw) →
      RegsKept s (envAct act s) [] ∧ (envAct act s).f = s.f ∧ (envAct act s).sp = s.sp ∧ (envAct act s).pc = s.pc ∧
      (envAct act s).ime = s.ime ∧ (envAct act s).imePending = s.imePending ∧
      (envAct act s).haltBug = s.haltBug ∧ (envAct act s).mode = s.mode ∧ (envAct act s).ie = s.ie)

/-- No rule of the core reads the cycle count a step returned (R383): two states that differ in the last result alone take
the same step. -/
def Obligations.CycleCountIsNotRead : Prop :=
  ∀ (s : State) (r : StepResult), step { s with result := r } = step s

/-- A step completes in every state without a recorded fault: nothing else stops the core (R341). That the step which
raises IllegalOpcode answers a next state, with the fault recorded and the result `Fault` in it, is the model's choice
(log 2): the spec has that step return `Fault` (R310, R340). -/
def Obligations.EveryStepCompletes : Prop := ∀ s : State, s.fault = none → ∃ t, step s = .next t

/-- The modes' transitions (R330): a step leaves RUN only by HALT or STOP, and enters no other mode from HALT or STOP than
RUN. -/
def Obligations.ModeTransitions : Prop :=
  ∀ s t : State, step s = .next t →
    (s.mode = .run → t.mode = .halt → (fetchInstr s).1 = .halt) ∧
    (s.mode = .run → t.mode = .stop → ∃ n, (fetchInstr s).1 = .stop n) ∧
    (s.mode = .halt → t.mode ≠ .stop) ∧ (s.mode = .stop → t.mode ≠ .halt)

/-- A core halted with `IE & 0x1F = 0` stays so (R337, R390): each step costs 4 cycles and changes nothing else, and no host
action but reset ends it. -/
def Obligations.HaltedForGood : Prop :=
  ∀ s : State, runEnd s = some .haltedForGood →
    step s = .next { s with result := .cycles 4 } ∧
    ∀ act, (∀ draw, act ≠ .reset draw) → runEnd (envAct act s) = some .haltedForGood

/-- A core in STOP mode with `wake_input` 0 is stopped (R337, R390): each step costs 4 cycles and changes nothing else, and
no host action but `wake_input` = 1 or a reset ends it. With `wake_input` 1 the run has not ended: the next step wakes
the core (R334). That the level of `wake_input` stands in the state is the model's (log 4). -/
def Obligations.StoppedUntilWoken : Prop :=
  ∀ s : State,
    (runEnd s = some .stopped →
      step s = .next { s with result := .cycles 4 } ∧
      ∀ act, (∀ draw, act ≠ .reset draw) → act ≠ .wake true → runEnd (envAct act s) = some .stopped) ∧
    (s.fault = none → s.mode = .stop → s.wakeInput = true →
      runEnd s = none ∧ step s = .next { s with mode := .run, result := .cycles 4 })

/-! ## The bus, IF and IE, reset -/

/-- A byte written to RAM is read back, at every address that reaches it, and every other byte of RAM and ROM is left alone
(R69, R72; the canonical form of memory is the model's). -/
def Obligations.StoreThenLoad : Prop :=
  ∀ (s : State) (x a : Word) (v : Byte) (n : Nat), Memory.wf s.mem = true → busTarget s x = .ram n →
    (busTarget s a = .ram n → readByte (memWrite s x v) a = v) ∧
    (busTarget s a ≠ .ram n → (busTarget s a).isFree = false → readByte (memWrite s x v) a = readByte s a)

/-- IF and IE as registers of the bus (R31, R32): their upper bits read 1 (IE's only with ONES), a write stores bits 4..0
(all of IE with STORED), on either bus. -/
def Obligations.InterruptRegistersOnTheBus : Prop :=
  ∀ (s : State) (v : Byte),
    (readByte s 0xFF0F).toNat = 0xE0 + s.iflag.toNat ∧
    (memWrite s 0xFF0F v).iflag.toNat = v.toNat % 32 ∧
    (readByte (memWrite s 0xFF0F v) 0xFF0F).toNat = 0xE0 + v.toNat % 32 ∧
    (s.params.ieUpper = .ones →
      (readByte s 0xFFFF).toNat = 0xE0 + s.ie.toNat % 32 ∧
      (readByte (memWrite s 0xFFFF v) 0xFFFF).toNat = 0xE0 + v.toNat % 32) ∧
    (s.params.ieUpper = .stored →
      readByte s 0xFFFF = s.ie ∧ readByte (memWrite s 0xFFFF v) 0xFFFF = v) ∧
    (memWrite s 0xFF0F v).ie = s.ie ∧ (memWrite s 0xFFFF v).iflag = s.iflag

/-- The console's map (R62, R68, R69). Video RAM, cartridge RAM with its latch set, work RAM, OAM and high RAM store and read
the byte at their own address; ROM reads it, but for the boot ROM's bytes, and a write there changes no byte; 0xE000-0xFDFF
is 0xC000-0xDDFF; the unusable region reads 0xFF and ignores writes; a write to cartridge RAM with the latch clear is
ignored, and no read of it changes anything; the I/O registers but IF, KEY1 and 0xFF50 are the devices', through the bus's
own functions (log 6), which also see a write to ROM or to enabled cartridge RAM (log 7). -/
def Obligations.ConsoleMap : Prop :=
  ∀ (s : State) (a : Word) (v : Byte), s.params.bus = .console →
    let plain : Prop := readByte s a = memGet s.mem a.toNat ∧ (memWrite s a v).mem = memSet s.mem a.toNat v
    let seen : Prop := (memWrite s a v).busState = Config.busWrite .console s.busState a v
    (0x8000 ≤ a.toNat → a.toNat < 0xA000 → plain) ∧
    (0xA000 ≤ a.toNat → a.toNat < 0xC000 → s.cartRamEnabled = true → plain ∧ seen) ∧
    (0xC000 ≤ a.toNat → a.toNat < 0xE000 → plain) ∧
    (0xFE00 ≤ a.toNat → a.toNat < 0xFEA0 → plain) ∧
    (0xFF80 ≤ a.toNat → a.toNat < 0xFFFF → plain) ∧
    (a.toNat < 0x8000 → s.bootMapped = false ∨ 0x100 ≤ a.toNat → readByte s a = memGet s.mem a.toNat) ∧
    (a.toNat < 0x8000 → (memWrite s a v).mem = s.mem ∧ seen) ∧
    (0xE000 ≤ a.toNat → a.toNat < 0xFE00 →
      readByte s a = readByte s (a - 0x2000) ∧ memWrite s a v = memWrite s (a - 0x2000) v) ∧
    (0xFEA0 ≤ a.toNat → a.toNat < 0xFF00 → readByte s a = 0xFF ∧ memWrite s a v = s) ∧
    (0xA000 ≤ a.toNat → a.toNat < 0xC000 → s.cartRamEnabled = false → memWrite s a v = s) ∧
    (0xA000 ≤ a.toNat → a.toNat < 0xC000 → afterRead s a = s) ∧
    (0xFF00 ≤ a.toNat → a.toNat < 0xFF80 → a ≠ 0xFF0F → a ≠ 0xFF50 → ¬ (a = 0xFF4D ∧ s.params.speedSwitch = true) →
      memRead s a = ((Config.busRead .console s.busState a).1,
        { s with busState := (Config.busRead .console s.busState a).2 }) ∧
      memWrite s a v = { s with busState := Config.busWrite .console s.busState a v })

/-- The boot ROM overlay (R70): while it is mapped, 0x0000-0x00FF reads the image; the first write of a non-zero value to
0xFF50 unmaps it, no other write and no read maps or unmaps it, and no step maps it again. -/
def Obligations.BootRomOverlay : Prop :=
  ∀ (s : State) (img : Vector Byte 256), s.params.bus = .console → s.params.bootRom = some img →
    (s.bootMapped = true → ∀ n (hn : n < 256), readByte s (BitVec.ofNat 16 n) = img[n]) ∧
    (s.bootMapped = false → ∀ n < 256, readByte s (BitVec.ofNat 16 n) = memGet s.mem n) ∧
    (∀ v : Byte, v ≠ 0 → (memWrite s 0xFF50 v).bootMapped = false) ∧
    ((memWrite s 0xFF50 0).bootMapped = s.bootMapped) ∧
    (∀ (x : Word) (v : Byte), x ≠ 0xFF50 → (memWrite s x v).bootMapped = s.bootMapped) ∧
    (∀ x : Word, (afterRead s x).bootMapped = s.bootMapped) ∧
    (s.bootMapped = false → ∀ t, step s = .next t → t.bootMapped = false)

/-- Reset (R40, R360, R361) for each device and both ways of booting: with a boot ROM A to L, F and SP are the draw, without
one they are the value of `POST_BOOT_REGS`, by default the table; bits 3..0 of F are 0 in each. DEVICE = DMG and no boot
ROM in State.reset is the model's (log 1), and so is that a value of `POST_BOOT_REGS` replaces SP and no row below it
(log 21). -/
def Obligations.ResetValues : Prop :=
  (∀ (p : Params) (draw : Draw),
    let s := State.powerOn p draw
    let regs : List Nat := [s.a, s.f, s.b, s.c, s.d, s.e, s.h, s.l].map BitVec.toNat ++ [s.sp.toNat]
    let given (r : RegValues) : List Nat :=
      [r.a.toNat, r.f.toNat / 16 * 16, r.b.toNat, r.c.toNat, r.d.toNat, r.e.toNat, r.h.toNat, r.l.toNat, r.sp.toNat]
    s.ime = false ∧ s.imePending = false ∧ s.haltBug = false ∧ s.mode = .run ∧ s.fault = none ∧ s.ie = 0 ∧
    (p.bootRom ≠ none → s.pc = 0x0000 ∧ s.iflag = 0 ∧ s.bootMapped = true ∧ regs = given draw.regs) ∧
    (p.bootRom = none → s.pc = 0x0100 ∧ s.iflag = 1 ∧ s.bootMapped = false) ∧
    (∀ r, p.bootRom = none → p.postBoot = some r → regs = given r) ∧
    (p.bootRom = none → p.postBoot = none →
      regs =
        match p.device with
        | .dmg => [0x01, 0xB0, 0x00, 0x13, 0x00, 0xD8, 0x01, 0x4D, 0xFFFE]
        | .cgb => [0x11, 0x80, 0x00, 0x00, 0xFF, 0x56, 0x00, 0x0D, 0xFFFE]
        | .agb => [0x11, 0x00, 0x01, 0x00, 0xFF, 0x56, 0x00, 0x0D, 0xFFFE]
        | .sgb => [0x01, 0x00, 0x00, 0x14, 0x00, 0x00, 0xC0, 0x60, 0xFFFE]
        | .sgb2 => [0xFF, 0x00, 0x00, 0x14, 0x00, 0x00, 0xC0, 0x60, 0xFFFE])) ∧
  (∀ file : List Byte, (loadBootRom file).isSome = true ↔ file.length = 256) ∧
  State.reset = State.powerOn Params.default Draw.zero

/-! ## Encoding -/

/-- Decoding an encoded well-formed instruction gives it back, with the bytes after it left over (R90-R102). -/
def Obligations.DecodeOfEncode : Prop :=
  ∀ (i : Instr) (rest : List Byte), i.WellFormed = true → decode (encode i ++ rest) = .ok (i, rest)

/-- Every three bytes decode to a well-formed instruction whose encoding is their beginning: the length is the first
byte's, and no byte of the instruction is dropped (R98-R102). -/
def Obligations.EncodeOfDecode : Prop :=
  ∀ op b2 b3 : Byte,
    (decodeBytes op b2 b3).WellFormed = true ∧ encode (decodeBytes op b2 b3) = [op, b2, b3].take (lengthOf op)

/-- Words written out from the spec's patterns decode to what they stand for, through the table's numbering of bits. -/
def Obligations.SpecWordsDecode : Prop :=
  decodeTableWord 8 0x41 = some (.ldRR .b .c) ∧ decodeTableWord 16 0x423E = some (.ldRN8 .a 0x42) ∧
  decodeTableWord 24 0xC123FA = some (.ldAA16 0xC123) ∧ decodeTableWord 8 0x8B = some (.adcAR .e) ∧
  decodeTableWord 8 0x29 = some (.addHlRr .hl) ∧ decodeTableWord 16 0x65CB = some (.bitR 4 .l) ∧
  decodeTableWord 24 0x1234DC = some (.callCc .c 0x1234) ∧ decodeTableWord 8 0xFF = some (.rstT 7) ∧
  decodeTableWord 8 0x76 = some .halt ∧ decodeTableWord 8 0xD3 = some (.illegal 0xD3)
end

