-- ==== Sys2Proof/Laws/Memory.lean ====
section
/-!
SUPPORT. The laws of memory: a read after a write, the canonical form is kept, and canonical memories that read alike are
equal.
-/
namespace Sys2Proof.Machine

@[simp] theorem memGet_nil (n : Nat) : memGet [] n = memDefault := rfl

theorem memGet_cons (k : Nat) (w : Byte) (m : Memory) (n : Nat) :
    memGet ((k, w) :: m) n = if k = n then w else memGet m n := rfl

/-- What the canonical form says of a cell and the rest of the list. -/
theorem memWf_cons {k : Nat} {w : Byte} {m : Memory} :
    Memory.wf ((k, w) :: m) = true ↔
      k < 65536 ∧ w ≠ memDefault ∧ (∀ c ∈ m, k < c.1) ∧ Memory.wf m = true := by
  simp [Memory.wf, and_assoc]

/-- An address below every listed one is not listed. -/
theorem memGet_of_lt {m : Memory} {n : Nat} (h : ∀ c ∈ m, n < c.1) : memGet m n = memDefault := by
  induction m with
  | nil => rfl
  | cons c m ih =>
    obtain ⟨k, w⟩ := c
    have hk : n < k := h (k, w) (by simp)
    rw [memGet_cons, if_neg (by omega)]
    exact ih fun c hc => h c (by simp [hc])

theorem memGet_memCons (n : Nat) (v : Byte) (m : Memory) (k : Nat) :
    memGet (memCons n v m) k = if n = k ∧ v ≠ memDefault then v else memGet m k := by
  by_cases hv : v = memDefault <;> simp [memCons, hv, memGet_cons]

/-- A write leaves every other address alone. -/
theorem memGet_memSet_ne (m : Memory) {n k : Nat} (v : Byte) (h : n ≠ k) :
    memGet (memSet m n v) k = memGet m k := by
  induction m with
  | nil => simp [memSet, memGet_memCons, h]
  | cons c m ih =>
    obtain ⟨j, w⟩ := c
    simp only [memSet]
    split
    · simp [memGet_memCons, h]
    · split
      · next hnj => simp [memGet_memCons, h, memGet_cons, show j ≠ k by omega]
      · simp [memGet_cons, ih]

/-- A read after a write to the same address gives the value written. -/
theorem memGet_memSet_same {m : Memory} (hm : Memory.wf m = true) (n : Nat) (v : Byte) :
    memGet (memSet m n v) n = v := by
  induction m with
  | nil => by_cases hv : v = memDefault <;> simp [memSet, memGet_memCons, hv]
  | cons c m ih =>
    obtain ⟨j, w⟩ := c
    obtain ⟨-, -, hlt, hm'⟩ := memWf_cons.1 hm
    simp only [memSet]
    split
    · next hnj =>
      have hd : memGet ((j, w) :: m) n = memDefault :=
        memGet_of_lt fun c hc => by
          rcases List.mem_cons.1 hc with rfl | hc
          · exact hnj
          · exact lt_trans hnj (hlt c hc)
      by_cases hv : v = memDefault <;> simp [memGet_memCons, hv, hd]
    · split
      · next hnj =>
        subst hnj
        by_cases hv : v = memDefault <;> simp [memGet_memCons, hv, memGet_of_lt hlt]
      · next hne => simp [memGet_cons, Ne.symm hne, ih hm']

/-- Every cell of a memory after a write is the one written or an old one. -/
theorem mem_memSet {m : Memory} {n : Nat} {v : Byte} {c : Host.Cell} (hc : c ∈ memSet m n v) : c = (n, v) ∨ c ∈ m := by
  induction m with
  | nil =>
    simp only [memSet, memCons] at hc
    split at hc <;> simp_all
  | cons d m ih =>
    obtain ⟨j, w⟩ := d
    simp only [memSet, memCons] at hc
    split at hc
    · split at hc <;> simp_all
    · split at hc
      · split at hc <;> simp_all
        rcases hc with h | h <;> simp [h]
      · rcases List.mem_cons.1 hc with h | h
        · simp [h]
        · rcases ih h with h | h <;> simp [h]

/-- A write keeps the canonical form. -/
theorem memSet_wf {m : Memory} (hm : Memory.wf m = true) {n : Nat} (hn : n < 65536) (v : Byte) :
    Memory.wf (memSet m n v) = true := by
  induction m with
  | nil => by_cases hv : v = memDefault <;> simp [memSet, memCons, hv, Memory.wf, hn]
  | cons c m ih =>
    obtain ⟨j, w⟩ := c
    obtain ⟨hj, hw, hlt, hm'⟩ := memWf_cons.1 hm
    simp only [memSet]
    split
    · next hnj =>
      by_cases hv : v = memDefault
      · simpa [memCons, hv] using hm
      · simp only [memCons, if_neg hv]
        refine memWf_cons.2 ⟨hn, hv, fun c hc => ?_, hm⟩
        rcases List.mem_cons.1 hc with rfl | hc
        · exact hnj
        · exact lt_trans hnj (hlt c hc)
    · split
      · next hnj =>
        subst hnj
        by_cases hv : v = memDefault
        · simpa [memCons, hv] using hm'
        · simp only [memCons, if_neg hv]
          exact memWf_cons.2 ⟨hn, hv, hlt, hm'⟩
      · refine memWf_cons.2 ⟨hj, hw, fun c hc => ?_, ih hm'⟩
        rcases mem_memSet hc with rfl | hc
        · show j < n; omega
        · exact hlt c hc

/-- A memory made of cells is canonical. -/
theorem memOfCells_wf (cs : List Host.Cell) : Memory.wf (memOfCells cs) = true := by
  induction cs with
  | nil => rfl
  | cons c cs ih => exact memSet_wf ih (Nat.mod_lt _ (by decide)) _

/-- Canonical memories that read alike are equal. -/
theorem memory_ext {m m' : Memory} (hm : Memory.wf m = true) (hm' : Memory.wf m' = true)
    (h : ∀ n, memGet m n = memGet m' n) : m = m' := by
  induction m generalizing m' with
  | nil =>
    cases m' with
    | nil => rfl
    | cons c m' =>
      obtain ⟨k, w⟩ := c
      have := h k
      simp [memGet_cons] at this
      exact absurd this.symm (memWf_cons.1 hm').2.1
  | cons c m ih =>
    obtain ⟨k, w⟩ := c
    obtain ⟨-, hw, hlt, hmt⟩ := memWf_cons.1 hm
    cases m' with
    | nil =>
      have := h k
      simp [memGet_cons] at this
      exact absurd this hw
    | cons c' m' =>
      obtain ⟨k', w'⟩ := c'
      obtain ⟨-, hw', hlt', hmt'⟩ := memWf_cons.1 hm'
      have low : ∀ {x y : Nat} {v : Byte} {r : Memory}, x < y → (∀ c ∈ r, y < c.1) →
          memGet ((y, v) :: r) x = memDefault := fun {x y v r} hxy hr => memGet_of_lt fun c hc => by
        rcases List.mem_cons.1 hc with rfl | hc
        · exact hxy
        · exact lt_trans hxy (hr c hc)
      have hkk : k = k' := by
        rcases lt_trichotomy k k' with hlt1 | heq | hgt
        · have := h k
          rw [low hlt1 hlt'] at this
          simp [memGet_cons] at this
          exact absurd this hw
        · exact heq
        · have := h k'
          rw [low hgt hlt] at this
          simp [memGet_cons] at this
          exact absurd this.symm hw'
      subst hkk
      have hww : w = w' := by simpa [memGet_cons] using h k
      subst hww
      have : m = m' := ih hmt hmt' fun n => by
        by_cases hn : k = n
        · subst hn; rw [memGet_of_lt hlt, memGet_of_lt hlt']
        · simpa [memGet_cons, hn] using h n
      rw [this]

end Sys2Proof.Machine
end

