-- ==== Sys2Proof/Laws/State.lean ====
section
/-!
SUPPORT. What each named update leaves alone: one lemma per field and update, so that no later proof unfolds the update.
-/
namespace Sys2Proof.Machine

@[simp] theorem setR8_f (s : State) (r : Reg8) (v : Byte) : (setR8 s r v).f = s.f := by cases r <;> rfl
@[simp] theorem setR8_sp (s : State) (r : Reg8) (v : Byte) : (setR8 s r v).sp = s.sp := by cases r <;> rfl
@[simp] theorem setR8_pc (s : State) (r : Reg8) (v : Byte) : (setR8 s r v).pc = s.pc := by cases r <;> rfl
@[simp] theorem setR8_ime (s : State) (r : Reg8) (v : Byte) : (setR8 s r v).ime = s.ime := by cases r <;> rfl
@[simp] theorem setR8_imePending (s : State) (r : Reg8) (v : Byte) : (setR8 s r v).imePending = s.imePending := by cases r <;> rfl
@[simp] theorem setR8_mode (s : State) (r : Reg8) (v : Byte) : (setR8 s r v).mode = s.mode := by cases r <;> rfl
@[simp] theorem setR8_haltBug (s : State) (r : Reg8) (v : Byte) : (setR8 s r v).haltBug = s.haltBug := by cases r <;> rfl
@[simp] theorem setR8_fault (s : State) (r : Reg8) (v : Byte) : (setR8 s r v).fault = s.fault := by cases r <;> rfl
@[simp] theorem setR8_iflag (s : State) (r : Reg8) (v : Byte) : (setR8 s r v).iflag = s.iflag := by cases r <;> rfl
@[simp] theorem setR8_ie (s : State) (r : Reg8) (v : Byte) : (setR8 s r v).ie = s.ie := by cases r <;> rfl
@[simp] theorem setR8_mem (s : State) (r : Reg8) (v : Byte) : (setR8 s r v).mem = s.mem := by cases r <;> rfl
@[simp] theorem setR8_bootMapped (s : State) (r : Reg8) (v : Byte) : (setR8 s r v).bootMapped = s.bootMapped := by cases r <;> rfl
@[simp] theorem setR8_cartRamEnabled (s : State) (r : Reg8) (v : Byte) : (setR8 s r v).cartRamEnabled = s.cartRamEnabled := by cases r <;> rfl
@[simp] theorem setR8_key1 (s : State) (r : Reg8) (v : Byte) : (setR8 s r v).key1 = s.key1 := by cases r <;> rfl
@[simp] theorem setR8_doubleSpeed (s : State) (r : Reg8) (v : Byte) : (setR8 s r v).doubleSpeed = s.doubleSpeed := by cases r <;> rfl
@[simp] theorem setR8_busState (s : State) (r : Reg8) (v : Byte) : (setR8 s r v).busState = s.busState := by cases r <;> rfl
@[simp] theorem setR8_wakeInput (s : State) (r : Reg8) (v : Byte) : (setR8 s r v).wakeInput = s.wakeInput := by cases r <;> rfl
@[simp] theorem setR8_result (s : State) (r : Reg8) (v : Byte) : (setR8 s r v).result = s.result := by cases r <;> rfl
@[simp] theorem setR8_opAddr (s : State) (r : Reg8) (v : Byte) : (setR8 s r v).opAddr = s.opAddr := by cases r <;> rfl
@[simp] theorem setR8_params (s : State) (r : Reg8) (v : Byte) : (setR8 s r v).params = s.params := by cases r <;> rfl

@[simp] theorem setBC_a (s : State) (v : Word) : (setBC s v).a = s.a := rfl
@[simp] theorem setBC_f (s : State) (v : Word) : (setBC s v).f = s.f := rfl
@[simp] theorem setBC_d (s : State) (v : Word) : (setBC s v).d = s.d := rfl
@[simp] theorem setBC_e (s : State) (v : Word) : (setBC s v).e = s.e := rfl
@[simp] theorem setBC_h (s : State) (v : Word) : (setBC s v).h = s.h := rfl
@[simp] theorem setBC_l (s : State) (v : Word) : (setBC s v).l = s.l := rfl
@[simp] theorem setBC_sp (s : State) (v : Word) : (setBC s v).sp = s.sp := rfl
@[simp] theorem setBC_pc (s : State) (v : Word) : (setBC s v).pc = s.pc := rfl
@[simp] theorem setBC_ime (s : State) (v : Word) : (setBC s v).ime = s.ime := rfl
@[simp] theorem setBC_imePending (s : State) (v : Word) : (setBC s v).imePending = s.imePending := rfl
@[simp] theorem setBC_mode (s : State) (v : Word) : (setBC s v).mode = s.mode := rfl
@[simp] theorem setBC_haltBug (s : State) (v : Word) : (setBC s v).haltBug = s.haltBug := rfl
@[simp] theorem setBC_fault (s : State) (v : Word) : (setBC s v).fault = s.fault := rfl
@[simp] theorem setBC_iflag (s : State) (v : Word) : (setBC s v).iflag = s.iflag := rfl
@[simp] theorem setBC_ie (s : State) (v : Word) : (setBC s v).ie = s.ie := rfl
@[simp] theorem setBC_mem (s : State) (v : Word) : (setBC s v).mem = s.mem := rfl
@[simp] theorem setBC_bootMapped (s : State) (v : Word) : (setBC s v).bootMapped = s.bootMapped := rfl
@[simp] theorem setBC_cartRamEnabled (s : State) (v : Word) : (setBC s v).cartRamEnabled = s.cartRamEnabled := rfl
@[simp] theorem setBC_key1 (s : State) (v : Word) : (setBC s v).key1 = s.key1 := rfl
@[simp] theorem setBC_doubleSpeed (s : State) (v : Word) : (setBC s v).doubleSpeed = s.doubleSpeed := rfl
@[simp] theorem setBC_busState (s : State) (v : Word) : (setBC s v).busState = s.busState := rfl
@[simp] theorem setBC_wakeInput (s : State) (v : Word) : (setBC s v).wakeInput = s.wakeInput := rfl
@[simp] theorem setBC_result (s : State) (v : Word) : (setBC s v).result = s.result := rfl
@[simp] theorem setBC_opAddr (s : State) (v : Word) : (setBC s v).opAddr = s.opAddr := rfl
@[simp] theorem setBC_params (s : State) (v : Word) : (setBC s v).params = s.params := rfl

@[simp] theorem setDE_a (s : State) (v : Word) : (setDE s v).a = s.a := rfl
@[simp] theorem setDE_f (s : State) (v : Word) : (setDE s v).f = s.f := rfl
@[simp] theorem setDE_b (s : State) (v : Word) : (setDE s v).b = s.b := rfl
@[simp] theorem setDE_c (s : State) (v : Word) : (setDE s v).c = s.c := rfl
@[simp] theorem setDE_h (s : State) (v : Word) : (setDE s v).h = s.h := rfl
@[simp] theorem setDE_l (s : State) (v : Word) : (setDE s v).l = s.l := rfl
@[simp] theorem setDE_sp (s : State) (v : Word) : (setDE s v).sp = s.sp := rfl
@[simp] theorem setDE_pc (s : State) (v : Word) : (setDE s v).pc = s.pc := rfl
@[simp] theorem setDE_ime (s : State) (v : Word) : (setDE s v).ime = s.ime := rfl
@[simp] theorem setDE_imePending (s : State) (v : Word) : (setDE s v).imePending = s.imePending := rfl
@[simp] theorem setDE_mode (s : State) (v : Word) : (setDE s v).mode = s.mode := rfl
@[simp] theorem setDE_haltBug (s : State) (v : Word) : (setDE s v).haltBug = s.haltBug := rfl
@[simp] theorem setDE_fault (s : State) (v : Word) : (setDE s v).fault = s.fault := rfl
@[simp] theorem setDE_iflag (s : State) (v : Word) : (setDE s v).iflag = s.iflag := rfl
@[simp] theorem setDE_ie (s : State) (v : Word) : (setDE s v).ie = s.ie := rfl
@[simp] theorem setDE_mem (s : State) (v : Word) : (setDE s v).mem = s.mem := rfl
@[simp] theorem setDE_bootMapped (s : State) (v : Word) : (setDE s v).bootMapped = s.bootMapped := rfl
@[simp] theorem setDE_cartRamEnabled (s : State) (v : Word) : (setDE s v).cartRamEnabled = s.cartRamEnabled := rfl
@[simp] theorem setDE_key1 (s : State) (v : Word) : (setDE s v).key1 = s.key1 := rfl
@[simp] theorem setDE_doubleSpeed (s : State) (v : Word) : (setDE s v).doubleSpeed = s.doubleSpeed := rfl
@[simp] theorem setDE_busState (s : State) (v : Word) : (setDE s v).busState = s.busState := rfl
@[simp] theorem setDE_wakeInput (s : State) (v : Word) : (setDE s v).wakeInput = s.wakeInput := rfl
@[simp] theorem setDE_result (s : State) (v : Word) : (setDE s v).result = s.result := rfl
@[simp] theorem setDE_opAddr (s : State) (v : Word) : (setDE s v).opAddr = s.opAddr := rfl
@[simp] theorem setDE_params (s : State) (v : Word) : (setDE s v).params = s.params := rfl

@[simp] theorem setHL_a (s : State) (v : Word) : (setHL s v).a = s.a := rfl
@[simp] theorem setHL_f (s : State) (v : Word) : (setHL s v).f = s.f := rfl
@[simp] theorem setHL_b (s : State) (v : Word) : (setHL s v).b = s.b := rfl
@[simp] theorem setHL_c (s : State) (v : Word) : (setHL s v).c = s.c := rfl
@[simp] theorem setHL_d (s : State) (v : Word) : (setHL s v).d = s.d := rfl
@[simp] theorem setHL_e (s : State) (v : Word) : (setHL s v).e = s.e := rfl
@[simp] theorem setHL_sp (s : State) (v : Word) : (setHL s v).sp = s.sp := rfl
@[simp] theorem setHL_pc (s : State) (v : Word) : (setHL s v).pc = s.pc := rfl
@[simp] theorem setHL_ime (s : State) (v : Word) : (setHL s v).ime = s.ime := rfl
@[simp] theorem setHL_imePending (s : State) (v : Word) : (setHL s v).imePending = s.imePending := rfl
@[simp] theorem setHL_mode (s : State) (v : Word) : (setHL s v).mode = s.mode := rfl
@[simp] theorem setHL_haltBug (s : State) (v : Word) : (setHL s v).haltBug = s.haltBug := rfl
@[simp] theorem setHL_fault (s : State) (v : Word) : (setHL s v).fault = s.fault := rfl
@[simp] theorem setHL_iflag (s : State) (v : Word) : (setHL s v).iflag = s.iflag := rfl
@[simp] theorem setHL_ie (s : State) (v : Word) : (setHL s v).ie = s.ie := rfl
@[simp] theorem setHL_mem (s : State) (v : Word) : (setHL s v).mem = s.mem := rfl
@[simp] theorem setHL_bootMapped (s : State) (v : Word) : (setHL s v).bootMapped = s.bootMapped := rfl
@[simp] theorem setHL_cartRamEnabled (s : State) (v : Word) : (setHL s v).cartRamEnabled = s.cartRamEnabled := rfl
@[simp] theorem setHL_key1 (s : State) (v : Word) : (setHL s v).key1 = s.key1 := rfl
@[simp] theorem setHL_doubleSpeed (s : State) (v : Word) : (setHL s v).doubleSpeed = s.doubleSpeed := rfl
@[simp] theorem setHL_busState (s : State) (v : Word) : (setHL s v).busState = s.busState := rfl
@[simp] theorem setHL_wakeInput (s : State) (v : Word) : (setHL s v).wakeInput = s.wakeInput := rfl
@[simp] theorem setHL_result (s : State) (v : Word) : (setHL s v).result = s.result := rfl
@[simp] theorem setHL_opAddr (s : State) (v : Word) : (setHL s v).opAddr = s.opAddr := rfl
@[simp] theorem setHL_params (s : State) (v : Word) : (setHL s v).params = s.params := rfl

@[simp] theorem setAF_b (s : State) (v : Word) : (setAF s v).b = s.b := rfl
@[simp] theorem setAF_c (s : State) (v : Word) : (setAF s v).c = s.c := rfl
@[simp] theorem setAF_d (s : State) (v : Word) : (setAF s v).d = s.d := rfl
@[simp] theorem setAF_e (s : State) (v : Word) : (setAF s v).e = s.e := rfl
@[simp] theorem setAF_h (s : State) (v : Word) : (setAF s v).h = s.h := rfl
@[simp] theorem setAF_l (s : State) (v : Word) : (setAF s v).l = s.l := rfl
@[simp] theorem setAF_sp (s : State) (v : Word) : (setAF s v).sp = s.sp := rfl
@[simp] theorem setAF_pc (s : State) (v : Word) : (setAF s v).pc = s.pc := rfl
@[simp] theorem setAF_ime (s : State) (v : Word) : (setAF s v).ime = s.ime := rfl
@[simp] theorem setAF_imePending (s : State) (v : Word) : (setAF s v).imePending = s.imePending := rfl
@[simp] theorem setAF_mode (s : State) (v : Word) : (setAF s v).mode = s.mode := rfl
@[simp] theorem setAF_haltBug (s : State) (v : Word) : (setAF s v).haltBug = s.haltBug := rfl
@[simp] theorem setAF_fault (s : State) (v : Word) : (setAF s v).fault = s.fault := rfl
@[simp] theorem setAF_iflag (s : State) (v : Word) : (setAF s v).iflag = s.iflag := rfl
@[simp] theorem setAF_ie (s : State) (v : Word) : (setAF s v).ie = s.ie := rfl
@[simp] theorem setAF_mem (s : State) (v : Word) : (setAF s v).mem = s.mem := rfl
@[simp] theorem setAF_bootMapped (s : State) (v : Word) : (setAF s v).bootMapped = s.bootMapped := rfl
@[simp] theorem setAF_cartRamEnabled (s : State) (v : Word) : (setAF s v).cartRamEnabled = s.cartRamEnabled := rfl
@[simp] theorem setAF_key1 (s : State) (v : Word) : (setAF s v).key1 = s.key1 := rfl
@[simp] theorem setAF_doubleSpeed (s : State) (v : Word) : (setAF s v).doubleSpeed = s.doubleSpeed := rfl
@[simp] theorem setAF_busState (s : State) (v : Word) : (setAF s v).busState = s.busState := rfl
@[simp] theorem setAF_wakeInput (s : State) (v : Word) : (setAF s v).wakeInput = s.wakeInput := rfl
@[simp] theorem setAF_result (s : State) (v : Word) : (setAF s v).result = s.result := rfl
@[simp] theorem setAF_opAddr (s : State) (v : Word) : (setAF s v).opAddr = s.opAddr := rfl
@[simp] theorem setAF_params (s : State) (v : Word) : (setAF s v).params = s.params := rfl

@[simp] theorem setPairSp_a (s : State) (p : PairSp) (v : Word) : (setPairSp s p v).a = s.a := by cases p <;> rfl
@[simp] theorem setPairSp_f (s : State) (p : PairSp) (v : Word) : (setPairSp s p v).f = s.f := by cases p <;> rfl
@[simp] theorem setPairSp_pc (s : State) (p : PairSp) (v : Word) : (setPairSp s p v).pc = s.pc := by cases p <;> rfl
@[simp] theorem setPairSp_ime (s : State) (p : PairSp) (v : Word) : (setPairSp s p v).ime = s.ime := by cases p <;> rfl
@[simp] theorem setPairSp_imePending (s : State) (p : PairSp) (v : Word) : (setPairSp s p v).imePending = s.imePending := by cases p <;> rfl
@[simp] theorem setPairSp_mode (s : State) (p : PairSp) (v : Word) : (setPairSp s p v).mode = s.mode := by cases p <;> rfl
@[simp] theorem setPairSp_haltBug (s : State) (p : PairSp) (v : Word) : (setPairSp s p v).haltBug = s.haltBug := by cases p <;> rfl
@[simp] theorem setPairSp_fault (s : State) (p : PairSp) (v : Word) : (setPairSp s p v).fault = s.fault := by cases p <;> rfl
@[simp] theorem setPairSp_iflag (s : State) (p : PairSp) (v : Word) : (setPairSp s p v).iflag = s.iflag := by cases p <;> rfl
@[simp] theorem setPairSp_ie (s : State) (p : PairSp) (v : Word) : (setPairSp s p v).ie = s.ie := by cases p <;> rfl
@[simp] theorem setPairSp_mem (s : State) (p : PairSp) (v : Word) : (setPairSp s p v).mem = s.mem := by cases p <;> rfl
@[simp] theorem setPairSp_bootMapped (s : State) (p : PairSp) (v : Word) : (setPairSp s p v).bootMapped = s.bootMapped := by cases p <;> rfl
@[simp] theorem setPairSp_cartRamEnabled (s : State) (p : PairSp) (v : Word) : (setPairSp s p v).cartRamEnabled = s.cartRamEnabled := by cases p <;> rfl
@[simp] theorem setPairSp_key1 (s : State) (p : PairSp) (v : Word) : (setPairSp s p v).key1 = s.key1 := by cases p <;> rfl
@[simp] theorem setPairSp_doubleSpeed (s : State) (p : PairSp) (v : Word) : (setPairSp s p v).doubleSpeed = s.doubleSpeed := by cases p <;> rfl
@[simp] theorem setPairSp_busState (s : State) (p : PairSp) (v : Word) : (setPairSp s p v).busState = s.busState := by cases p <;> rfl
@[simp] theorem setPairSp_wakeInput (s : State) (p : PairSp) (v : Word) : (setPairSp s p v).wakeInput = s.wakeInput := by cases p <;> rfl
@[simp] theorem setPairSp_result (s : State) (p : PairSp) (v : Word) : (setPairSp s p v).result = s.result := by cases p <;> rfl
@[simp] theorem setPairSp_opAddr (s : State) (p : PairSp) (v : Word) : (setPairSp s p v).opAddr = s.opAddr := by cases p <;> rfl
@[simp] theorem setPairSp_params (s : State) (p : PairSp) (v : Word) : (setPairSp s p v).params = s.params := by cases p <;> rfl

@[simp] theorem setPairAf_sp (s : State) (p : PairAf) (v : Word) : (setPairAf s p v).sp = s.sp := by cases p <;> rfl
@[simp] theorem setPairAf_pc (s : State) (p : PairAf) (v : Word) : (setPairAf s p v).pc = s.pc := by cases p <;> rfl
@[simp] theorem setPairAf_ime (s : State) (p : PairAf) (v : Word) : (setPairAf s p v).ime = s.ime := by cases p <;> rfl
@[simp] theorem setPairAf_imePending (s : State) (p : PairAf) (v : Word) : (setPairAf s p v).imePending = s.imePending := by cases p <;> rfl
@[simp] theorem setPairAf_mode (s : State) (p : PairAf) (v : Word) : (setPairAf s p v).mode = s.mode := by cases p <;> rfl
@[simp] theorem setPairAf_haltBug (s : State) (p : PairAf) (v : Word) : (setPairAf s p v).haltBug = s.haltBug := by cases p <;> rfl
@[simp] theorem setPairAf_fault (s : State) (p : PairAf) (v : Word) : (setPairAf s p v).fault = s.fault := by cases p <;> rfl
@[simp] theorem setPairAf_iflag (s : State) (p : PairAf) (v : Word) : (setPairAf s p v).iflag = s.iflag := by cases p <;> rfl
@[simp] theorem setPairAf_ie (s : State) (p : PairAf) (v : Word) : (setPairAf s p v).ie = s.ie := by cases p <;> rfl
@[simp] theorem setPairAf_mem (s : State) (p : PairAf) (v : Word) : (setPairAf s p v).mem = s.mem := by cases p <;> rfl
@[simp] theorem setPairAf_bootMapped (s : State) (p : PairAf) (v : Word) : (setPairAf s p v).bootMapped = s.bootMapped := by cases p <;> rfl
@[simp] theorem setPairAf_cartRamEnabled (s : State) (p : PairAf) (v : Word) : (setPairAf s p v).cartRamEnabled = s.cartRamEnabled := by cases p <;> rfl
@[simp] theorem setPairAf_key1 (s : State) (p : PairAf) (v : Word) : (setPairAf s p v).key1 = s.key1 := by cases p <;> rfl
@[simp] theorem setPairAf_doubleSpeed (s : State) (p : PairAf) (v : Word) : (setPairAf s p v).doubleSpeed = s.doubleSpeed := by cases p <;> rfl
@[simp] theorem setPairAf_busState (s : State) (p : PairAf) (v : Word) : (setPairAf s p v).busState = s.busState := by cases p <;> rfl
@[simp] theorem setPairAf_wakeInput (s : State) (p : PairAf) (v : Word) : (setPairAf s p v).wakeInput = s.wakeInput := by cases p <;> rfl
@[simp] theorem setPairAf_result (s : State) (p : PairAf) (v : Word) : (setPairAf s p v).result = s.result := by cases p <;> rfl
@[simp] theorem setPairAf_opAddr (s : State) (p : PairAf) (v : Word) : (setPairAf s p v).opAddr = s.opAddr := by cases p <;> rfl
@[simp] theorem setPairAf_params (s : State) (p : PairAf) (v : Word) : (setPairAf s p v).params = s.params := by cases p <;> rfl

@[simp] theorem setZNHC_a (s : State) (z n h c : Option Bool) : (setZNHC s z n h c).a = s.a := rfl
@[simp] theorem setZNHC_b (s : State) (z n h c : Option Bool) : (setZNHC s z n h c).b = s.b := rfl
@[simp] theorem setZNHC_c (s : State) (z n h c : Option Bool) : (setZNHC s z n h c).c = s.c := rfl
@[simp] theorem setZNHC_d (s : State) (z n h c : Option Bool) : (setZNHC s z n h c).d = s.d := rfl
@[simp] theorem setZNHC_e (s : State) (z n h c : Option Bool) : (setZNHC s z n h c).e = s.e := rfl
@[simp] theorem setZNHC_h (s : State) (z n h c : Option Bool) : (setZNHC s z n h c).h = s.h := rfl
@[simp] theorem setZNHC_l (s : State) (z n h c : Option Bool) : (setZNHC s z n h c).l = s.l := rfl
@[simp] theorem setZNHC_sp (s : State) (z n h c : Option Bool) : (setZNHC s z n h c).sp = s.sp := rfl
@[simp] theorem setZNHC_pc (s : State) (z n h c : Option Bool) : (setZNHC s z n h c).pc = s.pc := rfl
@[simp] theorem setZNHC_ime (s : State) (z n h c : Option Bool) : (setZNHC s z n h c).ime = s.ime := rfl
@[simp] theorem setZNHC_imePending (s : State) (z n h c : Option Bool) : (setZNHC s z n h c).imePending = s.imePending := rfl
@[simp] theorem setZNHC_mode (s : State) (z n h c : Option Bool) : (setZNHC s z n h c).mode = s.mode := rfl
@[simp] theorem setZNHC_haltBug (s : State) (z n h c : Option Bool) : (setZNHC s z n h c).haltBug = s.haltBug := rfl
@[simp] theorem setZNHC_fault (s : State) (z n h c : Option Bool) : (setZNHC s z n h c).fault = s.fault := rfl
@[simp] theorem setZNHC_iflag (s : State) (z n h c : Option Bool) : (setZNHC s z n h c).iflag = s.iflag := rfl
@[simp] theorem setZNHC_ie (s : State) (z n h c : Option Bool) : (setZNHC s z n h c).ie = s.ie := rfl
@[simp] theorem setZNHC_mem (s : State) (z n h c : Option Bool) : (setZNHC s z n h c).mem = s.mem := rfl
@[simp] theorem setZNHC_bootMapped (s : State) (z n h c : Option Bool) : (setZNHC s z n h c).bootMapped = s.bootMapped := rfl
@[simp] theorem setZNHC_cartRamEnabled (s : State) (z n h c : Option Bool) : (setZNHC s z n h c).cartRamEnabled = s.cartRamEnabled := rfl
@[simp] theorem setZNHC_key1 (s : State) (z n h c : Option Bool) : (setZNHC s z n h c).key1 = s.key1 := rfl
@[simp] theorem setZNHC_doubleSpeed (s : State) (z n h c : Option Bool) : (setZNHC s z n h c).doubleSpeed = s.doubleSpeed := rfl
@[simp] theorem setZNHC_busState (s : State) (z n h c : Option Bool) : (setZNHC s z n h c).busState = s.busState := rfl
@[simp] theorem setZNHC_wakeInput (s : State) (z n h c : Option Bool) : (setZNHC s z n h c).wakeInput = s.wakeInput := rfl
@[simp] theorem setZNHC_result (s : State) (z n h c : Option Bool) : (setZNHC s z n h c).result = s.result := rfl
@[simp] theorem setZNHC_opAddr (s : State) (z n h c : Option Bool) : (setZNHC s z n h c).opAddr = s.opAddr := rfl
@[simp] theorem setZNHC_params (s : State) (z n h c : Option Bool) : (setZNHC s z n h c).params = s.params := rfl

@[simp] theorem aluExec_b (op : AluOp) (v : Byte) (s : State) : (aluExec op v s).b = s.b := by cases op <;> rfl
@[simp] theorem aluExec_c (op : AluOp) (v : Byte) (s : State) : (aluExec op v s).c = s.c := by cases op <;> rfl
@[simp] theorem aluExec_d (op : AluOp) (v : Byte) (s : State) : (aluExec op v s).d = s.d := by cases op <;> rfl
@[simp] theorem aluExec_e (op : AluOp) (v : Byte) (s : State) : (aluExec op v s).e = s.e := by cases op <;> rfl
@[simp] theorem aluExec_h (op : AluOp) (v : Byte) (s : State) : (aluExec op v s).h = s.h := by cases op <;> rfl
@[simp] theorem aluExec_l (op : AluOp) (v : Byte) (s : State) : (aluExec op v s).l = s.l := by cases op <;> rfl
@[simp] theorem aluExec_sp (op : AluOp) (v : Byte) (s : State) : (aluExec op v s).sp = s.sp := by cases op <;> rfl
@[simp] theorem aluExec_pc (op : AluOp) (v : Byte) (s : State) : (aluExec op v s).pc = s.pc := by cases op <;> rfl
@[simp] theorem aluExec_ime (op : AluOp) (v : Byte) (s : State) : (aluExec op v s).ime = s.ime := by cases op <;> rfl
@[simp] theorem aluExec_imePending (op : AluOp) (v : Byte) (s : State) : (aluExec op v s).imePending = s.imePending := by cases op <;> rfl
@[simp] theorem aluExec_mode (op : AluOp) (v : Byte) (s : State) : (aluExec op v s).mode = s.mode := by cases op <;> rfl
@[simp] theorem aluExec_haltBug (op : AluOp) (v : Byte) (s : State) : (aluExec op v s).haltBug = s.haltBug := by cases op <;> rfl
@[simp] theorem aluExec_fault (op : AluOp) (v : Byte) (s : State) : (aluExec op v s).fault = s.fault := by cases op <;> rfl
@[simp] theorem aluExec_iflag (op : AluOp) (v : Byte) (s : State) : (aluExec op v s).iflag = s.iflag := by cases op <;> rfl
@[simp] theorem aluExec_ie (op : AluOp) (v : Byte) (s : State) : (aluExec op v s).ie = s.ie := by cases op <;> rfl
@[simp] theorem aluExec_mem (op : AluOp) (v : Byte) (s : State) : (aluExec op v s).mem = s.mem := by cases op <;> rfl
@[simp] theorem aluExec_bootMapped (op : AluOp) (v : Byte) (s : State) : (aluExec op v s).bootMapped = s.bootMapped := by cases op <;> rfl
@[simp] theorem aluExec_cartRamEnabled (op : AluOp) (v : Byte) (s : State) : (aluExec op v s).cartRamEnabled = s.cartRamEnabled := by cases op <;> rfl
@[simp] theorem aluExec_key1 (op : AluOp) (v : Byte) (s : State) : (aluExec op v s).key1 = s.key1 := by cases op <;> rfl
@[simp] theorem aluExec_doubleSpeed (op : AluOp) (v : Byte) (s : State) : (aluExec op v s).doubleSpeed = s.doubleSpeed := by cases op <;> rfl
@[simp] theorem aluExec_busState (op : AluOp) (v : Byte) (s : State) : (aluExec op v s).busState = s.busState := by cases op <;> rfl
@[simp] theorem aluExec_wakeInput (op : AluOp) (v : Byte) (s : State) : (aluExec op v s).wakeInput = s.wakeInput := by cases op <;> rfl
@[simp] theorem aluExec_result (op : AluOp) (v : Byte) (s : State) : (aluExec op v s).result = s.result := by cases op <;> rfl
@[simp] theorem aluExec_opAddr (op : AluOp) (v : Byte) (s : State) : (aluExec op v s).opAddr = s.opAddr := by cases op <;> rfl
@[simp] theorem aluExec_params (op : AluOp) (v : Byte) (s : State) : (aluExec op v s).params = s.params := by cases op <;> rfl

@[simp] theorem bitTest_a (k : Fin 8) (v : Byte) (s : State) : (bitTest k v s).a = s.a := rfl
@[simp] theorem bitTest_b (k : Fin 8) (v : Byte) (s : State) : (bitTest k v s).b = s.b := rfl
@[simp] theorem bitTest_c (k : Fin 8) (v : Byte) (s : State) : (bitTest k v s).c = s.c := rfl
@[simp] theorem bitTest_d (k : Fin 8) (v : Byte) (s : State) : (bitTest k v s).d = s.d := rfl
@[simp] theorem bitTest_e (k : Fin 8) (v : Byte) (s : State) : (bitTest k v s).e = s.e := rfl
@[simp] theorem bitTest_h (k : Fin 8) (v : Byte) (s : State) : (bitTest k v s).h = s.h := rfl
@[simp] theorem bitTest_l (k : Fin 8) (v : Byte) (s : State) : (bitTest k v s).l = s.l := rfl
@[simp] theorem bitTest_sp (k : Fin 8) (v : Byte) (s : State) : (bitTest k v s).sp = s.sp := rfl
@[simp] theorem bitTest_pc (k : Fin 8) (v : Byte) (s : State) : (bitTest k v s).pc = s.pc := rfl
@[simp] theorem bitTest_ime (k : Fin 8) (v : Byte) (s : State) : (bitTest k v s).ime = s.ime := rfl
@[simp] theorem bitTest_imePending (k : Fin 8) (v : Byte) (s : State) : (bitTest k v s).imePending = s.imePending := rfl
@[simp] theorem bitTest_mode (k : Fin 8) (v : Byte) (s : State) : (bitTest k v s).mode = s.mode := rfl
@[simp] theorem bitTest_haltBug (k : Fin 8) (v : Byte) (s : State) : (bitTest k v s).haltBug = s.haltBug := rfl
@[simp] theorem bitTest_fault (k : Fin 8) (v : Byte) (s : State) : (bitTest k v s).fault = s.fault := rfl
@[simp] theorem bitTest_iflag (k : Fin 8) (v : Byte) (s : State) : (bitTest k v s).iflag = s.iflag := rfl
@[simp] theorem bitTest_ie (k : Fin 8) (v : Byte) (s : State) : (bitTest k v s).ie = s.ie := rfl
@[simp] theorem bitTest_mem (k : Fin 8) (v : Byte) (s : State) : (bitTest k v s).mem = s.mem := rfl
@[simp] theorem bitTest_bootMapped (k : Fin 8) (v : Byte) (s : State) : (bitTest k v s).bootMapped = s.bootMapped := rfl
@[simp] theorem bitTest_cartRamEnabled (k : Fin 8) (v : Byte) (s : State) : (bitTest k v s).cartRamEnabled = s.cartRamEnabled := rfl
@[simp] theorem bitTest_key1 (k : Fin 8) (v : Byte) (s : State) : (bitTest k v s).key1 = s.key1 := rfl
@[simp] theorem bitTest_doubleSpeed (k : Fin 8) (v : Byte) (s : State) : (bitTest k v s).doubleSpeed = s.doubleSpeed := rfl
@[simp] theorem bitTest_busState (k : Fin 8) (v : Byte) (s : State) : (bitTest k v s).busState = s.busState := rfl
@[simp] theorem bitTest_wakeInput (k : Fin 8) (v : Byte) (s : State) : (bitTest k v s).wakeInput = s.wakeInput := rfl
@[simp] theorem bitTest_result (k : Fin 8) (v : Byte) (s : State) : (bitTest k v s).result = s.result := rfl
@[simp] theorem bitTest_opAddr (k : Fin 8) (v : Byte) (s : State) : (bitTest k v s).opAddr = s.opAddr := rfl
@[simp] theorem bitTest_params (k : Fin 8) (v : Byte) (s : State) : (bitTest k v s).params = s.params := rfl

@[simp] theorem setSpOffsetFlags_a (v : Word) (e : Byte) (s : State) : (setSpOffsetFlags v e s).a = s.a := rfl
@[simp] theorem setSpOffsetFlags_b (v : Word) (e : Byte) (s : State) : (setSpOffsetFlags v e s).b = s.b := rfl
@[simp] theorem setSpOffsetFlags_c (v : Word) (e : Byte) (s : State) : (setSpOffsetFlags v e s).c = s.c := rfl
@[simp] theorem setSpOffsetFlags_d (v : Word) (e : Byte) (s : State) : (setSpOffsetFlags v e s).d = s.d := rfl
@[simp] theorem setSpOffsetFlags_e (v : Word) (e : Byte) (s : State) : (setSpOffsetFlags v e s).e = s.e := rfl
@[simp] theorem setSpOffsetFlags_h (v : Word) (e : Byte) (s : State) : (setSpOffsetFlags v e s).h = s.h := rfl
@[simp] theorem setSpOffsetFlags_l (v : Word) (e : Byte) (s : State) : (setSpOffsetFlags v e s).l = s.l := rfl
@[simp] theorem setSpOffsetFlags_sp (v : Word) (e : Byte) (s : State) : (setSpOffsetFlags v e s).sp = s.sp := rfl
@[simp] theorem setSpOffsetFlags_pc (v : Word) (e : Byte) (s : State) : (setSpOffsetFlags v e s).pc = s.pc := rfl
@[simp] theorem setSpOffsetFlags_ime (v : Word) (e : Byte) (s : State) : (setSpOffsetFlags v e s).ime = s.ime := rfl
@[simp] theorem setSpOffsetFlags_imePending (v : Word) (e : Byte) (s : State) : (setSpOffsetFlags v e s).imePending = s.imePending := rfl
@[simp] theorem setSpOffsetFlags_mode (v : Word) (e : Byte) (s : State) : (setSpOffsetFlags v e s).mode = s.mode := rfl
@[simp] theorem setSpOffsetFlags_haltBug (v : Word) (e : Byte) (s : State) : (setSpOffsetFlags v e s).haltBug = s.haltBug := rfl
@[simp] theorem setSpOffsetFlags_fault (v : Word) (e : Byte) (s : State) : (setSpOffsetFlags v e s).fault = s.fault := rfl
@[simp] theorem setSpOffsetFlags_iflag (v : Word) (e : Byte) (s : State) : (setSpOffsetFlags v e s).iflag = s.iflag := rfl
@[simp] theorem setSpOffsetFlags_ie (v : Word) (e : Byte) (s : State) : (setSpOffsetFlags v e s).ie = s.ie := rfl
@[simp] theorem setSpOffsetFlags_mem (v : Word) (e : Byte) (s : State) : (setSpOffsetFlags v e s).mem = s.mem := rfl
@[simp] theorem setSpOffsetFlags_bootMapped (v : Word) (e : Byte) (s : State) : (setSpOffsetFlags v e s).bootMapped = s.bootMapped := rfl
@[simp] theorem setSpOffsetFlags_cartRamEnabled (v : Word) (e : Byte) (s : State) : (setSpOffsetFlags v e s).cartRamEnabled = s.cartRamEnabled := rfl
@[simp] theorem setSpOffsetFlags_key1 (v : Word) (e : Byte) (s : State) : (setSpOffsetFlags v e s).key1 = s.key1 := rfl
@[simp] theorem setSpOffsetFlags_doubleSpeed (v : Word) (e : Byte) (s : State) : (setSpOffsetFlags v e s).doubleSpeed = s.doubleSpeed := rfl
@[simp] theorem setSpOffsetFlags_busState (v : Word) (e : Byte) (s : State) : (setSpOffsetFlags v e s).busState = s.busState := rfl
@[simp] theorem setSpOffsetFlags_wakeInput (v : Word) (e : Byte) (s : State) : (setSpOffsetFlags v e s).wakeInput = s.wakeInput := rfl
@[simp] theorem setSpOffsetFlags_result (v : Word) (e : Byte) (s : State) : (setSpOffsetFlags v e s).result = s.result := rfl
@[simp] theorem setSpOffsetFlags_opAddr (v : Word) (e : Byte) (s : State) : (setSpOffsetFlags v e s).opAddr = s.opAddr := rfl
@[simp] theorem setSpOffsetFlags_params (v : Word) (e : Byte) (s : State) : (setSpOffsetFlags v e s).params = s.params := rfl

@[simp] theorem afterRead_a (s : State) (x : Word) : (afterRead s x).a = s.a := by unfold afterRead; split <;> rfl
@[simp] theorem afterRead_f (s : State) (x : Word) : (afterRead s x).f = s.f := by unfold afterRead; split <;> rfl
@[simp] theorem afterRead_b (s : State) (x : Word) : (afterRead s x).b = s.b := by unfold afterRead; split <;> rfl
@[simp] theorem afterRead_c (s : State) (x : Word) : (afterRead s x).c = s.c := by unfold afterRead; split <;> rfl
@[simp] theorem afterRead_d (s : State) (x : Word) : (afterRead s x).d = s.d := by unfold afterRead; split <;> rfl
@[simp] theorem afterRead_e (s : State) (x : Word) : (afterRead s x).e = s.e := by unfold afterRead; split <;> rfl
@[simp] theorem afterRead_h (s : State) (x : Word) : (afterRead s x).h = s.h := by unfold afterRead; split <;> rfl
@[simp] theorem afterRead_l (s : State) (x : Word) : (afterRead s x).l = s.l := by unfold afterRead; split <;> rfl
@[simp] theorem afterRead_sp (s : State) (x : Word) : (afterRead s x).sp = s.sp := by unfold afterRead; split <;> rfl
@[simp] theorem afterRead_pc (s : State) (x : Word) : (afterRead s x).pc = s.pc := by unfold afterRead; split <;> rfl
@[simp] theorem afterRead_ime (s : State) (x : Word) : (afterRead s x).ime = s.ime := by unfold afterRead; split <;> rfl
@[simp] theorem afterRead_imePending (s : State) (x : Word) : (afterRead s x).imePending = s.imePending := by unfold afterRead; split <;> rfl
@[simp] theorem afterRead_mode (s : State) (x : Word) : (afterRead s x).mode = s.mode := by unfold afterRead; split <;> rfl
@[simp] theorem afterRead_haltBug (s : State) (x : Word) : (afterRead s x).haltBug = s.haltBug := by unfold afterRead; split <;> rfl
@[simp] theorem afterRead_fault (s : State) (x : Word) : (afterRead s x).fault = s.fault := by unfold afterRead; split <;> rfl
@[simp] theorem afterRead_iflag (s : State) (x : Word) : (afterRead s x).iflag = s.iflag := by unfold afterRead; split <;> rfl
@[simp] theorem afterRead_ie (s : State) (x : Word) : (afterRead s x).ie = s.ie := by unfold afterRead; split <;> rfl
@[simp] theorem afterRead_mem (s : State) (x : Word) : (afterRead s x).mem = s.mem := by unfold afterRead; split <;> rfl
@[simp] theorem afterRead_bootMapped (s : State) (x : Word) : (afterRead s x).bootMapped = s.bootMapped := by unfold afterRead; split <;> rfl
@[simp] theorem afterRead_cartRamEnabled (s : State) (x : Word) : (afterRead s x).cartRamEnabled = s.cartRamEnabled := by unfold afterRead; split <;> rfl
@[simp] theorem afterRead_key1 (s : State) (x : Word) : (afterRead s x).key1 = s.key1 := by unfold afterRead; split <;> rfl
@[simp] theorem afterRead_doubleSpeed (s : State) (x : Word) : (afterRead s x).doubleSpeed = s.doubleSpeed := by unfold afterRead; split <;> rfl
@[simp] theorem afterRead_wakeInput (s : State) (x : Word) : (afterRead s x).wakeInput = s.wakeInput := by unfold afterRead; split <;> rfl
@[simp] theorem afterRead_result (s : State) (x : Word) : (afterRead s x).result = s.result := by unfold afterRead; split <;> rfl
@[simp] theorem afterRead_opAddr (s : State) (x : Word) : (afterRead s x).opAddr = s.opAddr := by unfold afterRead; split <;> rfl
@[simp] theorem afterRead_params (s : State) (x : Word) : (afterRead s x).params = s.params := by unfold afterRead; split <;> rfl

@[simp] theorem storeByte_a (s : State) (x : Word) (v : Byte) : (storeByte s x v).a = s.a := by unfold storeByte; split <;> first | rfl | (unfold writeIe; split <;> rfl)
@[simp] theorem storeByte_f (s : State) (x : Word) (v : Byte) : (storeByte s x v).f = s.f := by unfold storeByte; split <;> first | rfl | (unfold writeIe; split <;> rfl)
@[simp] theorem storeByte_b (s : State) (x : Word) (v : Byte) : (storeByte s x v).b = s.b := by unfold storeByte; split <;> first | rfl | (unfold writeIe; split <;> rfl)
@[simp] theorem storeByte_c (s : State) (x : Word) (v : Byte) : (storeByte s x v).c = s.c := by unfold storeByte; split <;> first | rfl | (unfold writeIe; split <;> rfl)
@[simp] theorem storeByte_d (s : State) (x : Word) (v : Byte) : (storeByte s x v).d = s.d := by unfold storeByte; split <;> first | rfl | (unfold writeIe; split <;> rfl)
@[simp] theorem storeByte_e (s : State) (x : Word) (v : Byte) : (storeByte s x v).e = s.e := by unfold storeByte; split <;> first | rfl | (unfold writeIe; split <;> rfl)
@[simp] theorem storeByte_h (s : State) (x : Word) (v : Byte) : (storeByte s x v).h = s.h := by unfold storeByte; split <;> first | rfl | (unfold writeIe; split <;> rfl)
@[simp] theorem storeByte_l (s : State) (x : Word) (v : Byte) : (storeByte s x v).l = s.l := by unfold storeByte; split <;> first | rfl | (unfold writeIe; split <;> rfl)
@[simp] theorem storeByte_sp (s : State) (x : Word) (v : Byte) : (storeByte s x v).sp = s.sp := by unfold storeByte; split <;> first | rfl | (unfold writeIe; split <;> rfl)
@[simp] theorem storeByte_pc (s : State) (x : Word) (v : Byte) : (storeByte s x v).pc = s.pc := by unfold storeByte; split <;> first | rfl | (unfold writeIe; split <;> rfl)
@[simp] theorem storeByte_ime (s : State) (x : Word) (v : Byte) : (storeByte s x v).ime = s.ime := by unfold storeByte; split <;> first | rfl | (unfold writeIe; split <;> rfl)
@[simp] theorem storeByte_imePending (s : State) (x : Word) (v : Byte) : (storeByte s x v).imePending = s.imePending := by unfold storeByte; split <;> first | rfl | (unfold writeIe; split <;> rfl)
@[simp] theorem storeByte_mode (s : State) (x : Word) (v : Byte) : (storeByte s x v).mode = s.mode := by unfold storeByte; split <;> first | rfl | (unfold writeIe; split <;> rfl)
@[simp] theorem storeByte_haltBug (s : State) (x : Word) (v : Byte) : (storeByte s x v).haltBug = s.haltBug := by unfold storeByte; split <;> first | rfl | (unfold writeIe; split <;> rfl)
@[simp] theorem storeByte_fault (s : State) (x : Word) (v : Byte) : (storeByte s x v).fault = s.fault := by unfold storeByte; split <;> first | rfl | (unfold writeIe; split <;> rfl)
@[simp] theorem storeByte_cartRamEnabled (s : State) (x : Word) (v : Byte) : (storeByte s x v).cartRamEnabled = s.cartRamEnabled := by unfold storeByte; split <;> first | rfl | (unfold writeIe; split <;> rfl)
@[simp] theorem storeByte_doubleSpeed (s : State) (x : Word) (v : Byte) : (storeByte s x v).doubleSpeed = s.doubleSpeed := by unfold storeByte; split <;> first | rfl | (unfold writeIe; split <;> rfl)
@[simp] theorem storeByte_busState (s : State) (x : Word) (v : Byte) : (storeByte s x v).busState = s.busState := by unfold storeByte; split <;> first | rfl | (unfold writeIe; split <;> rfl)
@[simp] theorem storeByte_wakeInput (s : State) (x : Word) (v : Byte) : (storeByte s x v).wakeInput = s.wakeInput := by unfold storeByte; split <;> first | rfl | (unfold writeIe; split <;> rfl)
@[simp] theorem storeByte_result (s : State) (x : Word) (v : Byte) : (storeByte s x v).result = s.result := by unfold storeByte; split <;> first | rfl | (unfold writeIe; split <;> rfl)
@[simp] theorem storeByte_opAddr (s : State) (x : Word) (v : Byte) : (storeByte s x v).opAddr = s.opAddr := by unfold storeByte; split <;> first | rfl | (unfold writeIe; split <;> rfl)
@[simp] theorem storeByte_params (s : State) (x : Word) (v : Byte) : (storeByte s x v).params = s.params := by unfold storeByte; split <;> first | rfl | (unfold writeIe; split <;> rfl)

@[simp] theorem memWrite_a (s : State) (x : Word) (v : Byte) : (memWrite s x v).a = s.a := storeByte_a s x v
@[simp] theorem memWrite_f (s : State) (x : Word) (v : Byte) : (memWrite s x v).f = s.f := storeByte_f s x v
@[simp] theorem memWrite_b (s : State) (x : Word) (v : Byte) : (memWrite s x v).b = s.b := storeByte_b s x v
@[simp] theorem memWrite_c (s : State) (x : Word) (v : Byte) : (memWrite s x v).c = s.c := storeByte_c s x v
@[simp] theorem memWrite_d (s : State) (x : Word) (v : Byte) : (memWrite s x v).d = s.d := storeByte_d s x v
@[simp] theorem memWrite_e (s : State) (x : Word) (v : Byte) : (memWrite s x v).e = s.e := storeByte_e s x v
@[simp] theorem memWrite_h (s : State) (x : Word) (v : Byte) : (memWrite s x v).h = s.h := storeByte_h s x v
@[simp] theorem memWrite_l (s : State) (x : Word) (v : Byte) : (memWrite s x v).l = s.l := storeByte_l s x v
@[simp] theorem memWrite_sp (s : State) (x : Word) (v : Byte) : (memWrite s x v).sp = s.sp := storeByte_sp s x v
@[simp] theorem memWrite_pc (s : State) (x : Word) (v : Byte) : (memWrite s x v).pc = s.pc := storeByte_pc s x v
@[simp] theorem memWrite_ime (s : State) (x : Word) (v : Byte) : (memWrite s x v).ime = s.ime := storeByte_ime s x v
@[simp] theorem memWrite_imePending (s : State) (x : Word) (v : Byte) : (memWrite s x v).imePending = s.imePending := storeByte_imePending s x v
@[simp] theorem memWrite_mode (s : State) (x : Word) (v : Byte) : (memWrite s x v).mode = s.mode := storeByte_mode s x v
@[simp] theorem memWrite_haltBug (s : State) (x : Word) (v : Byte) : (memWrite s x v).haltBug = s.haltBug := storeByte_haltBug s x v
@[simp] theorem memWrite_fault (s : State) (x : Word) (v : Byte) : (memWrite s x v).fault = s.fault := storeByte_fault s x v
@[simp] theorem memWrite_cartRamEnabled (s : State) (x : Word) (v : Byte) : (memWrite s x v).cartRamEnabled = s.cartRamEnabled := storeByte_cartRamEnabled s x v
@[simp] theorem memWrite_doubleSpeed (s : State) (x : Word) (v : Byte) : (memWrite s x v).doubleSpeed = s.doubleSpeed := storeByte_doubleSpeed s x v
@[simp] theorem memWrite_wakeInput (s : State) (x : Word) (v : Byte) : (memWrite s x v).wakeInput = s.wakeInput := storeByte_wakeInput s x v
@[simp] theorem memWrite_result (s : State) (x : Word) (v : Byte) : (memWrite s x v).result = s.result := storeByte_result s x v
@[simp] theorem memWrite_opAddr (s : State) (x : Word) (v : Byte) : (memWrite s x v).opAddr = s.opAddr := storeByte_opAddr s x v
@[simp] theorem memWrite_params (s : State) (x : Word) (v : Byte) : (memWrite s x v).params = s.params := storeByte_params s x v

@[simp] theorem pokeByte_a (s : State) (x : Word) (v : Byte) : (pokeByte s x v).a = s.a := by unfold pokeByte; split <;> rfl
@[simp] theorem pokeByte_f (s : State) (x : Word) (v : Byte) : (pokeByte s x v).f = s.f := by unfold pokeByte; split <;> rfl
@[simp] theorem pokeByte_b (s : State) (x : Word) (v : Byte) : (pokeByte s x v).b = s.b := by unfold pokeByte; split <;> rfl
@[simp] theorem pokeByte_c (s : State) (x : Word) (v : Byte) : (pokeByte s x v).c = s.c := by unfold pokeByte; split <;> rfl
@[simp] theorem pokeByte_d (s : State) (x : Word) (v : Byte) : (pokeByte s x v).d = s.d := by unfold pokeByte; split <;> rfl
@[simp] theorem pokeByte_e (s : State) (x : Word) (v : Byte) : (pokeByte s x v).e = s.e := by unfold pokeByte; split <;> rfl
@[simp] theorem pokeByte_h (s : State) (x : Word) (v : Byte) : (pokeByte s x v).h = s.h := by unfold pokeByte; split <;> rfl
@[simp] theorem pokeByte_l (s : State) (x : Word) (v : Byte) : (pokeByte s x v).l = s.l := by unfold pokeByte; split <;> rfl
@[simp] theorem pokeByte_sp (s : State) (x : Word) (v : Byte) : (pokeByte s x v).sp = s.sp := by unfold pokeByte; split <;> rfl
@[simp] theorem pokeByte_pc (s : State) (x : Word) (v : Byte) : (pokeByte s x v).pc = s.pc := by unfold pokeByte; split <;> rfl
@[simp] theorem pokeByte_ime (s : State) (x : Word) (v : Byte) : (pokeByte s x v).ime = s.ime := by unfold pokeByte; split <;> rfl
@[simp] theorem pokeByte_imePending (s : State) (x : Word) (v : Byte) : (pokeByte s x v).imePending = s.imePending := by unfold pokeByte; split <;> rfl
@[simp] theorem pokeByte_mode (s : State) (x : Word) (v : Byte) : (pokeByte s x v).mode = s.mode := by unfold pokeByte; split <;> rfl
@[simp] theorem pokeByte_haltBug (s : State) (x : Word) (v : Byte) : (pokeByte s x v).haltBug = s.haltBug := by unfold pokeByte; split <;> rfl
@[simp] theorem pokeByte_fault (s : State) (x : Word) (v : Byte) : (pokeByte s x v).fault = s.fault := by unfold pokeByte; split <;> rfl
@[simp] theorem pokeByte_iflag (s : State) (x : Word) (v : Byte) : (pokeByte s x v).iflag = s.iflag := by unfold pokeByte; split <;> rfl
@[simp] theorem pokeByte_ie (s : State) (x : Word) (v : Byte) : (pokeByte s x v).ie = s.ie := by unfold pokeByte; split <;> rfl
@[simp] theorem pokeByte_bootMapped (s : State) (x : Word) (v : Byte) : (pokeByte s x v).bootMapped = s.bootMapped := by unfold pokeByte; split <;> rfl
@[simp] theorem pokeByte_cartRamEnabled (s : State) (x : Word) (v : Byte) : (pokeByte s x v).cartRamEnabled = s.cartRamEnabled := by unfold pokeByte; split <;> rfl
@[simp] theorem pokeByte_key1 (s : State) (x : Word) (v : Byte) : (pokeByte s x v).key1 = s.key1 := by unfold pokeByte; split <;> rfl
@[simp] theorem pokeByte_doubleSpeed (s : State) (x : Word) (v : Byte) : (pokeByte s x v).doubleSpeed = s.doubleSpeed := by unfold pokeByte; split <;> rfl
@[simp] theorem pokeByte_busState (s : State) (x : Word) (v : Byte) : (pokeByte s x v).busState = s.busState := by unfold pokeByte; split <;> rfl
@[simp] theorem pokeByte_wakeInput (s : State) (x : Word) (v : Byte) : (pokeByte s x v).wakeInput = s.wakeInput := by unfold pokeByte; split <;> rfl
@[simp] theorem pokeByte_result (s : State) (x : Word) (v : Byte) : (pokeByte s x v).result = s.result := by unfold pokeByte; split <;> rfl
@[simp] theorem pokeByte_opAddr (s : State) (x : Word) (v : Byte) : (pokeByte s x v).opAddr = s.opAddr := by unfold pokeByte; split <;> rfl
@[simp] theorem pokeByte_params (s : State) (x : Word) (v : Byte) : (pokeByte s x v).params = s.params := by unfold pokeByte; split <;> rfl

@[simp] theorem loadA_f (x : Word) (s : State) : (loadA x s).f = s.f := by simp [loadA, memRead]
@[simp] theorem loadA_b (x : Word) (s : State) : (loadA x s).b = s.b := by simp [loadA, memRead]
@[simp] theorem loadA_c (x : Word) (s : State) : (loadA x s).c = s.c := by simp [loadA, memRead]
@[simp] theorem loadA_d (x : Word) (s : State) : (loadA x s).d = s.d := by simp [loadA, memRead]
@[simp] theorem loadA_e (x : Word) (s : State) : (loadA x s).e = s.e := by simp [loadA, memRead]
@[simp] theorem loadA_h (x : Word) (s : State) : (loadA x s).h = s.h := by simp [loadA, memRead]
@[simp] theorem loadA_l (x : Word) (s : State) : (loadA x s).l = s.l := by simp [loadA, memRead]
@[simp] theorem loadA_sp (x : Word) (s : State) : (loadA x s).sp = s.sp := by simp [loadA, memRead]
@[simp] theorem loadA_pc (x : Word) (s : State) : (loadA x s).pc = s.pc := by simp [loadA, memRead]
@[simp] theorem loadA_ime (x : Word) (s : State) : (loadA x s).ime = s.ime := by simp [loadA, memRead]
@[simp] theorem loadA_imePending (x : Word) (s : State) : (loadA x s).imePending = s.imePending := by simp [loadA, memRead]
@[simp] theorem loadA_mode (x : Word) (s : State) : (loadA x s).mode = s.mode := by simp [loadA, memRead]
@[simp] theorem loadA_haltBug (x : Word) (s : State) : (loadA x s).haltBug = s.haltBug := by simp [loadA, memRead]
@[simp] theorem loadA_fault (x : Word) (s : State) : (loadA x s).fault = s.fault := by simp [loadA, memRead]
@[simp] theorem loadA_iflag (x : Word) (s : State) : (loadA x s).iflag = s.iflag := by simp [loadA, memRead]
@[simp] theorem loadA_ie (x : Word) (s : State) : (loadA x s).ie = s.ie := by simp [loadA, memRead]
@[simp] theorem loadA_mem (x : Word) (s : State) : (loadA x s).mem = s.mem := by simp [loadA, memRead]
@[simp] theorem loadA_bootMapped (x : Word) (s : State) : (loadA x s).bootMapped = s.bootMapped := by simp [loadA, memRead]
@[simp] theorem loadA_cartRamEnabled (x : Word) (s : State) : (loadA x s).cartRamEnabled = s.cartRamEnabled := by simp [loadA, memRead]
@[simp] theorem loadA_key1 (x : Word) (s : State) : (loadA x s).key1 = s.key1 := by simp [loadA, memRead]
@[simp] theorem loadA_doubleSpeed (x : Word) (s : State) : (loadA x s).doubleSpeed = s.doubleSpeed := by simp [loadA, memRead]
@[simp] theorem loadA_wakeInput (x : Word) (s : State) : (loadA x s).wakeInput = s.wakeInput := by simp [loadA, memRead]
@[simp] theorem loadA_result (x : Word) (s : State) : (loadA x s).result = s.result := by simp [loadA, memRead]
@[simp] theorem loadA_opAddr (x : Word) (s : State) : (loadA x s).opAddr = s.opAddr := by simp [loadA, memRead]
@[simp] theorem loadA_params (x : Word) (s : State) : (loadA x s).params = s.params := by simp [loadA, memRead]

@[simp] theorem modifyHl_a (g : Byte → Byte) (s : State) : (modifyHl g s).a = s.a := by simp [modifyHl, memRead]
@[simp] theorem modifyHl_f (g : Byte → Byte) (s : State) : (modifyHl g s).f = s.f := by simp [modifyHl, memRead]
@[simp] theorem modifyHl_b (g : Byte → Byte) (s : State) : (modifyHl g s).b = s.b := by simp [modifyHl, memRead]
@[simp] theorem modifyHl_c (g : Byte → Byte) (s : State) : (modifyHl g s).c = s.c := by simp [modifyHl, memRead]
@[simp] theorem modifyHl_d (g : Byte → Byte) (s : State) : (modifyHl g s).d = s.d := by simp [modifyHl, memRead]
@[simp] theorem modifyHl_e (g : Byte → Byte) (s : State) : (modifyHl g s).e = s.e := by simp [modifyHl, memRead]
@[simp] theorem modifyHl_h (g : Byte → Byte) (s : State) : (modifyHl g s).h = s.h := by simp [modifyHl, memRead]
@[simp] theorem modifyHl_l (g : Byte → Byte) (s : State) : (modifyHl g s).l = s.l := by simp [modifyHl, memRead]
@[simp] theorem modifyHl_sp (g : Byte → Byte) (s : State) : (modifyHl g s).sp = s.sp := by simp [modifyHl, memRead]
@[simp] theorem modifyHl_pc (g : Byte → Byte) (s : State) : (modifyHl g s).pc = s.pc := by simp [modifyHl, memRead]
@[simp] theorem modifyHl_ime (g : Byte → Byte) (s : State) : (modifyHl g s).ime = s.ime := by simp [modifyHl, memRead]
@[simp] theorem modifyHl_imePending (g : Byte → Byte) (s : State) : (modifyHl g s).imePending = s.imePending := by simp [modifyHl, memRead]
@[simp] theorem modifyHl_mode (g : Byte → Byte) (s : State) : (modifyHl g s).mode = s.mode := by simp [modifyHl, memRead]
@[simp] theorem modifyHl_haltBug (g : Byte → Byte) (s : State) : (modifyHl g s).haltBug = s.haltBug := by simp [modifyHl, memRead]
@[simp] theorem modifyHl_fault (g : Byte → Byte) (s : State) : (modifyHl g s).fault = s.fault := by simp [modifyHl, memRead]
@[simp] theorem modifyHl_cartRamEnabled (g : Byte → Byte) (s : State) : (modifyHl g s).cartRamEnabled = s.cartRamEnabled := by simp [modifyHl, memRead]
@[simp] theorem modifyHl_doubleSpeed (g : Byte → Byte) (s : State) : (modifyHl g s).doubleSpeed = s.doubleSpeed := by simp [modifyHl, memRead]
@[simp] theorem modifyHl_wakeInput (g : Byte → Byte) (s : State) : (modifyHl g s).wakeInput = s.wakeInput := by simp [modifyHl, memRead]
@[simp] theorem modifyHl_result (g : Byte → Byte) (s : State) : (modifyHl g s).result = s.result := by simp [modifyHl, memRead]
@[simp] theorem modifyHl_opAddr (g : Byte → Byte) (s : State) : (modifyHl g s).opAddr = s.opAddr := by simp [modifyHl, memRead]
@[simp] theorem modifyHl_params (g : Byte → Byte) (s : State) : (modifyHl g s).params = s.params := by simp [modifyHl, memRead]

@[simp] theorem push16_a (v : Word) (s : State) : (push16 v s).a = s.a := by simp [push16]
@[simp] theorem push16_f (v : Word) (s : State) : (push16 v s).f = s.f := by simp [push16]
@[simp] theorem push16_b (v : Word) (s : State) : (push16 v s).b = s.b := by simp [push16]
@[simp] theorem push16_c (v : Word) (s : State) : (push16 v s).c = s.c := by simp [push16]
@[simp] theorem push16_d (v : Word) (s : State) : (push16 v s).d = s.d := by simp [push16]
@[simp] theorem push16_e (v : Word) (s : State) : (push16 v s).e = s.e := by simp [push16]
@[simp] theorem push16_h (v : Word) (s : State) : (push16 v s).h = s.h := by simp [push16]
@[simp] theorem push16_l (v : Word) (s : State) : (push16 v s).l = s.l := by simp [push16]
@[simp] theorem push16_pc (v : Word) (s : State) : (push16 v s).pc = s.pc := by simp [push16]
@[simp] theorem push16_ime (v : Word) (s : State) : (push16 v s).ime = s.ime := by simp [push16]
@[simp] theorem push16_imePending (v : Word) (s : State) : (push16 v s).imePending = s.imePending := by simp [push16]
@[simp] theorem push16_mode (v : Word) (s : State) : (push16 v s).mode = s.mode := by simp [push16]
@[simp] theorem push16_haltBug (v : Word) (s : State) : (push16 v s).haltBug = s.haltBug := by simp [push16]
@[simp] theorem push16_fault (v : Word) (s : State) : (push16 v s).fault = s.fault := by simp [push16]
@[simp] theorem push16_cartRamEnabled (v : Word) (s : State) : (push16 v s).cartRamEnabled = s.cartRamEnabled := by simp [push16]
@[simp] theorem push16_doubleSpeed (v : Word) (s : State) : (push16 v s).doubleSpeed = s.doubleSpeed := by simp [push16]
@[simp] theorem push16_wakeInput (v : Word) (s : State) : (push16 v s).wakeInput = s.wakeInput := by simp [push16]
@[simp] theorem push16_result (v : Word) (s : State) : (push16 v s).result = s.result := by simp [push16]
@[simp] theorem push16_opAddr (v : Word) (s : State) : (push16 v s).opAddr = s.opAddr := by simp [push16]
@[simp] theorem push16_params (v : Word) (s : State) : (push16 v s).params = s.params := by simp [push16]

@[simp] theorem pop16_a (s : State) : (pop16 s).2.a = s.a := by simp [pop16, memRead]
@[simp] theorem pop16_f (s : State) : (pop16 s).2.f = s.f := by simp [pop16, memRead]
@[simp] theorem pop16_b (s : State) : (pop16 s).2.b = s.b := by simp [pop16, memRead]
@[simp] theorem pop16_c (s : State) : (pop16 s).2.c = s.c := by simp [pop16, memRead]
@[simp] theorem pop16_d (s : State) : (pop16 s).2.d = s.d := by simp [pop16, memRead]
@[simp] theorem pop16_e (s : State) : (pop16 s).2.e = s.e := by simp [pop16, memRead]
@[simp] theorem pop16_h (s : State) : (pop16 s).2.h = s.h := by simp [pop16, memRead]
@[simp] theorem pop16_l (s : State) : (pop16 s).2.l = s.l := by simp [pop16, memRead]
@[simp] theorem pop16_pc (s : State) : (pop16 s).2.pc = s.pc := by simp [pop16, memRead]
@[simp] theorem pop16_ime (s : State) : (pop16 s).2.ime = s.ime := by simp [pop16, memRead]
@[simp] theorem pop16_imePending (s : State) : (pop16 s).2.imePending = s.imePending := by simp [pop16, memRead]
@[simp] theorem pop16_mode (s : State) : (pop16 s).2.mode = s.mode := by simp [pop16, memRead]
@[simp] theorem pop16_haltBug (s : State) : (pop16 s).2.haltBug = s.haltBug := by simp [pop16, memRead]
@[simp] theorem pop16_fault (s : State) : (pop16 s).2.fault = s.fault := by simp [pop16, memRead]
@[simp] theorem pop16_iflag (s : State) : (pop16 s).2.iflag = s.iflag := by simp [pop16, memRead]
@[simp] theorem pop16_ie (s : State) : (pop16 s).2.ie = s.ie := by simp [pop16, memRead]
@[simp] theorem pop16_mem (s : State) : (pop16 s).2.mem = s.mem := by simp [pop16, memRead]
@[simp] theorem pop16_bootMapped (s : State) : (pop16 s).2.bootMapped = s.bootMapped := by simp [pop16, memRead]
@[simp] theorem pop16_cartRamEnabled (s : State) : (pop16 s).2.cartRamEnabled = s.cartRamEnabled := by simp [pop16, memRead]
@[simp] theorem pop16_key1 (s : State) : (pop16 s).2.key1 = s.key1 := by simp [pop16, memRead]
@[simp] theorem pop16_doubleSpeed (s : State) : (pop16 s).2.doubleSpeed = s.doubleSpeed := by simp [pop16, memRead]
@[simp] theorem pop16_wakeInput (s : State) : (pop16 s).2.wakeInput = s.wakeInput := by simp [pop16, memRead]
@[simp] theorem pop16_result (s : State) : (pop16 s).2.result = s.result := by simp [pop16, memRead]
@[simp] theorem pop16_opAddr (s : State) : (pop16 s).2.opAddr = s.opAddr := by simp [pop16, memRead]
@[simp] theorem pop16_params (s : State) : (pop16 s).2.params = s.params := by simp [pop16, memRead]

@[simp] theorem returnPop_a (s : State) : (returnPop s).a = s.a := by simp [returnPop]
@[simp] theorem returnPop_f (s : State) : (returnPop s).f = s.f := by simp [returnPop]
@[simp] theorem returnPop_b (s : State) : (returnPop s).b = s.b := by simp [returnPop]
@[simp] theorem returnPop_c (s : State) : (returnPop s).c = s.c := by simp [returnPop]
@[simp] theorem returnPop_d (s : State) : (returnPop s).d = s.d := by simp [returnPop]
@[simp] theorem returnPop_e (s : State) : (returnPop s).e = s.e := by simp [returnPop]
@[simp] theorem returnPop_h (s : State) : (returnPop s).h = s.h := by simp [returnPop]
@[simp] theorem returnPop_l (s : State) : (returnPop s).l = s.l := by simp [returnPop]
@[simp] theorem returnPop_ime (s : State) : (returnPop s).ime = s.ime := by simp [returnPop]
@[simp] theorem returnPop_imePending (s : State) : (returnPop s).imePending = s.imePending := by simp [returnPop]
@[simp] theorem returnPop_mode (s : State) : (returnPop s).mode = s.mode := by simp [returnPop]
@[simp] theorem returnPop_haltBug (s : State) : (returnPop s).haltBug = s.haltBug := by simp [returnPop]
@[simp] theorem returnPop_fault (s : State) : (returnPop s).fault = s.fault := by simp [returnPop]
@[simp] theorem returnPop_iflag (s : State) : (returnPop s).iflag = s.iflag := by simp [returnPop]
@[simp] theorem returnPop_ie (s : State) : (returnPop s).ie = s.ie := by simp [returnPop]
@[simp] theorem returnPop_mem (s : State) : (returnPop s).mem = s.mem := by simp [returnPop]
@[simp] theorem returnPop_bootMapped (s : State) : (returnPop s).bootMapped = s.bootMapped := by simp [returnPop]
@[simp] theorem returnPop_cartRamEnabled (s : State) : (returnPop s).cartRamEnabled = s.cartRamEnabled := by simp [returnPop]
@[simp] theorem returnPop_key1 (s : State) : (returnPop s).key1 = s.key1 := by simp [returnPop]
@[simp] theorem returnPop_doubleSpeed (s : State) : (returnPop s).doubleSpeed = s.doubleSpeed := by simp [returnPop]
@[simp] theorem returnPop_wakeInput (s : State) : (returnPop s).wakeInput = s.wakeInput := by simp [returnPop]
@[simp] theorem returnPop_result (s : State) : (returnPop s).result = s.result := by simp [returnPop]
@[simp] theorem returnPop_opAddr (s : State) : (returnPop s).opAddr = s.opAddr := by simp [returnPop]
@[simp] theorem returnPop_params (s : State) : (returnPop s).params = s.params := by simp [returnPop]

@[simp] theorem requestInterrupt_a (k : Fin 5) (s : State) : (requestInterrupt k s).a = s.a := rfl
@[simp] theorem requestInterrupt_f (k : Fin 5) (s : State) : (requestInterrupt k s).f = s.f := rfl
@[simp] theorem requestInterrupt_b (k : Fin 5) (s : State) : (requestInterrupt k s).b = s.b := rfl
@[simp] theorem requestInterrupt_c (k : Fin 5) (s : State) : (requestInterrupt k s).c = s.c := rfl
@[simp] theorem requestInterrupt_d (k : Fin 5) (s : State) : (requestInterrupt k s).d = s.d := rfl
@[simp] theorem requestInterrupt_e (k : Fin 5) (s : State) : (requestInterrupt k s).e = s.e := rfl
@[simp] theorem requestInterrupt_h (k : Fin 5) (s : State) : (requestInterrupt k s).h = s.h := rfl
@[simp] theorem requestInterrupt_l (k : Fin 5) (s : State) : (requestInterrupt k s).l = s.l := rfl
@[simp] theorem requestInterrupt_sp (k : Fin 5) (s : State) : (requestInterrupt k s).sp = s.sp := rfl
@[simp] theorem requestInterrupt_pc (k : Fin 5) (s : State) : (requestInterrupt k s).pc = s.pc := rfl
@[simp] theorem requestInterrupt_ime (k : Fin 5) (s : State) : (requestInterrupt k s).ime = s.ime := rfl
@[simp] theorem requestInterrupt_imePending (k : Fin 5) (s : State) : (requestInterrupt k s).imePending = s.imePending := rfl
@[simp] theorem requestInterrupt_mode (k : Fin 5) (s : State) : (requestInterrupt k s).mode = s.mode := rfl
@[simp] theorem requestInterrupt_haltBug (k : Fin 5) (s : State) : (requestInterrupt k s).haltBug = s.haltBug := rfl
@[simp] theorem requestInterrupt_fault (k : Fin 5) (s : State) : (requestInterrupt k s).fault = s.fault := rfl
@[simp] theorem requestInterrupt_ie (k : Fin 5) (s : State) : (requestInterrupt k s).ie = s.ie := rfl
@[simp] theorem requestInterrupt_mem (k : Fin 5) (s : State) : (requestInterrupt k s).mem = s.mem := rfl
@[simp] theorem requestInterrupt_bootMapped (k : Fin 5) (s : State) : (requestInterrupt k s).bootMapped = s.bootMapped := rfl
@[simp] theorem requestInterrupt_cartRamEnabled (k : Fin 5) (s : State) : (requestInterrupt k s).cartRamEnabled = s.cartRamEnabled := rfl
@[simp] theorem requestInterrupt_key1 (k : Fin 5) (s : State) : (requestInterrupt k s).key1 = s.key1 := rfl
@[simp] theorem requestInterrupt_doubleSpeed (k : Fin 5) (s : State) : (requestInterrupt k s).doubleSpeed = s.doubleSpeed := rfl
@[simp] theorem requestInterrupt_busState (k : Fin 5) (s : State) : (requestInterrupt k s).busState = s.busState := rfl
@[simp] theorem requestInterrupt_wakeInput (k : Fin 5) (s : State) : (requestInterrupt k s).wakeInput = s.wakeInput := rfl
@[simp] theorem requestInterrupt_result (k : Fin 5) (s : State) : (requestInterrupt k s).result = s.result := rfl
@[simp] theorem requestInterrupt_opAddr (k : Fin 5) (s : State) : (requestInterrupt k s).opAddr = s.opAddr := rfl
@[simp] theorem requestInterrupt_params (k : Fin 5) (s : State) : (requestInterrupt k s).params = s.params := rfl

@[simp] theorem clearIf_a (k : Fin 5) (s : State) : (clearIf k s).a = s.a := rfl
@[simp] theorem clearIf_f (k : Fin 5) (s : State) : (clearIf k s).f = s.f := rfl
@[simp] theorem clearIf_b (k : Fin 5) (s : State) : (clearIf k s).b = s.b := rfl
@[simp] theorem clearIf_c (k : Fin 5) (s : State) : (clearIf k s).c = s.c := rfl
@[simp] theorem clearIf_d (k : Fin 5) (s : State) : (clearIf k s).d = s.d := rfl
@[simp] theorem clearIf_e (k : Fin 5) (s : State) : (clearIf k s).e = s.e := rfl
@[simp] theorem clearIf_h (k : Fin 5) (s : State) : (clearIf k s).h = s.h := rfl
@[simp] theorem clearIf_l (k : Fin 5) (s : State) : (clearIf k s).l = s.l := rfl
@[simp] theorem clearIf_sp (k : Fin 5) (s : State) : (clearIf k s).sp = s.sp := rfl
@[simp] theorem clearIf_pc (k : Fin 5) (s : State) : (clearIf k s).pc = s.pc := rfl
@[simp] theorem clearIf_ime (k : Fin 5) (s : State) : (clearIf k s).ime = s.ime := rfl
@[simp] theorem clearIf_imePending (k : Fin 5) (s : State) : (clearIf k s).imePending = s.imePending := rfl
@[simp] theorem clearIf_mode (k : Fin 5) (s : State) : (clearIf k s).mode = s.mode := rfl
@[simp] theorem clearIf_haltBug (k : Fin 5) (s : State) : (clearIf k s).haltBug = s.haltBug := rfl
@[simp] theorem clearIf_fault (k : Fin 5) (s : State) : (clearIf k s).fault = s.fault := rfl
@[simp] theorem clearIf_ie (k : Fin 5) (s : State) : (clearIf k s).ie = s.ie := rfl
@[simp] theorem clearIf_mem (k : Fin 5) (s : State) : (clearIf k s).mem = s.mem := rfl
@[simp] theorem clearIf_bootMapped (k : Fin 5) (s : State) : (clearIf k s).bootMapped = s.bootMapped := rfl
@[simp] theorem clearIf_cartRamEnabled (k : Fin 5) (s : State) : (clearIf k s).cartRamEnabled = s.cartRamEnabled := rfl
@[simp] theorem clearIf_key1 (k : Fin 5) (s : State) : (clearIf k s).key1 = s.key1 := rfl
@[simp] theorem clearIf_doubleSpeed (k : Fin 5) (s : State) : (clearIf k s).doubleSpeed = s.doubleSpeed := rfl
@[simp] theorem clearIf_busState (k : Fin 5) (s : State) : (clearIf k s).busState = s.busState := rfl
@[simp] theorem clearIf_wakeInput (k : Fin 5) (s : State) : (clearIf k s).wakeInput = s.wakeInput := rfl
@[simp] theorem clearIf_result (k : Fin 5) (s : State) : (clearIf k s).result = s.result := rfl
@[simp] theorem clearIf_opAddr (k : Fin 5) (s : State) : (clearIf k s).opAddr = s.opAddr := rfl
@[simp] theorem clearIf_params (k : Fin 5) (s : State) : (clearIf k s).params = s.params := rfl

@[simp] theorem promoteIme_a (pend : Bool) (s : State) : (promoteIme pend s).a = s.a := by unfold promoteIme; split <;> rfl
@[simp] theorem promoteIme_f (pend : Bool) (s : State) : (promoteIme pend s).f = s.f := by unfold promoteIme; split <;> rfl
@[simp] theorem promoteIme_b (pend : Bool) (s : State) : (promoteIme pend s).b = s.b := by unfold promoteIme; split <;> rfl
@[simp] theorem promoteIme_c (pend : Bool) (s : State) : (promoteIme pend s).c = s.c := by unfold promoteIme; split <;> rfl
@[simp] theorem promoteIme_d (pend : Bool) (s : State) : (promoteIme pend s).d = s.d := by unfold promoteIme; split <;> rfl
@[simp] theorem promoteIme_e (pend : Bool) (s : State) : (promoteIme pend s).e = s.e := by unfold promoteIme; split <;> rfl
@[simp] theorem promoteIme_h (pend : Bool) (s : State) : (promoteIme pend s).h = s.h := by unfold promoteIme; split <;> rfl
@[simp] theorem promoteIme_l (pend : Bool) (s : State) : (promoteIme pend s).l = s.l := by unfold promoteIme; split <;> rfl
@[simp] theorem promoteIme_sp (pend : Bool) (s : State) : (promoteIme pend s).sp = s.sp := by unfold promoteIme; split <;> rfl
@[simp] theorem promoteIme_pc (pend : Bool) (s : State) : (promoteIme pend s).pc = s.pc := by unfold promoteIme; split <;> rfl
@[simp] theorem promoteIme_mode (pend : Bool) (s : State) : (promoteIme pend s).mode = s.mode := by unfold promoteIme; split <;> rfl
@[simp] theorem promoteIme_haltBug (pend : Bool) (s : State) : (promoteIme pend s).haltBug = s.haltBug := by unfold promoteIme; split <;> rfl
@[simp] theorem promoteIme_fault (pend : Bool) (s : State) : (promoteIme pend s).fault = s.fault := by unfold promoteIme; split <;> rfl
@[simp] theorem promoteIme_iflag (pend : Bool) (s : State) : (promoteIme pend s).iflag = s.iflag := by unfold promoteIme; split <;> rfl
@[simp] theorem promoteIme_ie (pend : Bool) (s : State) : (promoteIme pend s).ie = s.ie := by unfold promoteIme; split <;> rfl
@[simp] theorem promoteIme_mem (pend : Bool) (s : State) : (promoteIme pend s).mem = s.mem := by unfold promoteIme; split <;> rfl
@[simp] theorem promoteIme_bootMapped (pend : Bool) (s : State) : (promoteIme pend s).bootMapped = s.bootMapped := by unfold promoteIme; split <;> rfl
@[simp] theorem promoteIme_cartRamEnabled (pend : Bool) (s : State) : (promoteIme pend s).cartRamEnabled = s.cartRamEnabled := by unfold promoteIme; split <;> rfl
@[simp] theorem promoteIme_key1 (pend : Bool) (s : State) : (promoteIme pend s).key1 = s.key1 := by unfold promoteIme; split <;> rfl
@[simp] theorem promoteIme_doubleSpeed (pend : Bool) (s : State) : (promoteIme pend s).doubleSpeed = s.doubleSpeed := by unfold promoteIme; split <;> rfl
@[simp] theorem promoteIme_busState (pend : Bool) (s : State) : (promoteIme pend s).busState = s.busState := by unfold promoteIme; split <;> rfl
@[simp] theorem promoteIme_wakeInput (pend : Bool) (s : State) : (promoteIme pend s).wakeInput = s.wakeInput := by unfold promoteIme; split <;> rfl
@[simp] theorem promoteIme_result (pend : Bool) (s : State) : (promoteIme pend s).result = s.result := by unfold promoteIme; split <;> rfl
@[simp] theorem promoteIme_opAddr (pend : Bool) (s : State) : (promoteIme pend s).opAddr = s.opAddr := by unfold promoteIme; split <;> rfl
@[simp] theorem promoteIme_params (pend : Bool) (s : State) : (promoteIme pend s).params = s.params := by unfold promoteIme; split <;> rfl

end Sys2Proof.Machine
end

