-- ==== Sys2Proof/Laws/Bus.lean ====
section
/-!
SUPPORT. The laws of the bus: what the target of an address depends on, and what a read and a write do to later reads.
-/
namespace Sys2Proof.Machine

/-- The target of an address depends on the parameters and the two latches alone. -/
theorem busTarget_congr {s t : State} (hp : t.params = s.params) (hb : t.bootMapped = s.bootMapped)
    (hc : t.cartRamEnabled = s.cartRamEnabled) (a : Word) : busTarget t a = busTarget s a := by
  simp [busTarget, bootByte, consoleTarget, ioTarget, suppliedTarget, hp, hb, hc]

/-- What a read returns depends on the target and the storage behind it. -/
theorem readByte_congr {s t : State} {a : Word} (ht : busTarget t a = busTarget s a) (hm : t.mem = s.mem)
    (hi : t.iflag = s.iflag) (he : t.ie = s.ie) (hk : t.key1 = s.key1) (hl : t.busState = s.busState)
    (hp : t.params = s.params) : readByte t a = readByte s a := by
  simp [readByte, deviceByte, ht, hm, hi, he, hk, hl, hp, readIf, readIe]

/-- As `readByte_congr`, for an address whose value does not come from a device: the log does not matter. -/
theorem readByte_congr_notFree {s t : State} {a : Word} (hf : (busTarget s a).isFree = false)
    (ht : busTarget t a = busTarget s a) (hm : t.mem = s.mem) (hi : t.iflag = s.iflag) (he : t.ie = s.ie)
    (hk : t.key1 = s.key1) (hp : t.params = s.params) : readByte t a = readByte s a := by
  cases h : busTarget s a <;> rw [h] at hf ht <;>
    first
    | exact absurd hf (by decide)
    | simp [readByte, h, ht, hm, hi, he, hk, hp, readIf, readIe]

/-- A byte of RAM or ROM. -/
def BusTarget.place : BusTarget → Option Nat
  | .ram n => some n
  | .rom n => some n
  | _ => none

theorem ioTarget_place (s : State) (n : Nat) : (ioTarget s n).place = none := by
  unfold ioTarget; repeat' split
  all_goals rfl

theorem suppliedTarget_place (s : State) (n : Nat) : (suppliedTarget s n).place = none := by
  unfold suppliedTarget; split <;> rfl

theorem consoleTarget_place {s : State} {n k : Nat} (h : (consoleTarget s n).place = some k) : k ≤ n := by
  unfold consoleTarget at h
  repeat' split at h
  all_goals first
    | (rw [ioTarget_place] at h; exact absurd h (by simp))
    | (simp only [BusTarget.place, Option.some.injEq] at h; omega)
    | simp [BusTarget.place] at h

/-- RAM and ROM addresses stay below 2^16. -/
theorem busTarget_place_lt {s : State} {a : Word} {n : Nat} (h : (busTarget s a).place = some n) : n < 65536 := by
  have ha := a.isLt
  unfold busTarget at h
  split at h
  · simp [BusTarget.place] at h
  · split at h
    · simp [BusTarget.place] at h
    · split at h
      · simp only [BusTarget.place, Option.some.injEq] at h; omega
      · rw [suppliedTarget_place] at h; exact absurd h (by simp)
      · split at h
        · simp [BusTarget.place] at h
        · have := consoleTarget_place h; omega

@[simp] theorem busTarget_afterRead (s : State) (x a : Word) : busTarget (afterRead s x) a = busTarget s a :=
  busTarget_congr (by simp) (by simp) (by simp) a

/-- A read leaves every address that is not a device's alone. -/
theorem readByte_afterRead {s : State} {a : Word} (x : Word) (hf : (busTarget s a).isFree = false) :
    readByte (afterRead s x) a = readByte s a :=
  readByte_congr_notFree hf (by simp) (by simp) (by simp) (by simp) (by simp) (by simp)

/-- A device sees the reads of its own registers alone (R68). -/
theorem BusTarget.seesRead_of_notFree {b : BusTarget} (h : b.isFree = false) : b.seesRead = false := by
  cases b <;> first | rfl | exact absurd h (by decide)

/-- A read of anything but a device changes nothing. -/
theorem afterRead_notFree {s : State} {x : Word} (hf : (busTarget s x).isFree = false) : afterRead s x = s := by
  simp [afterRead, BusTarget.seesRead_of_notFree hf]

/-- Everything a read does: the devices' state is what the bus's read function gives, where they see the read (R61). -/
theorem afterRead_eq (s : State) (x : Word) :
    afterRead s x =
      { s with busState := if (busTarget s x).seesRead then busAfterRead s x else s.busState } := by
  unfold afterRead; split <;> rfl

theorem afterRead_busState (s : State) (x : Word) :
    (afterRead s x).busState = if (busTarget s x).seesRead then busAfterRead s x else s.busState := by
  rw [afterRead_eq]

/-- What a write does to the devices' state (R61, R68). -/
theorem memWrite_busState (s : State) (x : Word) (v : Byte) :
    (memWrite s x v).busState = if seesWrite s x then busAfterWrite s x v else s.busState := rfl

theorem seesWrite_congr {s t : State} (hp : t.params = s.params) {x : Word} (h : busTarget t x = busTarget s x) :
    seesWrite t x = seesWrite s x := by simp [seesWrite, inCartWindow, h, hp]

/-- A write to RAM is read back. -/
theorem readByte_memWrite_ram {s : State} (hm : Memory.wf s.mem = true) {x : Word} {n : Nat} (v : Byte)
    (h : busTarget s x = .ram n) : readByte (memWrite s x v) x = v := by
  have ht : busTarget (memWrite s x v) x = .ram n := by
    rw [busTarget_congr (s := s) (by simp) (by simp [memWrite, storeByte, h]) (by simp), h]
  have hmem : (memWrite s x v).mem = memSet s.mem n v := by simp [memWrite, storeByte, h]
  simp [readByte, ht, hmem, memGet_memSet_same hm]

/-- A write keeps the canonical form of memory. -/
theorem memWrite_mem_wf {s : State} (hm : Memory.wf s.mem = true) (x : Word) (v : Byte) :
    Memory.wf (memWrite s x v).mem = true := by
  cases h : busTarget s x <;> simp only [memWrite, storeByte, h]
  case ram n => exact memSet_wf hm (busTarget_place_lt (by rw [h]; rfl)) v
  case ieReg => unfold writeIe; split <;> exact hm
  all_goals exact hm

theorem pokeByte_mem_wf {s : State} (hm : Memory.wf s.mem = true) (x : Word) (v : Byte) :
    Memory.wf (pokeByte s x v).mem = true := by
  cases h : busTarget s x <;> simp only [pokeByte, h]
  case ram n => exact memSet_wf hm (busTarget_place_lt (by rw [h]; rfl)) v
  case rom n => exact memSet_wf hm (busTarget_place_lt (by rw [h]; rfl)) v
  all_goals exact hm

theorem push16_mem_wf {s : State} (hm : Memory.wf s.mem = true) (v : Word) :
    Memory.wf (push16 v s).mem = true := by
  exact memWrite_mem_wf (s := { memWrite { s with sp := s.sp - 1 } (s.sp - 1) (hiByte v) with
    sp := (memWrite { s with sp := s.sp - 1 } (s.sp - 1) (hiByte v)).sp - 1 })
    (memWrite_mem_wf (s := { s with sp := s.sp - 1 }) hm _ _) _ _

theorem modifyHl_mem_wf {s : State} (hm : Memory.wf s.mem = true) (g : Byte → Byte) :
    Memory.wf (modifyHl g s).mem = true :=
  memWrite_mem_wf (s := afterRead s (getHL s)) (by simpa using hm) _ _

/-- IF or IE. -/
def BusTarget.isCore : BusTarget → Bool
  | .ifReg => true
  | .ieReg => true
  | _ => false

theorem suppliedTarget_isCore (s : State) (n : Nat) : (suppliedTarget s n).isCore = false := by
  unfold suppliedTarget; split <;> rfl

theorem ioTarget_isCore (s : State) (n : Nat) : (ioTarget s n).isCore = false := by
  unfold ioTarget; repeat' split
  all_goals rfl

theorem consoleTarget_isCore (s : State) (n : Nat) : (consoleTarget s n).isCore = false := by
  unfold consoleTarget; repeat' split
  all_goals first | exact ioTarget_isCore s n | rfl

/-- Only the two fixed addresses reach IF and IE (R71). -/
theorem busTarget_isCore {s : State} {a : Word} (h1 : a ≠ 0xFF0F) (h2 : a ≠ 0xFFFF) :
    (busTarget s a).isCore = false := by
  unfold busTarget
  rw [if_neg h1, if_neg h2]
  repeat' split
  all_goals first | exact consoleTarget_isCore s _ | exact suppliedTarget_isCore s _ | rfl

theorem busTarget_ifReg_iff {s : State} {a : Word} : busTarget s a = .ifReg ↔ a = 0xFF0F := by
  constructor
  · intro h
    by_contra h1
    by_cases h2 : a = 0xFFFF
    · subst h2; simp [busTarget] at h
    · have := busTarget_isCore (s := s) h1 h2
      rw [h] at this; exact absurd this (by decide)
  · rintro rfl; simp [busTarget]

theorem busTarget_ieReg_iff {s : State} {a : Word} : busTarget s a = .ieReg ↔ a = 0xFFFF := by
  constructor
  · intro h
    by_contra h2
    by_cases h1 : a = 0xFF0F
    · subst h1; simp [busTarget] at h
    · have := busTarget_isCore (s := s) h1 h2
      rw [h] at this; exact absurd this (by decide)
  · rintro rfl; simp [busTarget]

@[simp] theorem writeIe_iflag (s : State) (v : Byte) : (writeIe s v).iflag = s.iflag := by
  unfold writeIe; split <;> rfl

/-- Only IF's own address changes IF. -/
theorem memWrite_iflag (s : State) (x : Word) (v : Byte) :
    (memWrite s x v).iflag = if x = 0xFF0F then v.extractLsb' 0 5 else s.iflag := by
  have hi : busTarget s x = .ifReg ↔ x = 0xFF0F := busTarget_ifReg_iff
  cases h : busTarget s x <;> rw [h] at hi <;>
    simp only [reduceCtorEq, false_iff, true_iff] at hi <;> first | rw [if_neg hi] | rw [if_pos hi]
  all_goals simp [memWrite, storeByte, h, writeIf]

/-- Only IE's own address changes IE. -/
theorem memWrite_ie (s : State) (x : Word) (v : Byte) :
    (memWrite s x v).ie = if x = 0xFFFF then (writeIe s v).ie else s.ie := by
  have hi : busTarget s x = .ieReg ↔ x = 0xFFFF := busTarget_ieReg_iff
  cases h : busTarget s x <;> rw [h] at hi <;>
    simp only [reduceCtorEq, false_iff, true_iff] at hi <;> first | rw [if_neg hi] | rw [if_pos hi]
  all_goals simp [memWrite, storeByte, h, writeIf]

theorem zeroHigh_and (v : Byte) : (0b000#3 ++ v.extractLsb' 0 5 : Byte) &&& 0xE0 = 0 := by
  revert v; decide

/-- The upper bits of IE stay 0 unless they are stored. -/
theorem memWrite_ieUpper {s : State} (h : s.params.ieUpper = .ones → s.ie &&& 0xE0 = 0) (x : Word) (v : Byte) :
    s.params.ieUpper = .ones → (memWrite s x v).ie &&& 0xE0 = 0 := by
  intro hp
  rw [memWrite_ie]
  split
  · simp only [writeIe, hp]
    exact zeroHigh_and v
  · exact h hp

/-- A write never maps the boot ROM. -/
theorem memWrite_bootMapped {s : State} {x : Word} {v : Byte} (h : (memWrite s x v).bootMapped = true) :
    s.bootMapped = true := by
  cases ht : busTarget s x <;> simp only [memWrite, storeByte, ht, writeIf] at h <;> try exact h
  case ieReg => unfold writeIe at h; split at h <;> exact h
  case bootLatch => simp at h; exact h.1

theorem ioTarget_ne_rom (s : State) (k n : Nat) : ioTarget s k ≠ .rom n := by
  unfold ioTarget; split <;> [simp; (split <;> simp)]

theorem ioTarget_ne_ram (s : State) (k n : Nat) : ioTarget s k ≠ .ram n := by
  unfold ioTarget; split <;> [simp; (split <;> simp)]

theorem suppliedTarget_cases (s : State) (n : Nat) :
    suppliedTarget s n = .device ∨ suppliedTarget s n = .key1 ∧ n = 0xFF4D := by
  unfold suppliedTarget; split
  · next h => exact .inr ⟨rfl, h.1⟩
  · exact .inl rfl

/-- A supplied bus has no byte of the model's memory. -/
theorem suppliedTarget_ne {s : State} {k : Nat} {b : BusTarget} (h1 : b ≠ .device) (h2 : b ≠ .key1) :
    suppliedTarget s k ≠ b := by
  rcases suppliedTarget_cases s k with h | ⟨h, -⟩ <;> rw [h] <;> exact Ne.symm ‹_›

theorem consoleTarget_rom {s : State} {k n : Nat} (h : consoleTarget s k = .rom n) : n < 0x8000 := by
  unfold consoleTarget at h
  repeat' split at h
  all_goals first
    | exact absurd h (ioTarget_ne_rom _ _ _)
    | (simp only [reduceCtorEq] at h)
    | (simp only [BusTarget.rom.injEq] at h; omega)

/-- On the console map RAM is reached at its own address or, through the mirror, 0x2000 above it (R69). -/
theorem consoleTarget_ram {s : State} {k n : Nat} (h : consoleTarget s k = .ram n) :
    0x8000 ≤ n ∧ (k = n ∨ k = n + 0x2000) := by
  unfold consoleTarget at h
  repeat' split at h
  all_goals first
    | exact absurd h (ioTarget_ne_ram _ _ _)
    | (simp only [reduceCtorEq] at h)
    | (simp only [BusTarget.ram.injEq] at h; omega)

theorem busTarget_rom {s : State} {a : Word} {n : Nat} (h : busTarget s a = .rom n) :
    n < 0x8000 ∧ s.params.bus = .console := by
  unfold busTarget at h
  repeat' split at h
  all_goals first
    | (simp only [reduceCtorEq] at h)
    | exact absurd h (suppliedTarget_ne (by simp) (by simp))
    | exact ⟨consoleTarget_rom h, by assumption⟩

theorem busTarget_ram {s : State} {a : Word} {n : Nat} (h : busTarget s a = .ram n) :
    (s.params.bus = .console → 0x8000 ≤ n) ∧ (a.toNat = n ∨ a.toNat = n + 0x2000) := by
  unfold busTarget at h
  repeat' split at h
  all_goals first
    | (simp only [reduceCtorEq] at h)
    | exact absurd h (suppliedTarget_ne (by simp) (by simp))
    | exact ⟨fun _ => (consoleTarget_ram h).1, (consoleTarget_ram h).2⟩
    | (simp only [BusTarget.ram.injEq] at h; exact ⟨fun hc => by simp_all, .inl h⟩)

/-- No byte of ROM is a byte of RAM. -/
theorem busTarget_rom_ram {s : State} {a b : Word} {n : Nat} (h1 : busTarget s a = .rom n)
    (h2 : busTarget s b = .ram n) : False := by
  have h := busTarget_rom h1
  have := (busTarget_ram h2).1 h.2
  omega

theorem busTarget_bootLatch {s : State} {x : Word} (h : busTarget s x = .bootLatch) :
    x = 0xFF50 ∧ s.params.bus = .console := by
  simp only [busTarget] at h
  repeat' split at h
  all_goals (try cases h)
  · exact absurd h (suppliedTarget_ne (by simp) (by simp))
  · rename_i hc _ hb
    unfold consoleTarget ioTarget at h
    repeat' split at h
    all_goals (try cases h)
    exact ⟨by apply BitVec.eq_of_toNat_eq; assumption, hc⟩

theorem busTarget_key1 {s : State} {x : Word} (h : busTarget s x = .key1) : x = 0xFF4D := by
  simp only [busTarget] at h
  repeat' split at h
  all_goals (try cases h)
  · rcases suppliedTarget_cases s x.toNat with h' | ⟨-, h'⟩
    · rw [h] at h'; cases h'
    · exact BitVec.eq_of_toNat_eq h'
  · unfold consoleTarget ioTarget at h
    repeat' split at h
    all_goals (try cases h)
    rename_i h2; exact BitVec.eq_of_toNat_eq h2.1

theorem consoleTarget_congr {s t : State} (hp : t.params = s.params) (hc : t.cartRamEnabled = s.cartRamEnabled)
    (n : Nat) : consoleTarget t n = consoleTarget s n := by simp [consoleTarget, ioTarget, hp, hc]

/-- Only the write to 0xFF50 touches the boot ROM's latch (R70). -/
theorem memWrite_bootMapped_eq (s : State) (x : Word) (v : Byte) :
    (memWrite s x v).bootMapped =
      if busTarget s x = .bootLatch then s.bootMapped && decide (v = 0) else s.bootMapped := by
  cases h : busTarget s x <;> simp [memWrite, storeByte, h, writeIf, writeIe]
  split <;> rfl

theorem memWrite_key1_eq (s : State) (x : Word) (v : Byte) :
    (memWrite s x v).key1 = if busTarget s x = .key1 then v else s.key1 := by
  cases h : busTarget s x <;> simp [memWrite, storeByte, h, writeIf, writeIe]
  split <;> rfl

/-- A write to anything but RAM leaves the bytes behind the bus alone. -/
theorem memWrite_mem_other {s : State} {x : Word} (v : Byte) (h : ∀ n, busTarget s x ≠ .ram n) :
    (memWrite s x v).mem = s.mem := by
  cases h' : busTarget s x <;> simp [memWrite, storeByte, h', writeIf, writeIe]
  · exact absurd h' (h _)
  · split <;> rfl

theorem memGet_memWrite_other {s : State} {x : Word} (v : Byte) {n : Nat} (h : busTarget s x ≠ .ram n) :
    memGet (memWrite s x v).mem n = memGet s.mem n := by
  cases h' : busTarget s x
  case ram k =>
    simp only [memWrite, storeByte, h']
    exact memGet_memSet_ne _ _ (by rintro rfl; exact h h')
  all_goals rw [memWrite_mem_other _ (by simp [h'])]

/-- A write moves no address to another target, but for the boot ROM's own when it is unmapped. -/
theorem busTarget_memWrite {s : State} {x : Word} (v : Byte) {a : Word}
    (h : busTarget s x = .bootLatch → bootByte s a.toNat = none) : busTarget (memWrite s x v) a = busTarget s a := by
  by_cases hb : busTarget s x = .bootLatch
  · have h := h hb
    have h2 : bootByte (memWrite s x v) a.toNat = none := by
      unfold bootByte at h ⊢
      rw [memWrite_bootMapped_eq, if_pos hb]
      simp only [memWrite_params]
      by_cases hv : v = 0
      · simpa [hv] using h
      · simp [show ¬ (v = 0#8) from hv]
    unfold busTarget
    simp only [memWrite_params, h, h2]
    rw [consoleTarget_congr (s := s) (by simp) (by simp)]
    simp only [suppliedTarget, memWrite_params]
  · exact busTarget_congr (by simp) (by rw [memWrite_bootMapped_eq, if_neg hb]) (by simp) a

/-- A write leaves every other byte alone: an address that reaches another byte, and no device's, reads as before. -/
theorem readByte_memWrite_other {s : State} {x : Word} (v : Byte) {a : Word} (hax : a ≠ x)
    (hr : ∀ n, busTarget s a = .ram n → busTarget s x ≠ .ram n) (hf : (busTarget s a).isFree = false)
    (h : busTarget s x = .bootLatch → bootByte s a.toNat = none) : readByte (memWrite s x v) a = readByte s a := by
  have ht := busTarget_memWrite v h
  cases h' : busTarget s a <;> simp only [readByte, ht, h']
  case ram n => exact memGet_memWrite_other _ (hr n h')
  case rom n => exact memGet_memWrite_other _ (fun e => busTarget_rom_ram h' e)
  case ifReg =>
    have := busTarget_ifReg_iff.1 h'
    simp only [readIf, memWrite_iflag, if_neg (show ¬ x = 0xFF0F from fun e => hax (by rw [this, e]))]
  case ieReg =>
    have := busTarget_ieReg_iff.1 h'
    simp only [readIe, memWrite_ie, memWrite_params, if_neg (show ¬ x = 0xFFFF from fun e => hax (by rw [this, e]))]
  case key1 =>
    rw [memWrite_key1_eq, if_neg (fun e => hax (by rw [busTarget_key1 h', busTarget_key1 e]))]
  all_goals (rw [h'] at hf; exact absurd hf (by decide))

end Sys2Proof.Machine
end

