-- ==== Sys2Proof/Laws/Regs.lean ====
section
/-! SUPPORT. The laws of registers, pairs and flags: a read after a write, and the low nibble of F. -/
namespace Sys2Proof.Machine

@[simp] theorem hiByte_hiLo (hi lo : Byte) : hiByte (hiLo hi lo) = hi := by
  simp only [hiByte, hiLo]
  ext i h
  simp [BitVec.getLsbD_eq_getElem h, show 8 + i < 16 by omega]

@[simp] theorem loByte_hiLo (hi lo : Byte) : loByte (hiLo hi lo) = lo := by
  simp only [loByte, hiLo]
  ext i h
  simp [h, show i < 16 by omega]

@[simp] theorem hiLo_hiByte_loByte (v : Word) : hiLo (hiByte v) (loByte v) = v := by
  simp only [hiLo, hiByte, loByte]
  ext i h
  by_cases h8 : i < 8
  · simp [h8, BitVec.getLsbD_eq_getElem h]
  · simp [h8, show 8 + (i - 8) = i by omega, BitVec.getLsbD_eq_getElem h]
    omega

/-- A read of a register after a write of a register. -/
theorem getR8_setR8 (s : State) (r q : Reg8) (v : Byte) :
    getR8 (setR8 s r v) q = if q = r then v else getR8 s q := by
  cases r <;> cases q <;> rfl

@[simp] theorem getHL_setHL (s : State) (v : Word) : getHL (setHL s v) = v := by simp [getHL, setHL]
@[simp] theorem getBC_setBC (s : State) (v : Word) : getBC (setBC s v) = v := by simp [getBC, setBC]
@[simp] theorem getDE_setDE (s : State) (v : Word) : getDE (setDE s v) = v := by simp [getDE, setDE]

/-- A read of a pair after a write of it. -/
@[simp] theorem getPairSp_setPairSp (s : State) (p : PairSp) (v : Word) : getPairSp (setPairSp s p v) p = v := by
  cases p
  · exact getBC_setBC s v
  · exact getDE_setDE s v
  · exact getHL_setHL s v
  · rfl

@[simp] theorem getR8_afterRead (s : State) (x : Word) (q : Reg8) : getR8 (afterRead s x) q = getR8 s q := by
  cases q <;> simp [getR8]

@[simp] theorem getHL_afterRead (s : State) (x : Word) : getHL (afterRead s x) = getHL s := by simp [getHL]

@[simp] theorem getR8_memWrite (s : State) (x : Word) (v : Byte) (q : Reg8) :
    getR8 (memWrite s x v) q = getR8 s q := by cases q <;> simp [getR8]

@[simp] theorem getR8_setZNHC (s : State) (z n h c : Option Bool) (q : Reg8) :
    getR8 (setZNHC s z n h c) q = getR8 s q := by cases q <;> simp [getR8]

theorem packFlags_bits (z n h c : Bool) :
    (packFlags z n h c).getLsbD 7 = z ∧ (packFlags z n h c).getLsbD 6 = n ∧
      (packFlags z n h c).getLsbD 5 = h ∧ (packFlags z n h c).getLsbD 4 = c ∧ packFlags z n h c &&& 0x0F = 0 := by
  revert z n h c; decide

@[simp] theorem flagZ_setZNHC (s : State) (z n h c : Option Bool) : flagZ (setZNHC s z n h c) = z.getD (flagZ s) :=
  (packFlags_bits _ _ _ _).1
@[simp] theorem flagN_setZNHC (s : State) (z n h c : Option Bool) : flagN (setZNHC s z n h c) = n.getD (flagN s) :=
  (packFlags_bits _ _ _ _).2.1
@[simp] theorem flagH_setZNHC (s : State) (z n h c : Option Bool) : flagH (setZNHC s z n h c) = h.getD (flagH s) :=
  (packFlags_bits _ _ _ _).2.2.1
@[simp] theorem flagC_setZNHC (s : State) (z n h c : Option Bool) : flagC (setZNHC s z n h c) = c.getD (flagC s) :=
  (packFlags_bits _ _ _ _).2.2.2.1

/-- Every write of flags leaves the low nibble of F zero (R22). -/
@[simp] theorem setZNHC_lowNibble (s : State) (z n h c : Option Bool) : (setZNHC s z n h c).f &&& 0x0F = 0 :=
  (packFlags_bits _ _ _ _).2.2.2.2

@[simp] theorem aluExec_lowNibble (op : AluOp) (v : Byte) (s : State) : (aluExec op v s).f &&& 0x0F = 0 :=
  setZNHC_lowNibble _ _ _ _ _

@[simp] theorem bitTest_lowNibble (k : Fin 8) (v : Byte) (s : State) : (bitTest k v s).f &&& 0x0F = 0 :=
  setZNHC_lowNibble _ _ _ _ _

@[simp] theorem setSpOffsetFlags_lowNibble (v : Word) (e : Byte) (s : State) :
    (setSpOffsetFlags v e s).f &&& 0x0F = 0 := setZNHC_lowNibble _ _ _ _ _

theorem highNibble_lowNibble (v : Byte) : v &&& 0xF0 &&& 0x0F = 0 := by revert v; decide

/-- A write of a pair keeps the low nibble of F zero: POP AF drops it (R143). -/
theorem setPairAf_lowNibble {s : State} (h : s.f &&& 0x0F = 0) (p : PairAf) (v : Word) :
    (setPairAf s p v).f &&& 0x0F = 0 := by
  cases p
  · exact h
  · exact h
  · exact h
  · exact highNibble_lowNibble _

theorem loByte_toNat (a : Word) : (loByte a).toNat = a.toNat % 256 := by simp [loByte]

theorem hiByte_toNat (a : Word) : (hiByte a).toNat = a.toNat / 256 := by
  simp [hiByte, Nat.shiftRight_eq_div_pow]; omega

theorem hiLo_toNat (hi lo : Byte) : (hiLo hi lo).toNat = hi.toNat * 256 + lo.toNat := by
  have e : hiLo hi lo = hi ++ lo := by
    apply BitVec.eq_of_getLsbD_eq
    intro i h
    simp only [hiLo, BitVec.getLsbD_append, BitVec.getLsbD_or, BitVec.getLsbD_shiftLeft]
    by_cases h8 : i < 8
    · simp [h8, h]
    · have h9 : i - 8 < 16 := by omega
      have h7 : 8 ≤ i := by omega
      simp [h8, h, h9, BitVec.getLsbD_of_ge lo i h7]
  rw [e, BitVec.toNat_append, Nat.shiftLeft_eq, Nat.mul_comm, ← Nat.two_pow_add_eq_or_of_lt lo.isLt]

/-- A signed offset, as R263 and R144 add it: modulo 2^16. -/
theorem add_sext16_toNat (a : Word) (e : Byte) :
    ((a + sext16 e).toNat : Int) = ((a.toNat : Int) + e.toInt) % 65536 := by
  have h1 : ((sext16 e).toNat : Int) = e.toInt % 65536 := by
    unfold sext16 BitVec.signExtend
    rw [BitVec.toNat_ofInt]
    have : 0 ≤ e.toInt % 65536 := by omega
    simpa using this
  rw [BitVec.toNat_add]
  push_cast
  rw [h1]; omega

/-- Everything `AluExec` does: A, where the operation writes it, and F (R150). -/
theorem aluExec_eq (op : AluOp) (v : Byte) (s : State) :
    aluExec op v s =
      { s with
        a := if (alu op s.a v (flagC s)).writesA then (alu op s.a v (flagC s)).r else s.a
        f := packFlags (isZero (alu op s.a v (flagC s)).r) (alu op s.a v (flagC s)).n (alu op s.a v (flagC s)).h
          (alu op s.a v (flagC s)).c } := by
  unfold aluExec setZNHC
  simp only []
  split <;> simp

end Sys2Proof.Machine
end

