-- ==== Sys2Proof/Laws/Ops.lean ====
section
/-!
SUPPORT. One lemma per shared operation that says what it does: fetch, stack, interrupts, dispatch, the ends of an
instruction.
-/
namespace Sys2Proof.Machine

/-- What ends an instruction answers a next state that differs in the result alone. -/
theorem doneIn_eq (n : Nat) (s : State) : doneIn n s = .next { s with result := .cycles n } := rfl

/-- A read changes the devices' state at most. -/
theorem afterRead_frame (s : State) (x : Word) : ∃ bus, afterRead s x = { s with busState := bus } := by
  unfold afterRead; split
  · exact ⟨_, rfl⟩
  · exact ⟨s.busState, rfl⟩

theorem fetchImm8_frame (s : State) : ∃ bus, (fetchImm8 s).2 = { s with pc := s.pc + 1, busState := bus } := by
  obtain ⟨bus, h⟩ := afterRead_frame s s.pc
  exact ⟨bus, by simp only [fetchImm8, h]⟩

/-- The opcode's fetch: PC stays after a HALT bug, which it clears (R8). -/
theorem fetchOpcode_frame (s : State) :
    ∃ bus, (fetchOpcode s).2 =
      { s with pc := if s.haltBug then s.pc else s.pc + 1, haltBug := false, opAddr := s.pc, busState := bus } := by
  obtain ⟨bus, h⟩ := afterRead_frame s s.pc
  refine ⟨bus, ?_⟩
  cases hb : s.haltBug <;> simp only [fetchOpcode, h, hb] <;> rfl

/-- Fetching an instruction touches PC, the HALT bug flag, `opaddr` and the devices' state, and nothing else. -/
theorem fetchInstr_frame (s : State) :
    ∃ pc bus, (fetchInstr s).2 = { s with pc := pc, haltBug := false, opAddr := s.pc, busState := bus } := by
  obtain ⟨bus, h⟩ := fetchOpcode_frame s
  obtain ⟨bus', h'⟩ := fetchImm8_frame (fetchOpcode s).2
  obtain ⟨bus'', h''⟩ := fetchImm8_frame (fetchImm8 (fetchOpcode s).2).2
  simp only [fetchInstr]
  split
  · exact ⟨_, bus, h⟩
  · exact ⟨_, bus', by rw [h', h]⟩
  · exact ⟨_, bus'', by rw [h'', h', h]⟩

@[simp] theorem push16_sp (v : Word) (s : State) : (push16 v s).sp = s.sp - 2 := by
  simp only [push16, memWrite_sp]; bv_omega

@[simp] theorem pop16_sp (s : State) : (pop16 s).2.sp = s.sp + 2 := by
  simp only [pop16, memRead, afterRead_sp]; bv_omega

/-- `pending` and `lowestSet` name a source exactly when one is pending. -/
theorem lowestSet_isSome (p : BitVec 5) : (lowestSet p).isSome = true ↔ p ≠ 0 := by
  revert p; decide

/-- The lowest set bit is set, and no lower one is (R316). -/
theorem lowestSet_spec {p : BitVec 5} {k : Fin 5} (h : lowestSet p = some k) :
    p.getLsbD k.val = true ∧ ∀ j : Fin 5, j < k → p.getLsbD j.val = false := by
  revert p k; decide

/-- If a step dispatches, IME is set and something is pending (R310). -/
theorem dispatchSource_some {s : State} {k : Fin 5} (h : dispatchSource s = some k) :
    s.ime = true ∧ lowestSet (pending s) = some k := by
  unfold dispatchSource at h; split at h
  · exact ⟨by assumption, h⟩
  · exact absurd h (by simp)

/-- Everything a step can be (R310): a fault already recorded, an idle step, a dispatch, or an instruction. -/
theorem stepWith_cases (run : Instr → State → StepOutcome) (s : State) :
    (∃ r, s.fault = some r ∧ stepWith run s = .fault (.illegalOpcode r.op r.addr)) ∨
    (s.fault = none ∧ s.mode = .stop ∧ stepWith run s = stopStep s) ∨
    (s.fault = none ∧ s.mode = .halt ∧ stepWith run s = haltStep s) ∨
    (∃ k, s.fault = none ∧ s.mode = .run ∧ dispatchSource s = some k ∧ stepWith run s = dispatch k s) ∨
    (s.fault = none ∧ s.mode = .run ∧ dispatchSource s = none ∧ stepWith run s = instrStep run s) := by
  unfold stepWith
  cases hf : s.fault with
  | some r => exact .inl ⟨r, rfl, rfl⟩
  | none =>
    cases hm : s.mode with
    | stop => exact .inr (.inl ⟨rfl, rfl, rfl⟩)
    | halt => exact .inr (.inr (.inl ⟨rfl, rfl, rfl⟩))
    | run =>
      cases hd : dispatchSource s with
      | some k => exact .inr (.inr (.inr (.inl ⟨k, rfl, rfl, rfl, rfl⟩)))
      | none => exact .inr (.inr (.inr (.inr ⟨rfl, rfl, rfl, rfl⟩)))

/-- If the end of an instruction answers a next state, the instruction did. -/
theorem endInstr_next {pend : Bool} {o : StepOutcome} {t : State} (h : endInstr pend o = .next t) :
    ∃ u, o = .next u ∧ t = promoteIme pend u := by
  cases o with
  | next u => exact ⟨u, rfl, by simpa [endInstr] using h.symm⟩
  | fault r => simp [endInstr] at h
  | refused r => simp [endInstr] at h

theorem memWrite_withSp (s : State) (sp x : Word) (v : Byte) :
    memWrite { s with sp := sp } x v = { memWrite s x v with sp := sp } := by
  have h : busTarget { s with sp := sp } x = busTarget s x := busTarget_congr rfl rfl rfl x
  cases h' : busTarget s x <;> simp only [memWrite, storeByte, seesWrite, inCartWindow, busAfterWrite, h, h', writeIf, writeIe]
  cases s.params.ieUpper <;> rfl

theorem afterRead_withSp (s : State) (sp x : Word) :
    afterRead { s with sp := sp } x = { afterRead s x with sp := sp } := by
  have h : busTarget { s with sp := sp } x = busTarget s x := busTarget_congr rfl rfl rfl x
  simp only [afterRead, h]; split <;> rfl

/-- Everything a push does (R9). -/
theorem push16_eq (v : Word) (s : State) :
    push16 v s =
      { memWrite (memWrite s (s.sp - 1) (hiByte v)) (s.sp - 2) (loByte v) with sp := s.sp - 2 } := by
  unfold push16
  simp only [memWrite_withSp, show s.sp - 1 - 1 = s.sp - 2 from by bv_omega]

/-- Everything a pop does to the state (R9). -/
theorem pop16_eq (s : State) :
    (pop16 s).2 = { afterRead (afterRead s s.sp) (s.sp + 1) with sp := s.sp + 2 } := by
  simp only [pop16, memRead, afterRead_withSp, afterRead_sp, show s.sp + 1 + 1 = s.sp + 2 from by bv_omega]

end Sys2Proof.Machine
end

