-- ==== Sys2Proof/Laws/PerInstr.lean ====
section
/-!
SUPPORT. Facts stated per instruction. EncodedLength: the encoder gives as many bytes as the first of them says (R90, R102).
-/
namespace Sys2Proof.Laws.EncodedLength

/-- The bytes of a well-formed instruction are as many as its first byte settles (R102). -/
def Statement (i : Instr) : Prop := i.WellFormed = true → (encode i).length = lengthOf ((encode i).headD 0)

theorem ldRR (dst src : Reg8) : Statement (.ldRR dst src) := fun _ => by cases dst <;> cases src <;> rfl
theorem ldRN8 (r : Reg8) (n : Byte) : Statement (.ldRN8 r n) := fun _ => by cases r <;> rfl
theorem ldRHl (r : Reg8) : Statement (.ldRHl r) := fun _ => by cases r <;> rfl
theorem ldHlR (r : Reg8) : Statement (.ldHlR r) := fun _ => by cases r <;> rfl
theorem ldHlN8 (n : Byte) : Statement (.ldHlN8 n) := fun _ => rfl
theorem ldABc : Statement (.ldABc) := fun _ => rfl
theorem ldADe : Statement (.ldADe) := fun _ => rfl
theorem ldBcA : Statement (.ldBcA) := fun _ => rfl
theorem ldDeA : Statement (.ldDeA) := fun _ => rfl
theorem ldAA16 (a : Word) : Statement (.ldAA16 a) := fun _ => rfl
theorem ldA16A (a : Word) : Statement (.ldA16A a) := fun _ => rfl
theorem ldhAC : Statement (.ldhAC) := fun _ => rfl
theorem ldhCA : Statement (.ldhCA) := fun _ => rfl
theorem ldhAA8 (n : Byte) : Statement (.ldhAA8 n) := fun _ => rfl
theorem ldhA8A (n : Byte) : Statement (.ldhA8A n) := fun _ => rfl
theorem ldAHld : Statement (.ldAHld) := fun _ => rfl
theorem ldHldA : Statement (.ldHldA) := fun _ => rfl
theorem ldAHli : Statement (.ldAHli) := fun _ => rfl
theorem ldHliA : Statement (.ldHliA) := fun _ => rfl
theorem ldRrN16 (p : PairSp) (n : Word) : Statement (.ldRrN16 p n) := fun _ => by cases p <;> rfl
theorem ldA16Sp (a : Word) : Statement (.ldA16Sp a) := fun _ => rfl
theorem ldSpHl : Statement (.ldSpHl) := fun _ => rfl
theorem pushRr (p : PairAf) : Statement (.pushRr p) := fun _ => by cases p <;> rfl
theorem popRr (p : PairAf) : Statement (.popRr p) := fun _ => by cases p <;> rfl
theorem ldHlSpE8 (e : Byte) : Statement (.ldHlSpE8 e) := fun _ => rfl
theorem addAR (r : Reg8) : Statement (.addAR r) := fun _ => by cases r <;> rfl
theorem addAHl : Statement (.addAHl) := fun _ => rfl
theorem addAN8 (n : Byte) : Statement (.addAN8 n) := fun _ => rfl
theorem adcAR (r : Reg8) : Statement (.adcAR r) := fun _ => by cases r <;> rfl
theorem adcAHl : Statement (.adcAHl) := fun _ => rfl
theorem adcAN8 (n : Byte) : Statement (.adcAN8 n) := fun _ => rfl
theorem subR (r : Reg8) : Statement (.subR r) := fun _ => by cases r <;> rfl
theorem subHl : Statement (.subHl) := fun _ => rfl
theorem subN8 (n : Byte) : Statement (.subN8 n) := fun _ => rfl
theorem sbcAR (r : Reg8) : Statement (.sbcAR r) := fun _ => by cases r <;> rfl
theorem sbcAHl : Statement (.sbcAHl) := fun _ => rfl
theorem sbcAN8 (n : Byte) : Statement (.sbcAN8 n) := fun _ => rfl
theorem andR (r : Reg8) : Statement (.andR r) := fun _ => by cases r <;> rfl
theorem andHl : Statement (.andHl) := fun _ => rfl
theorem andN8 (n : Byte) : Statement (.andN8 n) := fun _ => rfl
theorem xorR (r : Reg8) : Statement (.xorR r) := fun _ => by cases r <;> rfl
theorem xorHl : Statement (.xorHl) := fun _ => rfl
theorem xorN8 (n : Byte) : Statement (.xorN8 n) := fun _ => rfl
theorem orR (r : Reg8) : Statement (.orR r) := fun _ => by cases r <;> rfl
theorem orHl : Statement (.orHl) := fun _ => rfl
theorem orN8 (n : Byte) : Statement (.orN8 n) := fun _ => rfl
theorem cpR (r : Reg8) : Statement (.cpR r) := fun _ => by cases r <;> rfl
theorem cpHl : Statement (.cpHl) := fun _ => rfl
theorem cpN8 (n : Byte) : Statement (.cpN8 n) := fun _ => rfl
theorem incR (r : Reg8) : Statement (.incR r) := fun _ => by cases r <;> rfl
theorem incHl : Statement (.incHl) := fun _ => rfl
theorem decR (r : Reg8) : Statement (.decR r) := fun _ => by cases r <;> rfl
theorem decHl : Statement (.decHl) := fun _ => rfl
theorem daa : Statement (.daa) := fun _ => rfl
theorem cpl : Statement (.cpl) := fun _ => rfl
theorem scf : Statement (.scf) := fun _ => rfl
theorem ccf : Statement (.ccf) := fun _ => rfl
theorem incRr (p : PairSp) : Statement (.incRr p) := fun _ => by cases p <;> rfl
theorem decRr (p : PairSp) : Statement (.decRr p) := fun _ => by cases p <;> rfl
theorem addHlRr (p : PairSp) : Statement (.addHlRr p) := fun _ => by cases p <;> rfl
theorem addSpE8 (e : Byte) : Statement (.addSpE8 e) := fun _ => rfl
theorem rlca : Statement (.rlca) := fun _ => rfl
theorem rrca : Statement (.rrca) := fun _ => rfl
theorem rla : Statement (.rla) := fun _ => rfl
theorem rra : Statement (.rra) := fun _ => rfl
theorem rlcR (r : Reg8) : Statement (.rlcR r) := fun _ => rfl
theorem rlcHl : Statement (.rlcHl) := fun _ => rfl
theorem rrcR (r : Reg8) : Statement (.rrcR r) := fun _ => rfl
theorem rrcHl : Statement (.rrcHl) := fun _ => rfl
theorem rlR (r : Reg8) : Statement (.rlR r) := fun _ => rfl
theorem rlHl : Statement (.rlHl) := fun _ => rfl
theorem rrR (r : Reg8) : Statement (.rrR r) := fun _ => rfl
theorem rrHl : Statement (.rrHl) := fun _ => rfl
theorem slaR (r : Reg8) : Statement (.slaR r) := fun _ => rfl
theorem slaHl : Statement (.slaHl) := fun _ => rfl
theorem sraR (r : Reg8) : Statement (.sraR r) := fun _ => rfl
theorem sraHl : Statement (.sraHl) := fun _ => rfl
theorem swapR (r : Reg8) : Statement (.swapR r) := fun _ => rfl
theorem swapHl : Statement (.swapHl) := fun _ => rfl
theorem srlR (r : Reg8) : Statement (.srlR r) := fun _ => rfl
theorem srlHl : Statement (.srlHl) := fun _ => rfl
theorem bitR (b : Fin 8) (r : Reg8) : Statement (.bitR b r) := fun _ => rfl
theorem bitHl (b : Fin 8) : Statement (.bitHl b) := fun _ => rfl
theorem resR (b : Fin 8) (r : Reg8) : Statement (.resR b r) := fun _ => rfl
theorem resHl (b : Fin 8) : Statement (.resHl b) := fun _ => rfl
theorem setR (b : Fin 8) (r : Reg8) : Statement (.setR b r) := fun _ => rfl
theorem setHl (b : Fin 8) : Statement (.setHl b) := fun _ => rfl
theorem jpA16 (a : Word) : Statement (.jpA16 a) := fun _ => rfl
theorem jpHl : Statement (.jpHl) := fun _ => rfl
theorem jpCc (cc : Cond) (a : Word) : Statement (.jpCc cc a) := fun _ => by cases cc <;> rfl
theorem jrE8 (e : Byte) : Statement (.jrE8 e) := fun _ => rfl
theorem jrCc (cc : Cond) (e : Byte) : Statement (.jrCc cc e) := fun _ => by cases cc <;> rfl
theorem callA16 (a : Word) : Statement (.callA16 a) := fun _ => rfl
theorem callCc (cc : Cond) (a : Word) : Statement (.callCc cc a) := fun _ => by cases cc <;> rfl
theorem ret : Statement (.ret) := fun _ => rfl
theorem retCc (cc : Cond) : Statement (.retCc cc) := fun _ => by cases cc <;> rfl
theorem reti : Statement (.reti) := fun _ => rfl
theorem rstT (t : Fin 8) : Statement (.rstT t) := by
  revert t; unfold Statement; decide
theorem nop : Statement (.nop) := fun _ => rfl
theorem halt : Statement (.halt) := fun _ => rfl
theorem stop (n : Byte) : Statement (.stop n) := fun _ => rfl
theorem di : Statement (.di) := fun _ => rfl
theorem ei : Statement (.ei) := fun _ => rfl
theorem illegal (op : Byte) : Statement (.illegal op) := by
  revert op; unfold Statement; decide
theorem prefixCB (op2 : Byte) : Statement (.prefixCB op2) := fun _ => rfl

end Sys2Proof.Laws.EncodedLength
end

