-- ==== Sys2Proof/Tests/Slice0.lean ====
section
/-!
SUPPORT. The model's own tests: ill-formed terms refused, words of the spec decoded, one step per vector of
95_test_vectors.md or Example of a rule, and a state that meets the hypotheses of each statement.
-/
namespace Sys2Proof.Tests

open Sys2Proof Sys2Proof.Machine Sys2Proof.Claims

/-! ## Helpers -/

/-- The TestBus of 95_test_vectors.md section 1 and the start state of its single-step vectors. -/
def base : State :=
  { State.powerOn { Params.default with bus := .testBus } Draw.zero with
    a := 0, f := 0, b := 0, c := 0, d := 0, e := 0, h := 0, l := 0, iflag := 0, pc := 0x0200 }

/-- Bytes put from address `a` on. -/
def pokeAll (s : State) (a : Word) : List Byte → State
  | [] => s
  | b :: bs => pokeAll (pokeByte s a b) (a + 1) bs

end Sys2Proof.Tests

namespace Sys2Proof.Machine

/-- A state with these cells of memory and these bytes at PC. -/
def State.holding (s : State) (cells : List (Word × Byte)) (bytes : List Byte) : State :=
  Sys2Proof.Tests.pokeAll (cells.foldl (fun t c => pokeByte t c.1 c.2) s) s.pc bytes

end Sys2Proof.Machine

namespace Sys2Proof.Tests

open Sys2Proof Sys2Proof.Machine Sys2Proof.Claims

/-- A step answers a next state, in so many cycles, that passes the check. -/
def goes (s : State) (n : Nat) (p : State → Bool) : Bool :=
  match step s with
  | .next t => t.result == .cycles n && p t
  | _ => false

/-- The decoder reads the instruction from these bytes and leaves none over. -/
def reads (bytes : List Byte) (i : Instr) : Bool :=
  match decode bytes with
  | .ok (j, rest) => j == i && rest.isEmpty
  | .error _ => false

/-! ## Well-formedness -/

/-- A byte that is not illegal (R100) is refused as an illegal opcode, and so is every legal base byte near one. -/
theorem test_wellFormed_illegal :
    (Instr.illegal 0x00).WellFormed = false ∧ (Instr.illegal 0xD2).WellFormed = false ∧
      (Instr.illegal 0xCB).WellFormed = false ∧ (Instr.illegal 0xD3).WellFormed = true := by decide

/-- The prefix alone is refused: its words are a row of the CB map (R99, R102). -/
theorem test_wellFormed_prefix : (Instr.prefixCB 0x00).WellFormed = false ∧ (Instr.nop).WellFormed = true := by decide

/-! ## Decoding: words written out from the patterns of the rules -/

/-- R120-R138. -/
theorem test_decode_loads :
    (reads [0b01000001] (.ldRR .b .c) && reads [0b01111010] (.ldRR .a .d) && reads [0b00111110, 0x42] (.ldRN8 .a 0x42) &&
     reads [0b01000110] (.ldRHl .b) && reads [0b01110111] (.ldHlR .a) && reads [0b00110110, 0x07] (.ldHlN8 0x07) &&
     reads [0b00001010] .ldABc && reads [0b00011010] .ldADe && reads [0b00000010] .ldBcA && reads [0b00010010] .ldDeA &&
     reads [0b11111010, 0x23, 0xC1] (.ldAA16 0xC123) && reads [0b11101010, 0x23, 0xC1] (.ldA16A 0xC123) &&
     reads [0b11110010] .ldhAC && reads [0b11100010] .ldhCA && reads [0b11110000, 0x85] (.ldhAA8 0x85) &&
     reads [0b11100000, 0x0F] (.ldhA8A 0x0F) && reads [0b00111010] .ldAHld && reads [0b00110010] .ldHldA &&
     reads [0b00101010] .ldAHli && reads [0b00100010] .ldHliA) = true := by decide

/-- R139-R144. -/
theorem test_decode_loads16 :
    (reads [0b00110001, 0xFE, 0xFF] (.ldRrN16 .sp 0xFFFE) && reads [0b00001000, 0x00, 0xC0] (.ldA16Sp 0xC000) &&
     reads [0b11111001] .ldSpHl && reads [0b11000101] (.pushRr .bc) && reads [0b11110101] (.pushRr .af) &&
     reads [0b11110001] (.popRr .af) && reads [0b11010001] (.popRr .de) &&
     reads [0b11111000, 0x01] (.ldHlSpE8 0x01)) = true := by decide

/-- R160-R183. -/
theorem test_decode_alu :
    (reads [0b10000000] (.addAR .b) && reads [0b10000110] .addAHl && reads [0b11000110, 0xFF] (.addAN8 0xFF) &&
     reads [0b10001011] (.adcAR .e) && reads [0b10001110] .adcAHl && reads [0b11001110, 0x3B] (.adcAN8 0x3B) &&
     reads [0b10010011] (.subR .e) && reads [0b10010110] .subHl && reads [0b11010110, 0x0F] (.subN8 0x0F) &&
     reads [0b10011100] (.sbcAR .h) && reads [0b10011110] .sbcAHl && reads [0b11011110, 0x3A] (.sbcAN8 0x3A) &&
     reads [0b10100101] (.andR .l) && reads [0b10100110] .andHl && reads [0b11100110, 0x38] (.andN8 0x38) &&
     reads [0b10101111] (.xorR .a) && reads [0b10101110] .xorHl && reads [0b11101110, 0x0F] (.xorN8 0x0F) &&
     reads [0b10110111] (.orR .a) && reads [0b10110110] .orHl && reads [0b11110110, 0x00] (.orN8 0x00) &&
     reads [0b10111000] (.cpR .b) && reads [0b10111110] .cpHl && reads [0b11111110, 0x3C] (.cpN8 0x3C)) = true := by
  decide

/-- R184-R191, R200-R203. -/
theorem test_decode_arithmetic :
    (reads [0b00111100] (.incR .a) && reads [0b00110100] .incHl && reads [0b00101101] (.decR .l) &&
     reads [0b00110101] .decHl && reads [0b00100111] .daa && reads [0b00101111] .cpl && reads [0b00110111] .scf &&
     reads [0b00111111] .ccf && reads [0b00010011] (.incRr .de) && reads [0b00001011] (.decRr .bc) &&
     reads [0b00101001] (.addHlRr .hl) && reads [0b11101000, 0x08] (.addSpE8 0x08)) = true := by decide

/-- R221-R240. -/
theorem test_decode_rotates :
    (reads [0b00000111] .rlca && reads [0b00001111] .rrca && reads [0b00010111] .rla && reads [0b00011111] .rra &&
     reads [0b11001011, 0b00000000] (.rlcR .b) && reads [0b11001011, 0b00000110] .rlcHl &&
     reads [0b11001011, 0b00001001] (.rrcR .c) && reads [0b11001011, 0b00001110] .rrcHl &&
     reads [0b11001011, 0b00010101] (.rlR .l) && reads [0b11001011, 0b00010110] .rlHl &&
     reads [0b11001011, 0b00011111] (.rrR .a) && reads [0b11001011, 0b00011110] .rrHl &&
     reads [0b11001011, 0b00100010] (.slaR .d) && reads [0b11001011, 0b00100110] .slaHl &&
     reads [0b11001011, 0b00101111] (.sraR .a) && reads [0b11001011, 0b00101110] .sraHl &&
     reads [0b11001011, 0b00110111] (.swapR .a) && reads [0b11001011, 0b00110110] .swapHl &&
     reads [0b11001011, 0b00111111] (.srlR .a) && reads [0b11001011, 0b00111110] .srlHl) = true := by decide

/-- R241-R246; every word of the prefix is one of the CB map (R102), so the constructor of the prefix is no decoding. -/
theorem test_decode_bits :
    (reads [0b11001011, 0b01111111] (.bitR 7 .a) && reads [0b11001011, 0b01100101] (.bitR 4 .l) &&
     reads [0b11001011, 0b01000110] (.bitHl 0) && reads [0b11001011, 0b10111111] (.resR 7 .a) &&
     reads [0b11001011, 0b10000110] (.resHl 0) && reads [0b11001011, 0b11011000] (.setR 3 .b) &&
     reads [0b11001011, 0b11111110] (.setHl 7) && encode (.prefixCB 0x00) == [0b11001011, 0b00000000]) = true := by decide

/-- R260-R270. -/
theorem test_decode_control :
    (reads [0b11000011, 0x50, 0x01] (.jpA16 0x0150) && reads [0b11101001] .jpHl &&
     reads [0b11001010, 0x00, 0x30] (.jpCc .z 0x3000) && reads [0b00011000, 0xFE] (.jrE8 0xFE) &&
     reads [0b00100000, 0xFB] (.jrCc .nz 0xFB) && reads [0b11001101, 0x34, 0x12] (.callA16 0x1234) &&
     reads [0b11010100, 0x34, 0x12] (.callCc .nc 0x1234) && reads [0b11001001] .ret && reads [0b11011000] (.retCc .c) &&
     reads [0b11011001] .reti && reads [0b11111111] (.rstT 7) && reads [0b11000111] (.rstT 0)) = true := by decide

/-- R290-R295, R100. -/
theorem test_decode_system :
    (reads [0b00000000] .nop && reads [0b01110110] .halt && reads [0b00010000, 0x5A] (.stop 0x5A) &&
     reads [0b11110011] .di && reads [0b11111011] .ei && reads [0b11010011] (.illegal 0xD3) &&
     reads [0b11111101] (.illegal 0xFD)) = true := by decide

/-- A list that ends before its instruction does is rejected by name (R90). -/
theorem test_decode_truncated :
    (match decode [0xCD, 0x34] with | .error (.truncated 3 2) => true | _ => false) = true ∧
      (match decode [] with | .error (.truncated 1 0) => true | _ => false) = true := by decide

/-- The table's numbering: the first byte is bits 7..0, the second bits 15..8. -/
theorem test_tableWord :
    decodeTableWord 16 0x423E = some (.ldRN8 .a 0x42) ∧ decodeTableWord 8 0xFA = some (.ldAA16 0x0000) := by decide

/-! ## One step per vector -/

/-! ### loads and stack -/

/-- R120. -/
theorem test_ldRR :
    goes (({ base with b := 0x12, c := 0x34 }).holding [] [0x41]) 4 (fun t =>
      t.b == 0x34 && t.c == 0x34 && t.pc == 0x0201) = true := by decide

/-- R121. -/
theorem test_ldRN8 :
    goes (base.holding [] [0x3E, 0x42]) 8 (fun t =>
      t.a == 0x42 && t.pc == 0x0202) = true := by decide

/-- R122. -/
theorem test_ldRHl :
    goes (({ base with h := 0xC0, l := 0x00 }).holding [(0xC000, 0x99)] [0x46]) 8 (fun t =>
      t.b == 0x99 && t.pc == 0x0201) = true := by decide

/-- R122, the destination H. -/
theorem test_ldRHl_2 :
    goes (({ base with h := 0xC0, l := 0x00 }).holding [(0xC000, 0x99)] [0x66]) 8 (fun t =>
      t.h == 0x99 && t.l == 0x00 && t.pc == 0x0201) = true := by decide

/-- R123. -/
theorem test_ldHlR :
    goes (({ base with h := 0xC0, l := 0x10, a := 0x5A }).holding [] [0x77]) 8 (fun t =>
      readByte t 0xC010 == 0x5A && t.pc == 0x0201) = true := by decide

/-- R124. -/
theorem test_ldHlN8 :
    goes (({ base with h := 0xC0, l := 0x00 }).holding [] [0x36, 0x07]) 12 (fun t =>
      readByte t 0xC000 == 0x07 && t.pc == 0x0202) = true := by decide

/-- R125. -/
theorem test_ldABc :
    goes (({ base with b := 0xD0, c := 0x00 }).holding [(0xD000, 0x3C)] [0x0A]) 8 (fun t =>
      t.a == 0x3C && t.pc == 0x0201) = true := by decide

/-- R126. -/
theorem test_ldADe :
    goes (({ base with d := 0xC1, e := 0x00 }).holding [(0xC100, 0x01)] [0x1A]) 8 (fun t =>
      t.a == 0x01 && t.pc == 0x0201) = true := by decide

/-- R127. -/
theorem test_ldBcA :
    goes (({ base with b := 0xC2, c := 0x00, a := 0xAA }).holding [] [0x02]) 8 (fun t =>
      readByte t 0xC200 == 0xAA && t.pc == 0x0201) = true := by decide

/-- R128. -/
theorem test_ldDeA :
    goes (({ base with d := 0xC3, e := 0x00, a := 0x0F }).holding [] [0x12]) 8 (fun t =>
      readByte t 0xC300 == 0x0F && t.pc == 0x0201) = true := by decide

/-- R129. -/
theorem test_ldAA16 :
    goes (base.holding [(0xC123, 0x77)] [0xFA, 0x23, 0xC1]) 16 (fun t =>
      t.a == 0x77 && t.pc == 0x0203) = true := by decide

/-- R130, V-LD-5. -/
theorem test_ldA16A :
    goes (({ base with a := 0x01 }).holding [] [0xEA, 0xFF, 0xFF]) 16 (fun t =>
      t.ie == 0x01 && t.pc == 0x0203) = true := by decide

/-- R131, V-LD-6. -/
theorem test_ldhAC :
    goes (({ base with c := 0x0F, iflag := 0x01 }).holding [] [0xF2]) 8 (fun t =>
      t.a == 0xE1 && t.pc == 0x0201) = true := by decide

/-- R132. -/
theorem test_ldhCA :
    goes (({ base with c := 0x80, a := 0x12 }).holding [] [0xE2]) 8 (fun t =>
      readByte t 0xFF80 == 0x12 && t.pc == 0x0201) = true := by decide

/-- R133. -/
theorem test_ldhAA8 :
    goes (base.holding [(0xFF85, 0x33)] [0xF0, 0x85]) 12 (fun t =>
      t.a == 0x33 && t.pc == 0x0202) = true := by decide

/-- R134. -/
theorem test_ldhA8A :
    goes (({ base with a := 0x04 }).holding [] [0xE0, 0x0F]) 12 (fun t =>
      t.iflag == 0x04 && t.pc == 0x0202) = true := by decide

/-- V-SYS-15. -/
theorem test_ldhA8A_2 :
    goes (({ base with a := 0x1F }).holding [] [0xE0, 0x0F]) 12 (fun t =>
      t.iflag == 0x1F && t.pc == 0x0202) = true := by decide

/-- R135. -/
theorem test_ldAHld :
    goes (({ base with h := 0xC0, l := 0x01 }).holding [(0xC001, 0x44)] [0x3A]) 8 (fun t =>
      t.a == 0x44 && getHL t == 0xC000 && t.pc == 0x0201) = true := by decide

/-- R136. -/
theorem test_ldHldA :
    goes (({ base with h := 0xDF, l := 0xFF, a := 0x00 }).holding [(0xDFFF, 0x77)] [0x32]) 8 (fun t =>
      readByte t 0xDFFF == 0x00 && getHL t == 0xDFFE && t.pc == 0x0201) = true := by decide

/-- R137. -/
theorem test_ldAHli :
    goes (({ base with h := 0xC0, l := 0x00 }).holding [(0xC000, 0x10)] [0x2A]) 8 (fun t =>
      t.a == 0x10 && getHL t == 0xC001 && t.pc == 0x0201) = true := by decide

/-- V-LD-7. -/
theorem test_ldAHli_2 :
    goes (({ base with h := 0xFF, l := 0xFF, ie := 0x1F }).holding [] [0x2A]) 8 (fun t =>
      t.a == 0xFF && getHL t == 0x0000 && t.pc == 0x0201) = true := by decide

/-- R138. -/
theorem test_ldHliA :
    goes (({ base with h := 0xC0, l := 0xFF, a := 0x21 }).holding [] [0x22]) 8 (fun t =>
      readByte t 0xC0FF == 0x21 && getHL t == 0xC100 && t.pc == 0x0201) = true := by decide

/-- R139. -/
theorem test_ldRrN16 :
    goes (({ base with sp := 0x0000 }).holding [] [0x31, 0xFE, 0xFF]) 12 (fun t =>
      t.sp == 0xFFFE && t.pc == 0x0203) = true := by decide

/-- R140. -/
theorem test_ldA16Sp :
    goes (({ base with sp := 0xFFF8 }).holding [] [0x08, 0x00, 0xC0]) 20 (fun t =>
      readByte t 0xC000 == 0xF8 && readByte t 0xC001 == 0xFF && t.pc == 0x0203) = true := by decide

/-- V-LD-9. -/
theorem test_ldA16Sp_2 :
    goes (({ base with sp := 0xABCD }).holding [] [0x08, 0xFF, 0xFF]) 20 (fun t =>
      t.ie == 0x0D && readByte t 0x0000 == 0xAB && t.pc == 0x0203) = true := by decide

/-- R141. -/
theorem test_ldSpHl :
    goes (({ base with h := 0xDF, l := 0xF0 }).holding [] [0xF9]) 8 (fun t =>
      t.sp == 0xDFF0 && t.pc == 0x0201) = true := by decide

/-- R142. -/
theorem test_pushRr :
    goes (({ base with b := 0x12, c := 0x34 }).holding [] [0xC5]) 16 (fun t =>
      readByte t 0xFFFD == 0x12 && readByte t 0xFFFC == 0x34 && t.sp == 0xFFFC && t.pc == 0x0201) = true := by decide

/-- V-LD-10. -/
theorem test_pushRr_2 :
    goes (({ base with sp := 0x0001, b := 0x12, c := 0x34 }).holding [] [0xC5]) 16 (fun t =>
      readByte t 0x0000 == 0x12 && t.ie == 0x14 && t.sp == 0xFFFF && t.pc == 0x0201) = true := by decide

/-- R143, V-LD-12. -/
theorem test_popRr :
    goes (({ base with sp := 0xFFFC }).holding [(0xFFFC, 0xFF), (0xFFFD, 0x12)] [0xF1]) 12 (fun t =>
      t.a == 0x12 && t.f == 0xF0 && t.sp == 0xFFFE && t.pc == 0x0201) = true := by decide

/-- V-LD-11. -/
theorem test_popRr_2 :
    goes (({ base with sp := 0xFFFC }).holding [(0xFFFC, 0x0F)] [0xF1]) 12 (fun t =>
      t.a == 0x00 && t.f == 0x00 && t.sp == 0xFFFE && t.pc == 0x0201) = true := by decide

/-- R144, V-LD-13. -/
theorem test_ldHlSpE8 :
    goes (({ base with sp := 0x00FF }).holding [] [0xF8, 0x01]) 12 (fun t =>
      getHL t == 0x0100 && t.f == 0x30 && t.pc == 0x0202) = true := by decide

/-- V-LD-14. -/
theorem test_ldHlSpE8_2 :
    goes (({ base with sp := 0xFFFF }).holding [] [0xF8, 0x01]) 12 (fun t =>
      getHL t == 0x0000 && t.f == 0x30 && t.sp == 0xFFFF && t.pc == 0x0202) = true := by decide

/-! ### 8-bit arithmetic and logic -/

/-- R160. -/
theorem test_addAR :
    goes (({ base with a := 0x3A, b := 0xC6 }).holding [] [0x80]) 4 (fun t =>
      t.a == 0x00 && t.f == 0xB0 && t.pc == 0x0201) = true := by decide

/-- R161. -/
theorem test_addAHl :
    goes (({ base with a := 0x3C, h := 0xC0, l := 0x00 }).holding [(0xC000, 0x12)] [0x86]) 8 (fun t =>
      t.a == 0x4E && t.f == 0x00 && t.pc == 0x0201) = true := by decide

/-- R162. -/
theorem test_addAN8 :
    goes (({ base with a := 0x3C }).holding [] [0xC6, 0xFF]) 8 (fun t =>
      t.a == 0x3B && t.f == 0x30 && t.pc == 0x0202) = true := by decide

/-- R163. -/
theorem test_adcAR :
    goes (({ base with a := 0xE1, e := 0x0F, f := 0x10 }).holding [] [0x8B]) 4 (fun t =>
      t.a == 0xF1 && t.f == 0x20 && t.pc == 0x0201) = true := by decide

/-- R164. -/
theorem test_adcAHl :
    goes (({ base with a := 0xE1, h := 0xC0, l := 0x00, f := 0x10 }).holding [(0xC000, 0x1E)] [0x8E]) 8 (fun t =>
      t.a == 0x00 && t.f == 0xB0 && t.pc == 0x0201) = true := by decide

/-- R165. -/
theorem test_adcAN8 :
    goes (({ base with a := 0xE1, f := 0x10 }).holding [] [0xCE, 0x3B]) 8 (fun t =>
      t.a == 0x1D && t.f == 0x10 && t.pc == 0x0202) = true := by decide

/-- V-A8-3. -/
theorem test_adcAN8_2 :
    goes (({ base with a := 0x0F, f := 0x10 }).holding [] [0xCE, 0x00]) 8 (fun t =>
      t.a == 0x10 && t.f == 0x20 && t.pc == 0x0202) = true := by decide

/-- R166. -/
theorem test_subR :
    goes (({ base with a := 0x3E, e := 0x3E }).holding [] [0x93]) 4 (fun t =>
      t.a == 0x00 && t.f == 0xC0 && t.pc == 0x0201) = true := by decide

/-- R167. -/
theorem test_subHl :
    goes (({ base with a := 0x3E, h := 0xC0, l := 0x00 }).holding [(0xC000, 0x40)] [0x96]) 8 (fun t =>
      t.a == 0xFE && t.f == 0x50 && t.pc == 0x0201) = true := by decide

/-- R168. -/
theorem test_subN8 :
    goes (({ base with a := 0x3E }).holding [] [0xD6, 0x0F]) 8 (fun t =>
      t.a == 0x2F && t.f == 0x60 && t.pc == 0x0202) = true := by decide

/-- R169. -/
theorem test_sbcAR :
    goes (({ base with a := 0x3B, h := 0x2A, f := 0x10 }).holding [] [0x9C]) 4 (fun t =>
      t.a == 0x10 && t.f == 0x40 && t.pc == 0x0201) = true := by decide

/-- R170. -/
theorem test_sbcAHl :
    goes (({ base with a := 0x3B, h := 0xC0, l := 0x00, f := 0x10 }).holding [(0xC000, 0x4F)] [0x9E]) 8 (fun t =>
      t.a == 0xEB && t.f == 0x70 && t.pc == 0x0201) = true := by decide

/-- R171. -/
theorem test_sbcAN8 :
    goes (({ base with a := 0x3B, f := 0x10 }).holding [] [0xDE, 0x3A]) 8 (fun t =>
      t.a == 0x00 && t.f == 0xC0 && t.pc == 0x0202) = true := by decide

/-- V-A8-6. -/
theorem test_sbcAN8_2 :
    goes (({ base with a := 0x00, f := 0x10 }).holding [] [0xDE, 0xFF]) 8 (fun t =>
      t.a == 0x00 && t.f == 0xF0 && t.pc == 0x0202) = true := by decide

/-- R172. -/
theorem test_andR :
    goes (({ base with a := 0x5A, l := 0x3F }).holding [] [0xA5]) 4 (fun t =>
      t.a == 0x1A && t.f == 0x20 && t.pc == 0x0201) = true := by decide

/-- R173. -/
theorem test_andHl :
    goes (({ base with a := 0x5A, h := 0xC0, l := 0x00 }).holding [] [0xA6]) 8 (fun t =>
      t.a == 0x00 && t.f == 0xA0 && t.pc == 0x0201) = true := by decide

/-- R174. -/
theorem test_andN8 :
    goes (({ base with a := 0x5A }).holding [] [0xE6, 0x38]) 8 (fun t =>
      t.a == 0x18 && t.f == 0x20 && t.pc == 0x0202) = true := by decide

/-- R175. -/
theorem test_xorR :
    goes (({ base with a := 0xFF }).holding [] [0xAF]) 4 (fun t =>
      t.a == 0x00 && t.f == 0x80 && t.pc == 0x0201) = true := by decide

/-- R176. -/
theorem test_xorHl :
    goes (({ base with a := 0xFF, h := 0xC0, l := 0x00 }).holding [(0xC000, 0x8A)] [0xAE]) 8 (fun t =>
      t.a == 0x75 && t.f == 0x00 && t.pc == 0x0201) = true := by decide

/-- R177. -/
theorem test_xorN8 :
    goes (({ base with a := 0xFF }).holding [] [0xEE, 0x0F]) 8 (fun t =>
      t.a == 0xF0 && t.f == 0x00 && t.pc == 0x0202) = true := by decide

/-- R178. -/
theorem test_orR :
    goes (({ base with a := 0x5A }).holding [] [0xB7]) 4 (fun t =>
      t.a == 0x5A && t.f == 0x00 && t.pc == 0x0201) = true := by decide

/-- R179. -/
theorem test_orHl :
    goes (({ base with a := 0x5A, h := 0xC0, l := 0x00 }).holding [(0xC000, 0x0F)] [0xB6]) 8 (fun t =>
      t.a == 0x5F && t.f == 0x00 && t.pc == 0x0201) = true := by decide

/-- R180. -/
theorem test_orN8 :
    goes (({ base with a := 0x00 }).holding [] [0xF6, 0x00]) 8 (fun t =>
      t.a == 0x00 && t.f == 0x80 && t.pc == 0x0202) = true := by decide

/-- R181. -/
theorem test_cpR :
    goes (({ base with a := 0x3C, b := 0x2F }).holding [] [0xB8]) 4 (fun t =>
      t.a == 0x3C && t.f == 0x60 && t.pc == 0x0201) = true := by decide

/-- R182. -/
theorem test_cpHl :
    goes (({ base with a := 0x3C, h := 0xC0, l := 0x00 }).holding [(0xC000, 0x40)] [0xBE]) 8 (fun t =>
      t.a == 0x3C && t.f == 0x50 && t.pc == 0x0201) = true := by decide

/-- R183. -/
theorem test_cpN8 :
    goes (({ base with a := 0x3C }).holding [] [0xFE, 0x3C]) 8 (fun t =>
      t.a == 0x3C && t.f == 0xC0 && t.pc == 0x0202) = true := by decide

/-- R184. -/
theorem test_incR :
    goes (({ base with a := 0xFF }).holding [] [0x3C]) 4 (fun t =>
      t.a == 0x00 && t.f == 0xA0 && t.pc == 0x0201) = true := by decide

/-- V-A8-14. -/
theorem test_incR_2 :
    goes (({ base with a := 0x0F, f := 0x10 }).holding [] [0x3C]) 4 (fun t =>
      t.a == 0x10 && t.f == 0x30 && t.pc == 0x0201) = true := by decide

/-- R185. -/
theorem test_incHl :
    goes (({ base with h := 0xC0, l := 0x00, f := 0x10 }).holding [(0xC000, 0x50)] [0x34]) 12 (fun t =>
      readByte t 0xC000 == 0x51 && t.f == 0x10 && t.pc == 0x0201) = true := by decide

/-- R186. -/
theorem test_decR :
    goes (({ base with l := 0x01 }).holding [] [0x2D]) 4 (fun t =>
      t.l == 0x00 && t.f == 0xC0 && t.pc == 0x0201) = true := by decide

/-- V-A8-16. -/
theorem test_decR_2 :
    goes (({ base with a := 0x10 }).holding [] [0x3D]) 4 (fun t =>
      t.a == 0x0F && t.f == 0x60 && t.pc == 0x0201) = true := by decide

/-- R187. -/
theorem test_decHl :
    goes (({ base with h := 0xC0, l := 0x00 }).holding [] [0x35]) 12 (fun t =>
      readByte t 0xC000 == 0xFF && t.f == 0x60 && t.pc == 0x0201) = true := by decide

/-- R188, V-A8-18. -/
theorem test_daa :
    goes (({ base with a := 0x7D }).holding [] [0x27]) 4 (fun t =>
      t.a == 0x83 && t.f == 0x00 && t.pc == 0x0201) = true := by decide

/-- V-A8-21. -/
theorem test_daa_2 :
    goes (({ base with a := 0x4B, f := 0x60 }).holding [] [0x27]) 4 (fun t =>
      t.a == 0x45 && t.f == 0x40 && t.pc == 0x0201) = true := by decide

/-- R189. -/
theorem test_cpl :
    goes (({ base with a := 0x35 }).holding [] [0x2F]) 4 (fun t =>
      t.a == 0xCA && t.f == 0x60 && t.pc == 0x0201) = true := by decide

/-- R190. -/
theorem test_scf :
    goes (({ base with f := 0xE0 }).holding [] [0x37]) 4 (fun t =>
      t.f == 0x90 && t.pc == 0x0201) = true := by decide

/-- R191. -/
theorem test_ccf :
    goes (({ base with f := 0x30 }).holding [] [0x3F]) 4 (fun t =>
      t.f == 0x00 && t.pc == 0x0201) = true := by decide

/-- V-A8-26. -/
theorem test_ccf_2 :
    goes (({ base with f := 0x80 }).holding [] [0x3F]) 4 (fun t =>
      t.f == 0x90 && t.pc == 0x0201) = true := by decide

/-! ### 16-bit arithmetic -/

/-- R200. -/
theorem test_incRr :
    goes (({ base with d := 0x00, e := 0xFF }).holding [] [0x13]) 8 (fun t =>
      getDE t == 0x0100 && t.f == 0x00 && t.pc == 0x0201) = true := by decide

/-- R201. -/
theorem test_decRr :
    goes (({ base with b := 0x00, c := 0x00 }).holding [] [0x0B]) 8 (fun t =>
      getBC t == 0xFFFF && t.pc == 0x0201) = true := by decide

/-- R202. -/
theorem test_addHlRr :
    goes (({ base with h := 0x8A, l := 0x23, b := 0x06, c := 0x05 }).holding [] [0x09]) 8 (fun t =>
      getHL t == 0x9028 && t.f == 0x20 && t.pc == 0x0201) = true := by decide

/-- V-A16-3. -/
theorem test_addHlRr_2 :
    goes (({ base with h := 0xFF, l := 0xFF, sp := 0x0001, f := 0x80 }).holding [] [0x39]) 8 (fun t =>
      getHL t == 0x0000 && t.f == 0xB0 && t.pc == 0x0201) = true := by decide

/-- R203. -/
theorem test_addSpE8 :
    goes (({ base with sp := 0xFFF8 }).holding [] [0xE8, 0x08]) 16 (fun t =>
      t.sp == 0x0000 && t.f == 0x30 && t.pc == 0x0202) = true := by decide

/-- V-A16-7. -/
theorem test_addSpE8_2 :
    goes (({ base with sp := 0xD000 }).holding [] [0xE8, 0xFE]) 16 (fun t =>
      t.sp == 0xCFFE && t.f == 0x00 && t.pc == 0x0202) = true := by decide

/-! ### rotates, shifts and bits -/

/-- R221. -/
theorem test_rlca :
    goes (({ base with a := 0x85 }).holding [] [0x07]) 4 (fun t =>
      t.a == 0x0B && t.f == 0x10 && t.pc == 0x0201) = true := by decide

/-- V-RS-2. -/
theorem test_rlca_2 :
    goes (({ base with a := 0x00, f := 0x10 }).holding [] [0x07]) 4 (fun t =>
      t.a == 0x00 && t.f == 0x00 && t.pc == 0x0201) = true := by decide

/-- R222. -/
theorem test_rrca :
    goes (({ base with a := 0x3B }).holding [] [0x0F]) 4 (fun t =>
      t.a == 0x9D && t.f == 0x10 && t.pc == 0x0201) = true := by decide

/-- R223. -/
theorem test_rla :
    goes (({ base with a := 0x95, f := 0x10 }).holding [] [0x17]) 4 (fun t =>
      t.a == 0x2B && t.f == 0x10 && t.pc == 0x0201) = true := by decide

/-- V-RS-3. -/
theorem test_rla_2 :
    goes (({ base with a := 0x80 }).holding [] [0x17]) 4 (fun t =>
      t.a == 0x00 && t.f == 0x10 && t.pc == 0x0201) = true := by decide

/-- R224. -/
theorem test_rra :
    goes (({ base with a := 0x81 }).holding [] [0x1F]) 4 (fun t =>
      t.a == 0x40 && t.f == 0x10 && t.pc == 0x0201) = true := by decide

/-- R225. -/
theorem test_rlcR :
    goes (({ base with b := 0x85 }).holding [] [0xCB, 0x00]) 8 (fun t =>
      t.b == 0x0B && t.f == 0x10 && t.pc == 0x0202) = true := by decide

/-- R226. -/
theorem test_rlcHl :
    goes (({ base with h := 0xC0, l := 0x00 }).holding [] [0xCB, 0x06]) 16 (fun t =>
      readByte t 0xC000 == 0x00 && t.f == 0x80 && t.pc == 0x0202) = true := by decide

/-- R227. -/
theorem test_rrcR :
    goes (({ base with c := 0x01 }).holding [] [0xCB, 0x09]) 8 (fun t =>
      t.c == 0x80 && t.f == 0x10 && t.pc == 0x0202) = true := by decide

/-- R228. -/
theorem test_rrcHl :
    goes (({ base with h := 0xC0, l := 0x00 }).holding [] [0xCB, 0x0E]) 16 (fun t =>
      readByte t 0xC000 == 0x00 && t.f == 0x80 && t.pc == 0x0202) = true := by decide

/-- R229. -/
theorem test_rlR :
    goes (({ base with l := 0x80 }).holding [] [0xCB, 0x15]) 8 (fun t =>
      t.l == 0x00 && t.f == 0x90 && t.pc == 0x0202) = true := by decide

/-- R230. -/
theorem test_rlHl :
    goes (({ base with h := 0xC0, l := 0x00 }).holding [(0xC000, 0x11)] [0xCB, 0x16]) 16 (fun t =>
      readByte t 0xC000 == 0x22 && t.f == 0x00 && t.pc == 0x0202) = true := by decide

/-- R231. -/
theorem test_rrR :
    goes (({ base with a := 0x01 }).holding [] [0xCB, 0x1F]) 8 (fun t =>
      t.a == 0x00 && t.f == 0x90 && t.pc == 0x0202) = true := by decide

/-- R232. -/
theorem test_rrHl :
    goes (({ base with h := 0xC0, l := 0x00 }).holding [(0xC000, 0x8A)] [0xCB, 0x1E]) 16 (fun t =>
      readByte t 0xC000 == 0x45 && t.f == 0x00 && t.pc == 0x0202) = true := by decide

/-- R233. -/
theorem test_slaR :
    goes (({ base with d := 0x80 }).holding [] [0xCB, 0x22]) 8 (fun t =>
      t.d == 0x00 && t.f == 0x90 && t.pc == 0x0202) = true := by decide

/-- R234. -/
theorem test_slaHl :
    goes (({ base with h := 0xC0, l := 0x00 }).holding [(0xC000, 0xFF)] [0xCB, 0x26]) 16 (fun t =>
      readByte t 0xC000 == 0xFE && t.f == 0x10 && t.pc == 0x0202) = true := by decide

/-- R235. -/
theorem test_sraR :
    goes (({ base with a := 0x8A }).holding [] [0xCB, 0x2F]) 8 (fun t =>
      t.a == 0xC5 && t.f == 0x00 && t.pc == 0x0202) = true := by decide

/-- R236. -/
theorem test_sraHl :
    goes (({ base with h := 0xC0, l := 0x00 }).holding [(0xC000, 0x01)] [0xCB, 0x2E]) 16 (fun t =>
      readByte t 0xC000 == 0x00 && t.f == 0x90 && t.pc == 0x0202) = true := by decide

/-- R237. -/
theorem test_swapR :
    goes (({ base with a := 0xF0 }).holding [] [0xCB, 0x37]) 8 (fun t =>
      t.a == 0x0F && t.f == 0x00 && t.pc == 0x0202) = true := by decide

/-- R238. -/
theorem test_swapHl :
    goes (({ base with h := 0xC0, l := 0x00 }).holding [] [0xCB, 0x36]) 16 (fun t =>
      readByte t 0xC000 == 0x00 && t.f == 0x80 && t.pc == 0x0202) = true := by decide

/-- R239. -/
theorem test_srlR :
    goes (({ base with a := 0x01 }).holding [] [0xCB, 0x3F]) 8 (fun t =>
      t.a == 0x00 && t.f == 0x90 && t.pc == 0x0202) = true := by decide

/-- R240. -/
theorem test_srlHl :
    goes (({ base with h := 0xC0, l := 0x00 }).holding [(0xC000, 0xFF)] [0xCB, 0x3E]) 16 (fun t =>
      readByte t 0xC000 == 0x7F && t.f == 0x10 && t.pc == 0x0202) = true := by decide

/-- R241. -/
theorem test_bitR :
    goes (({ base with a := 0x80, f := 0x10 }).holding [] [0xCB, 0x7F]) 8 (fun t =>
      t.f == 0x30 && t.pc == 0x0202) = true := by decide

/-- R241. -/
theorem test_bitR_2 :
    goes (({ base with l := 0xEF }).holding [] [0xCB, 0x65]) 8 (fun t =>
      t.f == 0xA0 && t.pc == 0x0202) = true := by decide

/-- R242. -/
theorem test_bitHl :
    goes (({ base with h := 0xC0, l := 0x00 }).holding [(0xC000, 0x01)] [0xCB, 0x46]) 12 (fun t =>
      t.f == 0x20 && readByte t 0xC000 == 0x01 && t.pc == 0x0202) = true := by decide

/-- R243. -/
theorem test_resR :
    goes (({ base with a := 0x80 }).holding [] [0xCB, 0xBF]) 8 (fun t =>
      t.a == 0x00 && t.f == 0x00 && t.pc == 0x0202) = true := by decide

/-- R244. -/
theorem test_resHl :
    goes (({ base with h := 0xC0, l := 0x00 }).holding [(0xC000, 0xFF)] [0xCB, 0x86]) 16 (fun t =>
      readByte t 0xC000 == 0xFE && t.pc == 0x0202) = true := by decide

/-- R245. -/
theorem test_setR :
    goes (({ base with b := 0x00 }).holding [] [0xCB, 0xD8]) 8 (fun t =>
      t.b == 0x08 && t.pc == 0x0202) = true := by decide

/-- R246. -/
theorem test_setHl :
    goes (({ base with h := 0xC0, l := 0x00 }).holding [] [0xCB, 0xFE]) 16 (fun t =>
      readByte t 0xC000 == 0x80 && t.pc == 0x0202) = true := by decide

/-! ### control transfer -/

/-- R260. -/
theorem test_jpA16 :
    goes (({ base with pc := 0x0100 }).holding [] [0xC3, 0x50, 0x01]) 16 (fun t =>
      t.pc == 0x0150) = true := by decide

/-- R261. -/
theorem test_jpHl :
    goes (({ base with h := 0xC0, l := 0x00 }).holding [] [0xE9]) 4 (fun t =>
      t.pc == 0xC000) = true := by decide

/-- R262. -/
theorem test_jpCc :
    goes (({ base with f := 0x80 }).holding [] [0xCA, 0x00, 0x30]) 16 (fun t =>
      t.pc == 0x3000) = true := by decide

/-- R262. -/
theorem test_jpCc_2 :
    goes (({ base with f := 0x00 }).holding [] [0xCA, 0x00, 0x30]) 12 (fun t =>
      t.pc == 0x0203) = true := by decide

/-- R263. -/
theorem test_jrE8 :
    goes (({ base with pc := 0x0100 }).holding [] [0x18, 0x05]) 12 (fun t =>
      t.pc == 0x0107) = true := by decide

/-- V-CT-7. -/
theorem test_jrE8_2 :
    goes (({ base with pc := 0xFFFD }).holding [] [0x18, 0x05]) 12 (fun t =>
      t.pc == 0x0004) = true := by decide

/-- R264. -/
theorem test_jrCc :
    goes (({ base with pc := 0x0105 }).holding [] [0x20, 0xFB]) 12 (fun t =>
      t.pc == 0x0102) = true := by decide

/-- R264. -/
theorem test_jrCc_2 :
    goes (({ base with pc := 0x0105, f := 0x80 }).holding [] [0x20, 0xFB]) 8 (fun t =>
      t.pc == 0x0107) = true := by decide

/-- R265. -/
theorem test_callA16 :
    goes (({ base with pc := 0x0150 }).holding [] [0xCD, 0x34, 0x12]) 24 (fun t =>
      t.pc == 0x1234 && t.sp == 0xFFFC && readByte t 0xFFFD == 0x01 && readByte t 0xFFFC == 0x53) = true := by decide

/-- R266. -/
theorem test_callCc :
    goes (({ base with pc := 0x0150 }).holding [] [0xD4, 0x34, 0x12]) 24 (fun t =>
      t.pc == 0x1234 && t.sp == 0xFFFC) = true := by decide

/-- R266. -/
theorem test_callCc_2 :
    goes (({ base with pc := 0x0150, f := 0x10 }).holding [] [0xD4, 0x34, 0x12]) 12 (fun t =>
      t.pc == 0x0153 && t.sp == 0xFFFE) = true := by decide

/-- R267. -/
theorem test_ret :
    goes (({ base with sp := 0xFFFC }).holding [(0xFFFC, 0x53), (0xFFFD, 0x01)] [0xC9]) 16 (fun t =>
      t.pc == 0x0153 && t.sp == 0xFFFE) = true := by decide

/-- R268. -/
theorem test_retCc :
    goes (({ base with sp := 0xFFFC, f := 0x80 }).holding [(0xFFFC, 0x53), (0xFFFD, 0x01)] [0xC8]) 20 (fun t =>
      t.pc == 0x0153 && t.sp == 0xFFFE) = true := by decide

/-- R268. -/
theorem test_retCc_2 :
    goes (({ base with sp := 0xFFFC }).holding [(0xFFFC, 0x53), (0xFFFD, 0x01)] [0xC8]) 8 (fun t =>
      t.pc == 0x0201 && t.sp == 0xFFFC) = true := by decide

/-- R269. -/
theorem test_reti :
    goes (({ base with sp := 0xFFFC }).holding [(0xFFFC, 0x53), (0xFFFD, 0x01)] [0xD9]) 16 (fun t =>
      t.pc == 0x0153 && t.sp == 0xFFFE && t.ime) = true := by decide

/-- R270. -/
theorem test_rstT :
    goes (base.holding [] [0xFF]) 16 (fun t =>
      t.pc == 0x0038 && t.sp == 0xFFFC && readByte t 0xFFFD == 0x02 && readByte t 0xFFFC == 0x01) = true := by decide

/-- V-CT-16. -/
theorem test_rstT_2 :
    goes (({ base with sp := 0xD000 }).holding [] [0xC7]) 16 (fun t =>
      t.pc == 0x0000 && readByte t 0xCFFF == 0x02 && readByte t 0xCFFE == 0x01) = true := by decide

/-! ### system -/

/-- R290. -/
theorem test_nop :
    goes (({ base with pc := 0x0100 }).holding [] [0x00]) 4 (fun t =>
      t.pc == 0x0101) = true := by decide

/-- V-SYS-2. -/
theorem test_halt :
    goes (({ base with ie := 0x01 }).holding [] [0x76]) 4 (fun t =>
      t.mode == .halt && !t.haltBug && t.pc == 0x0201) = true := by decide

/-- V-SYS-3. -/
theorem test_halt_2 :
    goes (({ base with ie := 0x04, iflag := 0x04 }).holding [] [0x76]) 4 (fun t =>
      t.mode == .run && t.haltBug && t.pc == 0x0201) = true := by decide

/-- R292. -/
theorem test_stop :
    goes (({ base with pc := 0x0150 }).holding [] [0x10, 0x00]) 4 (fun t =>
      t.mode == .stop && t.pc == 0x0152) = true := by decide

/-- R293. -/
theorem test_di :
    goes (({ base with ime := true }).holding [] [0xF3]) 4 (fun t =>
      !t.ime && t.pc == 0x0201) = true := by decide

/-- R294, V-SYS-7. -/
theorem test_ei :
    goes (({ base with ie := 0x01, iflag := 0x01 }).holding [] [0xFB]) 4 (fun t =>
      !t.ime && t.imePending && t.pc == 0x0201) = true := by decide

/-- R295, R340, V-SYS-11: the fault is recorded, PC is past the byte, and no step follows. -/
theorem test_illegal :
    (match step (({ base with pc := 0x0300 }).holding [] [0xD3]) with
     | .next t => t.fault == some ⟨0xD3, 0x0300⟩ && t.pc == 0x0301 && t.result == .fault &&
         (match step t with | .fault (.illegalOpcode 0xD3 0x0300) => true | _ => false)
     | _ => false) = true := by decide

/-- R102, R225, V-RS-7: the prefix runs the row of the CB map. -/
theorem test_prefixCB :
    (match exec (.prefixCB 0x00) { base with b := 0x85 } with
     | .next t => t.b == 0x0B && t.f == 0x10 && t.result == .cycles 8
     | _ => false) = true := by decide

/-! ### interrupts and modes -/

/-- V-SYS-3, step 2: with the HALT bug the opcode and the immediate come from one byte. -/
theorem test_haltBug_fetch :
    goes (({ base with pc := 0x0201, haltBug := true }).holding [] [0x3E, 0x14]) 8 (fun t =>
      t.a == 0x3E && t.pc == 0x0202 && !t.haltBug) = true := by decide

/-- V-SYS-4: HALT after a HALT bug never advances. -/
theorem test_haltBug_halt :
    goes (({ base with pc := 0x0201, haltBug := true, ie := 1, iflag := 1 }).holding [] [0x76]) 4 (fun t =>
      t.haltBug && t.pc == 0x0201) = true := by decide

/-- V-SYS-5, step 3 and S3: a halted core wakes and IF stays. -/
theorem test_halt_wakes :
    goes { base with mode := .halt, ime := true, ie := 4, iflag := 4, pc := 0x0201 } 4 (fun t =>
      t.mode == .run && t.iflag == 4 && t.pc == 0x0201) = true := by decide

/-- V-SYS-5, step 4: the dispatch. -/
theorem test_dispatch :
    goes { base with ime := true, ie := 4, iflag := 4, pc := 0x0201, sp := 0xD000 } 20 (fun t =>
      readByte t 0xCFFF == 0x02 && readByte t 0xCFFE == 0x01 && t.iflag == 0 && !t.ime && t.pc == 0x0050) = true := by
  decide

/-- V-SYS-7, step 2: IME is set at the end of the instruction after EI. -/
theorem test_ei_delay :
    goes (({ base with imePending := true, ie := 1, iflag := 1 }).holding [] [0x00]) 4 (fun t =>
      t.ime && !t.imePending && t.pc == 0x0201) = true := by decide

/-- V-SYS-8, step 2: DI cancels the EI before it. -/
theorem test_ei_di :
    goes (({ base with imePending := true, ie := 1, iflag := 1 }).holding [] [0xF3]) 4 (fun t =>
      !t.ime && !t.imePending) = true := by decide

/-- V-SYS-9, step 3: the dispatch after EI and the HALT bug pushes the address of the HALT. -/
theorem test_dispatch_haltBug :
    goes { base with ime := true, haltBug := true, ie := 1, iflag := 1, pc := 0x0202, sp := 0xD000 } 20 (fun t =>
      readByte t 0xCFFF == 0x02 && readByte t 0xCFFE == 0x01 && t.pc == 0x0040 && !t.haltBug) = true := by decide

/-- V-SYS-10, steps 2 and 3: only `wake_input` ends STOP mode. -/
theorem test_stop_wakes :
    (goes { base with mode := .stop, ie := 1, iflag := 1 } 4 (fun t => t.mode == .stop) &&
     goes { base with mode := .stop, wakeInput := true } 4 (fun t => t.mode == .run)) = true := by decide

/-- V-SYS-12: a push over IE does not change the source chosen. -/
theorem test_dispatch_pushOverIe :
    goes { base with ime := true, ie := 1, iflag := 1, pc := 0x1234, sp := 0x0000 } 20 (fun t =>
      t.ie == 0x12 && readByte t 0xFFFE == 0x34 && t.iflag == 0 && t.pc == 0x0040 && t.sp == 0xFFFE) = true := by decide

/-- V-SYS-13 and V-SYS-14: the lowest bit is served first; IE masks. -/
theorem test_priority :
    (goes { base with ime := true, ie := 0x1F, iflag := 0x18 } 20 (fun t => t.pc == 0x0058 && t.iflag == 0x10) &&
     goes (({ base with ime := true, iflag := 0x1F }).holding [] [0x00]) 4 (fun t => t.pc == 0x0201 && t.iflag == 0x1F))
      = true := by decide

/-! ### the console's bus -/

/-- R69, R62, R70: mirror, unusable region, ROM, and the boot ROM overlay unmapped by 0xFF50. -/
theorem test_console :
    let s := State.reset
    (readByte (memWrite s 0xE123 0x42) 0xC123 == 0x42 && readByte s 0xFEA0 == 0xFF && readByte s 0xFEFF == 0xFF &&
     readByte (memWrite s 0x1000 0x42) 0x1000 == 0x00) = true := by decide

def booting : State := State.powerOn { Params.default with bootRom := some (Vector.replicate 256 0x31) } Draw.zero

theorem test_boot :
    (booting.pc == 0x0000 && readByte booting 0x00FF == 0x31 && readByte booting 0x0100 == 0x00 &&
     readByte (memWrite booting 0xFF50 0x01) 0x00FF == 0x00 &&
     readByte (memWrite booting 0xFF50 0x00) 0x00FF == 0x31) = true := by decide

/-- The console's cartridge RAM enabled. -/
def cartOn : State := { State.reset with cartRamEnabled := true }

/-- R68: the MBC sees a write to cartridge RAM with the latch set, and no read of it; with the latch clear the write is
ignored (R62). -/
theorem test_cartRam :
    (memWrite cartOn 0xA000 0x42).busState = Config.busWrite .console [] 0xA000 0x42 ∧
      readByte (memWrite cartOn 0xA000 0x42) 0xA000 = 0x42 ∧ (afterRead cartOn 0xA000).busState = [] ∧
      (afterRead State.reset 0xBFFF).busState = [] ∧ memWrite State.reset 0xBFFF 0x42 = State.reset :=
  ⟨rfl, rfl, rfl, rfl, rfl⟩

/-- A machine on some other bus (R61). -/
def onOther : State := State.powerOn { Params.default with bus := .supplied 7 } Draw.zero

/-- R61, R71: a supplied bus has every address but IF and IE, through its own two functions. -/
theorem test_suppliedBus :
    memRead onOther 0xC000 =
        ((Config.busRead (.supplied 7) [] 0xC000).1,
          { onOther with busState := (Config.busRead (.supplied 7) [] 0xC000).2 }) ∧
      memWrite onOther 0x0000 0x42 =
        { onOther with busState := Config.busWrite (.supplied 7) [] 0x0000 0x42 } ∧
      readByte onOther 0xFF0F = 0xE1 ∧ readByte onOther 0xFFFF = 0xE0 := ⟨rfl, rfl, rfl, rfl⟩

/-- R72: between steps the devices advance by the cycles the step returned. -/
theorem test_advance :
    (envAct .advance { base with result := .cycles 20 }).busState = Config.busAdvance .testBus [] 20 ∧
      (envAct .advance { base with result := .fault }).busState = Config.busAdvance .testBus [] 0 := ⟨rfl, rfl⟩

/-- R40, R360: State.reset. -/
theorem test_reset :
    (State.reset.pc == 0x0100 && State.reset.sp == 0xFFFE && State.reset.f == 0xB0 && State.reset.a == 0x01 &&
     State.reset.iflag == 1 && State.reset.ie == 0 && !State.reset.ime) = true := by decide

/-! ## Witnesses: a state and operands that meet each statement's hypotheses -/

/-- PairLoads, IncDecPair: a pair that is not SP. -/
theorem witness_PairLoads : PairSp.bc ≠ .sp := by decide

/-- The clauses of a write (StoreToHl and all stores): RAM at both ends of its windows and through the mirror, in a state
whose memory is canonical. -/
theorem witness_BusWritten_ram :
    Memory.wf State.reset.mem = true ∧ busTarget State.reset 0x8000 = .ram 0x8000 ∧
      busTarget State.reset 0xFDFF = .ram 0xDDFF ∧ busTarget State.reset 0xFF80 = .ram 0xFF80 ∧
      busTarget State.reset 0xFFFE = .ram 0xFFFE ∧ busTarget base 0x0000 = .ram 0x0000 := by decide

/-- The other clauses of a write: IF, IE, the boot ROM's latch, KEY1 with a speed switch, a device, ROM, and a byte that
none of them reaches. -/
theorem witness_BusWritten_other :
    busTarget State.reset 0xFF0F = .ifReg ∧ busTarget State.reset 0xFFFF = .ieReg ∧
      busTarget State.reset 0xFF50 = .bootLatch ∧
      busTarget (State.powerOn { Params.default with speedSwitch := true } Draw.zero) 0xFF4D = .key1 ∧
      busTarget State.reset 0xFF4D = .device ∧ busTarget State.reset 0x7FFF = .rom 0x7FFF ∧
      busTarget booting 0x00FF = .boot 0x31 ∧ bootByte booting 0x0100 = none ∧
      (busTarget State.reset 0xC000).isFree = false ∧ (busTarget State.reset 0xFF00).isFree = true := by decide

/-- Two bytes outside each other (the frame of every store). -/
theorem witness_SameByte : ¬ SameByte State.reset 0xC000 0xC001 := by
  rintro (h | ⟨n, h1, h2⟩)
  · exact absurd h (by decide)
  · rw [show busTarget State.reset 0xC000 = .ram 0xC000 by decide] at h1
    rw [show busTarget State.reset 0xC001 = .ram 0xC001 by decide, ← h1] at h2
    exact absurd h2 (by decide)

/-- IncDecByte, the forms on (HL): the byte and its two neighbours, at both wraps. -/
theorem witness_IncDecByte :
    let s := { base with h := 0xC0 }
    (0x00 : Byte) = readByte s (getHL s) ∧ (0x01 : Byte).toNat = ((0x00 : Byte).toNat + 1) % 256 ∧
      (0xFF : Byte).toNat = ((0x00 : Byte).toNat + 255) % 256 ∧
      (0x00 : Byte).toNat = ((0xFF : Byte).toNat + 1) % 256 := by decide

/-- DecimalAdjust: N clear and N set. -/
theorem witness_DecimalAdjust : flagN base = false ∧ flagN { base with f := 0x40 } = true := by decide

/-- BcdAddition: 99 + 99, where both adjustments and the carry are needed. -/
theorem witness_BcdAddition :
    let s := { base with a := 0x99, b := 0x99 }
    (s.a.toNat % 16 < 10 ∧ s.a.toNat / 16 < 10) ∧ ((getR8 s .b).toNat % 16 < 10 ∧ (getR8 s .b).toNat / 16 < 10) ∧
      (match exec (.addAR .b) s with
       | .next t => (match exec .daa t with | .next u => u.a == 0x98 && flagC u | _ => false)
       | _ => false) = true := by decide

/-- Jumps, Calls, Returns: a condition that holds and one that does not, for each of the four. -/
theorem witness_Conditions :
    condBit base .nz = true ∧ condBit base .z = false ∧ condBit base .nc = true ∧ condBit base .c = false ∧
      condBit { base with f := 0x90 } .nz = false ∧ condBit { base with f := 0x90 } .z = true ∧
      condBit { base with f := 0x90 } .nc = false ∧ condBit { base with f := 0x90 } .c = true := by decide

/-- HaltEntersOrArmsBug: the bug's condition met at the lowest and the highest source, and not met. -/
theorem witness_HaltEntersOrArmsBug :
    (base.ime = false ∧ (∃ k : Fin 5, (0x11 : BitVec 5).getLsbD k.val = true ∧ (0x10 : Byte).getLsbD k.val = true)) ∧
      ¬ (∃ k : Fin 5, base.iflag.getLsbD k.val = true ∧ base.ie.getLsbD k.val = true) := by decide

/-- A CGB with a speed switch, whose KEY1 has bit 0 set. -/
def switching : State := { State.powerOn { Params.default with speedSwitch := true } Draw.zero with key1 := 0x01 }

/-- StopEntersStopMode: the speed switch absent, present with KEY1 bit 0 clear, and present with it set. -/
theorem witness_StopEntersStopMode :
    base.params.speedSwitch = false ∧
      (State.powerOn { Params.default with speedSwitch := true } Draw.zero).params.speedSwitch = true ∧
      (State.powerOn { Params.default with speedSwitch := true } Draw.zero).key1.getLsbD 0 = false ∧
      switching.params.speedSwitch = true ∧ switching.key1.getLsbD 0 = true := by decide

/-- D14: with KEY1 bit 0 set the free function decides the new KEY1. -/
theorem test_stop_switch :
    (match exec (.stop 0x00) switching with | .next t => t.key1 | _ => 0) = (Config.speedSwitch 0x01).key1 := rfl

/-- IllegalRecordsFault: the first and the last of the eleven bytes. -/
theorem witness_IllegalRecordsFault :
    (0xD3 : Byte).toNat ∈ [0xD3, 0xDB, 0xDD, 0xE3, 0xE4, 0xEB, 0xEC, 0xED, 0xF4, 0xFC, 0xFD] ∧
      (0xFD : Byte).toNat ∈ [0xD3, 0xDB, 0xDD, 0xE3, 0xE4, 0xEB, 0xEC, 0xED, 0xF4, 0xFC, 0xFD] := by decide

/-- A state that executes `LD A,0x42` next. -/
def executing : State := base.holding [] [0x3E, 0x42]

/-- StepRunsDecodedInstruction. -/
theorem witness_StepRunsDecodedInstruction :
    Executes executing ∧ executing.haltBug = false ∧
      reads ([readByte executing executing.pc, readByte executing (executing.pc + 1)]) (.ldRN8 .a 0x42) = true ∧
      (∀ k < 3, (busTarget executing (executing.pc + BitVec.ofNat 16 k)).isFree = false) := by
  refine ⟨⟨by decide, by decide, .inl (by decide)⟩, by decide, by decide, by decide⟩

/-- The decoding hypothesis of StepRunsDecodedInstruction and of HaltBugReadsTheByteTwice, as they write it. -/
theorem witness_decode :
    decode [0x3E, 0x42, 0x00] = .ok (.ldRN8 .a 0x42, [0x00]) ∧ decode [0x3E, 0x3E, 0x14] = .ok (.ldRN8 .a 0x3E, [0x14]) :=
  ⟨rfl, rfl⟩

/-- HaltBugReadsTheByteTwice. -/
theorem witness_HaltBugReadsTheByteTwice :
    let s := { executing with haltBug := true }
    s.fault = none ∧ s.mode = .run ∧ s.ime = false ∧ s.haltBug = true ∧ readByte s s.pc = 0x3E ∧
      (∀ k < 2, (busTarget s (s.pc + BitVec.ofNat 16 k)).isFree = false) := by decide

/-- StepDispatchesInterrupt, for the lowest and the highest source; after a HALT bug too. -/
theorem witness_StepDispatchesInterrupt :
    let s := { base with ime := true, ie := 0x1F, iflag := 0x1F }
    let t := { base with ime := true, ie := 0x10, iflag := 0x1F, haltBug := true }
    (s.fault = none ∧ s.mode = .run ∧ s.ime = true ∧ s.iflag.getLsbD 0 = true ∧ s.ie.getLsbD 0 = true) ∧
      (t.fault = none ∧ t.mode = .run ∧ t.ime = true ∧ t.iflag.getLsbD 4 = true ∧ t.ie.getLsbD 4 = true ∧
        ∀ j : Fin 5, j < 4 → ¬ (t.iflag.getLsbD j.val = true ∧ t.ie.getLsbD j.val = true)) := by decide

/-- InterruptController: a source taken, and none pending. -/
theorem witness_InterruptController :
    (takePending { base with ie := 0x10, iflag := 0x1F }).1 = some 4 ∧ pending base = 0 := by decide

/-- HaltModeStep, StopModeStep, FaultIsFinal. -/
theorem witness_modes :
    let h := { base with mode := .halt }
    let p := { base with mode := .stop }
    let f := { base with fault := some ⟨0xD3, 0x0300⟩ }
    (h.fault = none ∧ h.mode = .halt) ∧ (p.fault = none ∧ p.mode = .stop ∧ p.wakeInput = false) ∧
      f.fault = some ⟨0xD3, 0x0300⟩ ∧ step (requestInterrupt 0 p) =
        .next { requestInterrupt 0 p with result := .cycles 4 } :=
  ⟨by decide, by decide, by decide, rfl⟩

/-- EiDelay: NOP, with `ime_pending` clear and set; DI, with it set; EI, with it clear. -/
theorem witness_EiDelay :
    let s := base.holding [] [0x00]
    let d := { base with imePending := true }.holding [] [0xF3]
    let e := base.holding [] [0xFB]
    Executes s ∧ s.imePending = false ∧ (fetchInstr s).1 = .nop ∧ (fetchInstr d).1 = .di ∧ (fetchInstr e).1 = .ei ∧
      e.imePending = false ∧
      (match exec (fetchInstr d).1 (fetchInstr d).2 with | .next u => !u.imePending | _ => false) = true ∧
      (match exec (fetchInstr s).1 { (fetchInstr s).2 with imePending := true } with
       | .next u => u.imePending && u.fault.isNone | _ => false) = true := by
  refine ⟨⟨by decide, by decide, .inl (by decide)⟩, by decide, by decide, by decide, by decide, by decide, by decide,
    by decide⟩

/-- StepKeepsInvariant, HostActionsKeepInvariant, EveryStepCompletes: a state that meets `Inv` and steps. -/
theorem witness_Inv : Inv executing ∧ executing.fault = none ∧ goes executing 8 (fun _ => true) = true :=
  ⟨⟨by decide, by decide, fun _ => by decide, fun h => absurd (by decide) h, fun h => absurd (by decide) h,
    fun h => absurd h (by decide), by decide⟩, by decide, by decide⟩

/-- A halted state that meets `Inv`: its clauses about HALT and STOP mode are met too, and that of a mapped boot ROM. -/
theorem witness_Inv_idle :
    Inv { base with mode := .halt } ∧ Inv { base with mode := .stop } ∧ booting.bootMapped = true ∧
      booting.params.bootRom.isSome = true :=
  ⟨⟨by decide, by decide, fun _ => by decide, fun _ => by decide, fun _ => by decide, fun h => absurd h (by decide),
    by decide⟩,
   ⟨by decide, by decide, fun _ => by decide, fun _ => by decide, fun _ => by decide, fun h => absurd h (by decide),
    by decide⟩, by decide, by decide⟩

/-- HostActionsKeepInvariant, FaultIsFinal, HaltedForGood: an action that is not a reset. -/
theorem witness_action : ∀ draw, EnvAction.request 0 ≠ .reset draw := fun _ h => by cases h

/-- ModeTransitions: HALT and STOP fetched in RUN enter their modes; each idle mode steps. -/
theorem witness_ModeTransitions :
    (goes (base.holding [] [0x76]) 4 (fun t => t.mode == .halt) &&
     goes (base.holding [] [0x10, 0x00]) 4 (fun t => t.mode == .stop) &&
     goes { base with mode := .halt } 4 (fun t => t.mode == .halt) &&
     goes { base with mode := .stop } 4 (fun t => t.mode == .stop)) = true := by decide

/-- HaltedForGood. -/
theorem witness_HaltedForGood : runEnd { base with mode := .halt, iflag := 0x1F } = some .haltedForGood := by decide

/-- StoppedUntilWoken: stopped, and about to wake. -/
theorem witness_StoppedUntilWoken :
    runEnd { base with mode := .stop } = some .stopped ∧ runEnd { base with mode := .stop, wakeInput := true } = none ∧
      EnvAction.advance ≠ .wake true ∧ EnvAction.wake false ≠ .wake true := by decide

/-- StoreThenLoad: the same byte by the mirror, another byte, and a byte of ROM. -/
theorem witness_StoreThenLoad :
    Memory.wf State.reset.mem = true ∧ busTarget State.reset 0xC000 = .ram 0xC000 ∧
      busTarget State.reset 0xE000 = .ram 0xC000 ∧ busTarget State.reset 0xC001 ≠ .ram 0xC000 ∧
      busTarget State.reset 0x0000 ≠ .ram 0xC000 ∧ (busTarget State.reset 0x0000).isFree = false := by decide

/-- InterruptRegistersOnTheBus: both values of `IE_UPPER_READ`. -/
theorem witness_InterruptRegistersOnTheBus :
    base.params.ieUpper = .ones ∧
      (State.powerOn { Params.default with ieUpper := .stored } Draw.zero).params.ieUpper = .stored := by decide

/-- ConsoleMap: the first and the last address of each of its windows, with cartridge RAM off and on, and the boot ROM
mapped and not. -/
theorem witness_ConsoleMap :
    State.reset.params.bus = .console ∧ State.reset.cartRamEnabled = false ∧ cartOn.params.bus = .console ∧
      cartOn.cartRamEnabled = true ∧
      (0x8000 ≤ (0x8000 : Word).toNat ∧ (0x9FFF : Word).toNat < 0xA000) ∧
      (0xA000 ≤ (0xA000 : Word).toNat ∧ (0xBFFF : Word).toNat < 0xC000) ∧
      (0xC000 ≤ (0xC000 : Word).toNat ∧ (0xDFFF : Word).toNat < 0xE000) ∧
      (0xE000 ≤ (0xE000 : Word).toNat ∧ (0xFDFF : Word).toNat < 0xFE00) ∧
      (0xFE00 ≤ (0xFE00 : Word).toNat ∧ (0xFE9F : Word).toNat < 0xFEA0) ∧
      (0xFEA0 ≤ (0xFEA0 : Word).toNat ∧ (0xFEFF : Word).toNat < 0xFF00) ∧
      (0xFF00 ≤ (0xFF00 : Word).toNat ∧ (0xFF7F : Word).toNat < 0xFF80 ∧ (0xFF7F : Word) ≠ 0xFF0F ∧
        (0xFF7F : Word) ≠ 0xFF50 ∧ ¬ ((0xFF7F : Word) = 0xFF4D ∧ State.reset.params.speedSwitch = true)) ∧
      (0xFF80 ≤ (0xFF80 : Word).toNat ∧ (0xFFFE : Word).toNat < 0xFFFF) ∧
      ((0x7FFF : Word).toNat < 0x8000 ∧ State.reset.bootMapped = false ∧ 0x100 ≤ (0x0100 : Word).toNat) := by decide

/-- BootRomOverlay: mapped and unmapped, at both ends of the window. -/
theorem witness_BootRomOverlay :
    booting.params.bus = .console ∧ booting.params.bootRom = some (Vector.replicate 256 0x31) ∧
      booting.bootMapped = true ∧ (memWrite booting 0xFF50 0x01).bootMapped = false ∧ 0 < 256 ∧ 255 < 256 ∧
      (0xFF4F : Word) ≠ 0xFF50 ∧ (0x01 : Byte) ≠ 0 ∧
      goes { memWrite booting 0xFF50 0x01 with pc := 0xC000 } 4 (fun _ => true) = true :=
  ⟨rfl, rfl, rfl, rfl, by decide, by decide, by decide, by decide, by decide⟩

/-- ResetValues: with a boot ROM, without one, with a value of `POST_BOOT_REGS`, and a file of the right size. -/
theorem witness_ResetValues :
    booting.params.bootRom ≠ none ∧ Params.default.bootRom = none ∧ Params.default.postBoot = none ∧
      ({ Params.default with postBoot := some dmgChecksumZero }).bootRom = none ∧
      (State.powerOn { Params.default with postBoot := some dmgChecksumZero } Draw.zero).f = 0x80 ∧
      (List.replicate 256 (0x31 : Byte)).length = 256 :=
  ⟨Option.some_ne_none (Vector.replicate 256 0x31), rfl, rfl, rfl, by decide, List.length_replicate⟩

/-- DecodeOfEncode. -/
theorem witness_DecodeOfEncode : (Instr.callCc .c 0x1234).WellFormed = true := by decide

end Sys2Proof.Tests
end

section
/-!
SUPPORT. What the meaning of an instruction can do to the parts of the state that the invariant speaks of, and the
statements of 10_state.md: the invariant's step (O45), IF and IE on the bus (O53), reset (O56).
-/
namespace Sys2Proof.Proofs

open Sys2Proof.Machine

/-! ## Relations between the state before and after an operation -/

/-- The invariant's clauses on F, memory, IE and the boot ROM carry over from `s` to `t` (R22, R32, R70). -/
structure StorageKept (s t : State) : Prop where
  params : t.params = s.params
  lowNibble : s.f &&& 0x0F = 0 → t.f &&& 0x0F = 0
  memory : Memory.wf s.mem = true → Memory.wf t.mem = true
  ieUpper : s.params.ieUpper = .ones → s.ie &&& 0xE0 = 0 → t.ie &&& 0xE0 = 0
  bootMapped : t.bootMapped = true → s.bootMapped = true

/-- An operation that changes neither the mode nor the HALT bug flag nor the recorded fault, and keeps the storage. -/
structure Proceeds (s t : State) : Prop extends StorageKept s t where
  mode : t.mode = s.mode
  haltBug : t.haltBug = s.haltBug
  fault : t.fault = s.fault

variable {s t u : State}

theorem StorageKept.refl (s : State) : StorageKept s s := ⟨rfl, id, id, fun _ => id, id⟩

theorem Proceeds.refl (s : State) : Proceeds s s := ⟨.refl s, rfl, rfl, rfl⟩

theorem StorageKept.trans (h : StorageKept s t) (h' : StorageKept t u) : StorageKept s u where
  params := h'.params.trans h.params
  lowNibble := h'.lowNibble ∘ h.lowNibble
  memory := h'.memory ∘ h.memory
  ieUpper hp hs := h'.ieUpper (h.params ▸ hp) (h.ieUpper hp hs)
  bootMapped := h.bootMapped ∘ h'.bootMapped

theorem Proceeds.trans (h : Proceeds s t) (h' : Proceeds t u) : Proceeds s u :=
  ⟨h.toStorageKept.trans h'.toStorageKept, h'.mode.trans h.mode, h'.haltBug.trans h.haltBug, h'.fault.trans h.fault⟩

/-- Updates of other fields than F, memory, IE, the boot ROM's latch and the parameters keep the storage; of F they may
change the flags. The `simp` lemmas of the state find the equations. -/
theorem StorageKept.ofFrame (hp : t.params = s.params := by simp)
    (hf : s.f &&& 0x0F = 0 → t.f &&& 0x0F = 0 := by simp) (hm : t.mem = s.mem := by simp)
    (hi : t.ie = s.ie := by simp) (hb : t.bootMapped = s.bootMapped := by simp) : StorageKept s t :=
  ⟨hp, hf, fun h => hm ▸ h, fun _ h => hi ▸ h, fun h => hb ▸ h⟩

/-- As `StorageKept.ofFrame`, as one more operation after `t`. -/
theorem Proceeds.frame (h : Proceeds s t) (hk : StorageKept t u := by exact .ofFrame)
    (hm : u.mode = t.mode := by simp) (hb : u.haltBug = t.haltBug := by simp)
    (hf : u.fault = t.fault := by simp) : Proceeds s u :=
  h.trans ⟨hk, hm, hb, hf⟩

/-! ## One rule per operation of the state -/

theorem memWrite_storageKept (s : State) (x : Word) (v : Byte) : StorageKept s (memWrite s x v) where
  params := memWrite_params s x v
  lowNibble h := by rwa [memWrite_f]
  memory h := memWrite_mem_wf h x v
  ieUpper hp h := memWrite_ieUpper (fun _ => h) x v hp
  bootMapped := memWrite_bootMapped

protected theorem Proceeds.memWrite (h : Proceeds s t) (x : Word) (v : Byte) : Proceeds s (memWrite t x v) :=
  h.frame (memWrite_storageKept t x v)

protected theorem Proceeds.afterRead (h : Proceeds s t) (x : Word) : Proceeds s (afterRead t x) := h.frame

protected theorem Proceeds.setR8 (h : Proceeds s t) (r : Reg8) (v : Byte) : Proceeds s (setR8 t r v) := h.frame

protected theorem Proceeds.setHL (h : Proceeds s t) (v : Word) : Proceeds s (setHL t v) := h.frame

protected theorem Proceeds.setPairSp (h : Proceeds s t) (p : PairSp) (v : Word) : Proceeds s (setPairSp t p v) :=
  h.frame

protected theorem Proceeds.setPairAf (h : Proceeds s t) (p : PairAf) (v : Word) : Proceeds s (setPairAf t p v) :=
  h.frame (.ofFrame (hf := (setPairAf_lowNibble · p v)))

protected theorem Proceeds.setZNHC (h : Proceeds s t) (z n hc c : Option Bool) :
    Proceeds s (setZNHC t z n hc c) :=
  h.frame (.ofFrame (hf := fun _ => setZNHC_lowNibble t z n hc c))

protected theorem Proceeds.setSpOffsetFlags (h : Proceeds s t) (sp : Word) (e : Byte) :
    Proceeds s (setSpOffsetFlags sp e t) :=
  h.setZNHC _ _ _ _

protected theorem Proceeds.bitTest (h : Proceeds s t) (b : Fin 8) (v : Byte) : Proceeds s (bitTest b v t) :=
  h.setZNHC _ _ _ _

protected theorem Proceeds.aluExec (h : Proceeds s t) (op : AluOp) (v : Byte) : Proceeds s (aluExec op v t) :=
  h.frame (.ofFrame (hf := fun _ => aluExec_lowNibble op v t))

protected theorem Proceeds.loadA (h : Proceeds s t) (x : Word) : Proceeds s (loadA x t) := h.frame

protected theorem Proceeds.setPc (h : Proceeds s t) (a : Word) : Proceeds s { t with pc := a } := h.frame

protected theorem Proceeds.setIme (h : Proceeds s t) (b : Bool) : Proceeds s { t with ime := b } := h.frame

protected theorem Proceeds.pop16 (h : Proceeds s t) : Proceeds s (pop16 t).2 := h.frame

protected theorem Proceeds.returnPop (h : Proceeds s t) : Proceeds s (returnPop t) := h.pop16.setPc _

protected theorem Proceeds.modifyHl (h : Proceeds s t) (g : Byte → Byte) : Proceeds s (modifyHl g t) :=
  (h.afterRead _).memWrite _ _

protected theorem Proceeds.push16 (h : Proceeds s t) (v : Word) : Proceeds s (push16 v t) := by
  rw [push16_eq]
  exact ((h.memWrite (t.sp - 1) (hiByte v)).memWrite (t.sp - 2) (loByte v)).frame

protected theorem Proceeds.callTo (h : Proceeds s t) (a : Word) : Proceeds s (callTo a t) :=
  (h.push16 _).setPc _

/-! ## What the meaning of an instruction can do -/

/-- The outcome of an instruction that ends normally and stays in the flow of RUN. -/
def Completes (s : State) (o : StepOutcome) : Prop := ∃ n t, o = doneIn n t ∧ Proceeds s t

theorem Proceeds.completes (h : Proceeds s t) (n : Nat) : Completes s (doneIn n t) := ⟨n, t, rfl, h⟩

protected theorem Completes.ite {p : Prop} [Decidable p] {o o' : StepOutcome} (h : Completes s o)
    (h' : Completes s o') : Completes s (if p then o else o') := by
  split
  · exact h
  · exact h'

theorem aluReg_completes (op : AluOp) (r : Reg8) (s : State) : Completes s (aluReg op r s) :=
  ((Proceeds.refl s).aluExec _ _).completes _

theorem aluHl_completes (op : AluOp) (s : State) : Completes s (aluHl op s) :=
  (((Proceeds.refl s).afterRead _).aluExec _ _).completes _

theorem aluImm_completes (op : AluOp) (n : Byte) (s : State) : Completes s (aluImm op n s) :=
  ((Proceeds.refl s).aluExec _ _).completes _

theorem rotReg_completes (kind : RotKind) (r : Reg8) (s : State) : Completes s (rotReg kind r s) :=
  (((Proceeds.refl s).setR8 _ _).setZNHC _ _ _ _).completes _

theorem rotHl_completes (kind : RotKind) (s : State) : Completes s (rotHl kind s) :=
  ((((Proceeds.refl s).afterRead _).memWrite _ _).setZNHC _ _ _ _).completes _

theorem execPrefixCB_completes (op2 : Byte) (s : State) : Completes s (execPrefixCB op2 s) := by
  unfold execPrefixCB
  split
  · exact rotReg_completes _ _ s
  · exact rotHl_completes _ s
  · exact ((Proceeds.refl s).bitTest _ _).completes _
  · exact (((Proceeds.refl s).afterRead _).bitTest _ _).completes _
  · exact ((Proceeds.refl s).setR8 _ _).completes _
  · exact ((Proceeds.refl s).modifyHl _).completes _
  · exact ((Proceeds.refl s).setR8 _ _).completes _
  · exact ((Proceeds.refl s).modifyHl _).completes _

/-- The instructions that can change the mode, set the HALT bug flag or raise (R291, R292, R295). -/
def leavesFlow : Instr → Bool
  | .halt => true
  | .stop _ => true
  | .illegal _ => true
  | _ => false

/-- Every other instruction completes. -/
theorem exec_completes {i : Instr} (hi : leavesFlow i = false) (s : State) : Completes s (exec i s) := by
  have same : Proceeds s s := .refl s
  cases i with
  | halt | stop | illegal => cases hi
  | ldRR | ldRN8 | resR | setR => exact (same.setR8 _ _).completes _
  | ldRHl => exact ((same.afterRead _).setR8 _ _).completes _
  | ldHlR | ldHlN8 | ldBcA | ldDeA | ldA16A | ldhCA | ldhA8A => exact (same.memWrite _ _).completes _
  | ldABc | ldADe | ldAA16 | ldhAC | ldhAA8 => exact (same.loadA _).completes _
  | ldAHld | ldAHli => exact ((same.loadA _).setHL _).completes _
  | ldHldA | ldHliA => exact ((same.memWrite _ _).setHL _).completes _
  | ldRrN16 | incRr | decRr => exact (same.setPairSp _ _).completes _
  | ldA16Sp => exact ((same.memWrite _ _).memWrite _ _).completes _
  | pushRr => exact (same.push16 _).completes _
  | popRr => exact (same.pop16.setPairAf _ _).completes _
  | ldHlSpE8 => exact ((same.setHL _).setSpOffsetFlags _ _).completes _
  | addSpE8 => exact (same.frame.setSpOffsetFlags _ _).completes _
  | addHlRr => exact ((same.setHL _).setZNHC _ _ _ _).completes _
  | addAR | adcAR | subR | sbcAR | andR | xorR | orR | cpR => exact aluReg_completes _ _ s
  | addAHl | adcAHl | subHl | sbcAHl | andHl | xorHl | orHl | cpHl => exact aluHl_completes _ s
  | addAN8 | adcAN8 | subN8 | sbcAN8 | andN8 | xorN8 | orN8 | cpN8 => exact aluImm_completes _ _ s
  | incR | decR | rlcR | rrcR | rlR | rrR | slaR | sraR | swapR | srlR =>
    exact ((same.setR8 _ _).setZNHC _ _ _ _).completes _
  | incHl | decHl | rlcHl | rrcHl | rlHl | rrHl | slaHl | sraHl | swapHl | srlHl =>
    exact (((same.afterRead _).memWrite _ _).setZNHC _ _ _ _).completes _
  | daa | cpl | rlca | rrca | rla | rra => exact (same.frame.setZNHC _ _ _ _).completes _
  | scf | ccf => exact (same.setZNHC _ _ _ _).completes _
  | bitR => exact (same.bitTest _ _).completes _
  | bitHl => exact ((same.afterRead _).bitTest _ _).completes _
  | resHl | setHl => exact (same.modifyHl _).completes _
  | jpCc | jrCc => exact .ite ((same.setPc _).completes _) (same.completes _)
  | callA16 | rstT => exact (same.callTo _).completes _
  | callCc => exact .ite ((same.callTo _).completes _) (same.completes _)
  | ret => exact same.returnPop.completes _
  | reti => exact (same.returnPop.setIme _).completes _
  | retCc => exact .ite (same.returnPop.completes _) (same.completes _)
  | nop => exact same.completes _
  | jpA16 | jpHl | jrE8 => exact (same.setPc _).completes _
  | ldSpHl | di | ei => exact same.frame.completes _
  | prefixCB op2 => exact execPrefixCB_completes op2 s

/-- The forms an instruction's outcome has: it completes, it arms the HALT bug, it sets the mode, or it raises. -/
inductive MeaningOutcome (s : State) : StepOutcome → Prop
  | completes {o : StepOutcome} (h : Completes s o) : MeaningOutcome s o
  | armsHaltBug (n : Nat) : MeaningOutcome s (doneIn n { s with haltBug := true })
  | setsMode (n : Nat) (m : Mode) (d : Bool) (k : Byte) :
      MeaningOutcome s (doneIn n { s with mode := m, doubleSpeed := d, key1 := k })
  | raises (op : Byte) (addr : Word) : MeaningOutcome s (raiseIllegal op addr s)

theorem execHalt_outcome (s : State) : MeaningOutcome s (execHalt s) := by
  unfold execHalt
  split
  · exact .armsHaltBug 4
  · exact .setsMode 4 .halt s.doubleSpeed s.key1

theorem execStop_outcome (n : Byte) (s : State) : MeaningOutcome s (execStop n s) := by
  unfold execStop
  split
  · exact .setsMode 4 _ _ _
  · exact .setsMode 4 .stop s.doubleSpeed s.key1

theorem exec_outcome (i : Instr) (s : State) : MeaningOutcome s (exec i s) := by
  cases hi : leavesFlow i with
  | false => exact .completes (exec_completes hi s)
  | true =>
    cases i with
    | halt => exact execHalt_outcome s
    | stop n => exact execStop_outcome n s
    | illegal op => exact .raises op s.opAddr
    | _ => cases hi

/-! ## The invariant -/

/-- The invariant's clauses on storage carry over; the others are the step's own to show. -/
theorem inv_of_storageKept (hi : Inv s) (hk : StorageKept s t)
    (idle : t.mode ≠ .run → t.imePending = false ∧ t.haltBug = false)
    (faulted : t.result = .fault ↔ t.fault.isSome = true) : Inv t where
  lowNibble := hk.lowNibble hi.lowNibble
  memory := hk.memory hi.memory
  ieUpper hp := have hp := hk.params ▸ hp; hk.ieUpper hp (hi.ieUpper hp)
  idlePending hm := (idle hm).1
  idleHaltBug hm := (idle hm).2
  overlay hb := hk.params ▸ hi.overlay (hk.bootMapped hb)
  faulted := faulted

/-- What an instruction, started in RUN with no HALT bug and no fault, leaves for the EI promotion: an idle core still has
the `ime_pending` it began with. -/
structure ReadyToPromote (s u : State) : Prop extends StorageKept s u where
  idle : u.mode ≠ .run → u.fault = none ∧ u.imePending = s.imePending ∧ u.haltBug = false
  faulted : u.result = .fault ↔ u.fault.isSome = true

theorem exec_readyToPromote {i : Instr} (hm : s.mode = .run) (hb : s.haltBug = false) (hf : s.fault = none)
    (h : exec i s = .next u) : ReadyToPromote s u := by
  have outcome := exec_outcome i s
  rw [h] at outcome
  generalize ho : Host.Outcome.next u = o at outcome
  cases outcome with
  | completes hc =>
    obtain ⟨n, t, rfl, ht⟩ := hc
    cases ho
    exact ⟨ht.toStorageKept.trans .ofFrame, fun hu => absurd (ht.mode.trans hm) hu, by simp [ht.fault, hf]⟩
  | armsHaltBug =>
    cases ho
    exact ⟨.ofFrame, fun hu => absurd hm hu, by simp [hf]⟩
  | setsMode =>
    cases ho
    exact ⟨.ofFrame, fun _ => ⟨hf, rfl, hb⟩, by simp [hf]⟩
  | raises =>
    cases ho
    exact ⟨.ofFrame, fun hu => absurd hm hu, by simp⟩

/-- Without a fault the end of an instruction's step never leaves the `ime_pending` the step began with (R310, R317). -/
theorem promoteIme_imePending_eq_false (hf : u.fault = none) : (promoteIme u.imePending u).imePending = false := by
  cases hp : u.imePending <;> simp [promoteIme, hf, hp]

theorem instrStep_eq (run : Instr → State → StepOutcome) (s : State) :
    instrStep run s = endInstr s.imePending (run (fetchInstr s).1 (fetchInstr s).2) := rfl

/-- A fetch keeps the storage, the mode, the fault and `ime_pending`, and leaves no HALT bug (R8). -/
theorem fetchInstr_kept (s : State) :
    StorageKept s (fetchInstr s).2 ∧ (fetchInstr s).2.mode = s.mode ∧ (fetchInstr s).2.fault = s.fault ∧
      (fetchInstr s).2.imePending = s.imePending ∧ (fetchInstr s).2.haltBug = false := by
  obtain ⟨pc, bus, h⟩ := fetchInstr_frame s
  rw [h]
  exact ⟨.ofFrame, rfl, rfl, rfl, rfl⟩

/-- An instruction's step keeps the invariant: fetch, meaning, EI promotion. -/
theorem instrStep_inv (hi : Inv s) (hf : s.fault = none) (hm : s.mode = .run) (h : instrStep exec s = .next t) :
    Inv t := by
  rw [instrStep_eq] at h
  obtain ⟨u, hu, rfl⟩ := endInstr_next h
  obtain ⟨fetched, hmode, hfault, hpend, hbug⟩ := fetchInstr_kept s
  have ready := exec_readyToPromote (hmode.trans hm) hbug (hfault.trans hf) hu
  refine inv_of_storageKept hi (fetched.trans (ready.toStorageKept.trans .ofFrame)) (fun hrun => ?_)
    (by simpa using ready.faulted)
  obtain ⟨hf', hpend', hbug'⟩ := ready.idle (by simpa using hrun)
  rw [promoteIme_haltBug, ← hpend, ← hpend']
  exact ⟨promoteIme_imePending_eq_false hf', hbug'⟩

/-- An idle step keeps the invariant, whichever mode it ends in. -/
theorem idleStep_inv (hi : Inv s) (hf : s.fault = none) (hm : s.mode ≠ .run) (n : Nat) (m : Mode) :
    Inv { s with mode := m, result := .cycles n } :=
  inv_of_storageKept hi .ofFrame (fun _ => ⟨hi.idlePending hm, hi.idleHaltBug hm⟩) (by simp [hf])

/-- A dispatch keeps the invariant: it stays in RUN and pushes (R320). -/
theorem dispatch_inv {k : Fin 5} (hi : Inv s) (hf : s.fault = none) (hm : s.mode = .run)
    (h : dispatch k s = .next t) : Inv t := by
  cases h
  have pushed : StorageKept s (push16 (dispatchReturn s) { s with haltBug := false }) :=
    .trans .ofFrame ((Proceeds.refl { s with haltBug := false }).push16 _).toStorageKept
  exact inv_of_storageKept hi (pushed.trans .ofFrame) (fun hrun => absurd (by simpa using hm) hrun) (by simp [hf])

/-- Settles O45: by the kind of the step, every kind from the storage it keeps and the mode it ends in. -/
theorem stepKeepsInvariant : Obligations.StepKeepsInvariant := by
  intro s t hi h
  obtain ⟨r, hf, e⟩ | ⟨hf, hm, e⟩ | ⟨hf, hm, e⟩ | ⟨k, hf, hm, hd, e⟩ | ⟨hf, hm, hd, e⟩ := stepWith_cases exec s <;>
    rw [step, e] at h
  · cases h
  · cases h
    exact idleStep_inv hi hf (by simp [hm]) 4 _
  · cases h
    exact idleStep_inv hi hf (by simp [hm]) 4 _
  · exact dispatch_inv hi hf hm h
  · exact instrStep_inv hi hf hm h

/-! ## IF and IE on the bus (R31, R32) -/

theorem readByte_ifReg (s : State) : readByte s 0xFF0F = readIf s := by
  rw [readByte, busTarget_ifReg_iff.2 rfl]

theorem readByte_ieReg (s : State) : readByte s 0xFFFF = readIe s := by
  rw [readByte, busTarget_ieReg_iff.2 rfl]

/-- A register whose upper three bits read 1. -/
theorem onesAppend_toNat (x : BitVec 5) : (0b111#3 ++ x : Byte).toNat = 0xE0 + x.toNat := by
  revert x; decide

theorem zerosAppend_toNat (x : BitVec 5) : (0b000#3 ++ x : Byte).toNat = x.toNat := by
  revert x; decide

theorem readIf_toNat (s : State) : (readIf s).toNat = 0xE0 + s.iflag.toNat := onesAppend_toNat s.iflag

theorem readIe_ones_toNat (h : s.params.ieUpper = .ones) : (readIe s).toNat = 0xE0 + s.ie.toNat % 32 := by
  simp only [readIe, h]
  rw [onesAppend_toNat]
  simp

theorem readIe_stored (h : s.params.ieUpper = .stored) : readIe s = s.ie := by simp only [readIe, h]

theorem memWrite_ifReg_iflag (s : State) (v : Byte) : (memWrite s 0xFF0F v).iflag.toNat = v.toNat % 32 := by
  rw [memWrite_iflag, if_pos rfl]
  simp

/-- A write of IE stores bits 4..0 in either mode; with ONES they are all that is stored. -/
theorem writeIe_ie_mod (s : State) (v : Byte) : (writeIe s v).ie.toNat % 32 = v.toNat % 32 := by
  cases h : s.params.ieUpper with
  | ones =>
    simp only [writeIe, h]
    rw [zerosAppend_toNat]
    simp
  | stored => simp only [writeIe, h]

theorem writeIe_stored (h : s.params.ieUpper = .stored) (v : Byte) : (writeIe s v).ie = v := by
  simp only [writeIe, h]

theorem memWrite_ieReg_ie (s : State) (v : Byte) : (memWrite s 0xFFFF v).ie = (writeIe s v).ie := by
  rw [memWrite_ie, if_pos rfl]

/-- Settles O53: the two addresses reach the registers on every bus, and each register reads what was stored. -/
theorem interruptRegistersOnTheBus : Obligations.InterruptRegistersOnTheBus := by
  intro s v
  refine ⟨?_, memWrite_ifReg_iflag s v, ?_, fun h => ⟨?_, ?_⟩, fun h => ⟨?_, ?_⟩, ?_, ?_⟩
  · rw [readByte_ifReg, readIf_toNat]
  · rw [readByte_ifReg, readIf_toNat, memWrite_ifReg_iflag]
  · rw [readByte_ieReg, readIe_ones_toNat h]
  · rw [readByte_ieReg, readIe_ones_toNat (by rwa [memWrite_params]), memWrite_ieReg_ie, writeIe_ie_mod]
  · rw [readByte_ieReg, readIe_stored h]
  · rw [readByte_ieReg, readIe_stored (by rwa [memWrite_params]), memWrite_ieReg_ie, writeIe_stored h]
  · rw [memWrite_ie, if_neg (by decide)]
  · rw [memWrite_iflag, if_neg (by decide)]

/-! ## Reset (R40, R360, R361) -/

/-- The registers of a reset: the draw with a boot ROM, else the value of `POST_BOOT_REGS`. -/
def resetRegs (p : Params) (draw : Draw) : RegValues := if p.bootRom.isSome then draw.regs else postBootRegs p

/-- The values of a register file as F is reset from it: bits 3..0 cleared (R22). -/
def regNats (r : RegValues) : List Nat :=
  [r.a.toNat, r.f.toNat / 16 * 16, r.b.toNat, r.c.toNat, r.d.toNat, r.e.toNat, r.h.toNat, r.l.toNat, r.sp.toNat]

theorem and_highNibble_toNat (v : Byte) : (v &&& 0xF0).toNat = v.toNat / 16 * 16 := by
  revert v; decide

theorem powerOn_regs (p : Params) (draw : Draw) :
    [(State.powerOn p draw).a, (State.powerOn p draw).f, (State.powerOn p draw).b, (State.powerOn p draw).c,
      (State.powerOn p draw).d, (State.powerOn p draw).e, (State.powerOn p draw).h,
      (State.powerOn p draw).l].map BitVec.toNat ++ [(State.powerOn p draw).sp.toNat] = regNats (resetRegs p draw) := by
  have hf : (State.powerOn p draw).f.toNat = (resetRegs p draw).f.toNat / 16 * 16 := and_highNibble_toNat _
  simp only [List.map_cons, List.map_nil, List.cons_append, List.nil_append, hf]
  rfl

theorem resetRegs_boot {p : Params} (h : p.bootRom ≠ none) (draw : Draw) : resetRegs p draw = draw.regs :=
  if_pos (Option.isSome_iff_ne_none.2 h)

theorem resetRegs_noBoot {p : Params} (h : p.bootRom = none) (draw : Draw) :
    resetRegs p draw = p.postBoot.getD (postBootTable p.device) := by
  rw [resetRegs, h]; rfl

theorem loadBootRom_isSome_iff (file : List Byte) : (loadBootRom file).isSome = true ↔ file.length = 256 := by
  unfold loadBootRom
  split <;> simp [*]

/-- Settles O56: the registers from `resetRegs`, the other rows by the way of booting. -/
theorem resetValues : Obligations.ResetValues := by
  refine ⟨fun p draw => ⟨rfl, rfl, rfl, rfl, rfl, rfl, fun h => ?_, fun h => ?_, fun r h hr => ?_, fun h hd => ?_⟩,
    loadBootRom_isSome_iff, rfl⟩
  · have hb : p.bootRom.isSome = true := Option.isSome_iff_ne_none.2 h
    refine ⟨if_pos hb, if_pos hb, hb, ?_⟩
    rw [powerOn_regs, resetRegs_boot h]
    rfl
  · have hb : ¬ p.bootRom.isSome = true := by simp [h]
    exact ⟨if_neg hb, if_neg hb, Bool.eq_false_iff.2 hb⟩
  · rw [powerOn_regs, resetRegs_noBoot h, hr]
    rfl
  · rw [powerOn_regs, resetRegs_noBoot h, hd]
    cases p.device <;> rfl

end Sys2Proof.Proofs
end

section
/-!
SUPPORT. What an access does by the target of its address, the target the console's map gives each window, what a step
does to the storage, and the statements of 20_memory.md: RAM (O52), the console's map (O54), the boot ROM overlay (O55).
-/
namespace Sys2Proof.Proofs

open Sys2Proof.Machine

variable {s t u : State} {a x : Word} {n : Nat}

/-! ## An access by the target of its address (R61, R62) -/

theorem readByte_ram (h : busTarget s a = .ram n) : readByte s a = memGet s.mem n := by simp only [readByte, h]

theorem readByte_rom (h : busTarget s a = .rom n) : readByte s a = memGet s.mem n := by simp only [readByte, h]

theorem readByte_boot {w : Byte} (h : busTarget s a = .boot w) : readByte s a = w := by simp only [readByte, h]

theorem readByte_unmapped (h : busTarget s a = .unmapped) : readByte s a = 0xFF := by simp only [readByte, h]

theorem memWrite_ram_mem (h : busTarget s x = .ram n) (v : Byte) : (memWrite s x v).mem = memSet s.mem n v := by
  simp only [memWrite, storeByte, h]

/-- Outside cartridge RAM a write to RAM has no effect beyond storing (R68). -/
theorem memWrite_ram_eq (h : busTarget s x = .ram n) (hw : inCartWindow s x = false) (v : Byte) :
    memWrite s x v = { s with mem := memSet s.mem n v } := by
  simp only [memWrite, storeByte, seesWrite, h, hw]
  rfl

/-- The two targets that ignore a write altogether (R62). -/
theorem memWrite_ignored (h : busTarget s x = .ramOff ∨ busTarget s x = .unmapped) (v : Byte) :
    memWrite s x v = s := by
  obtain h | h := h
  all_goals
    simp only [memWrite, storeByte, seesWrite, h]
    rfl

theorem memWrite_device (h : busTarget s x = .device) (v : Byte) :
    memWrite s x v = { s with busState := busAfterWrite s x v } := by
  simp only [memWrite, storeByte, seesWrite, h]
  rfl

theorem memRead_device (h : busTarget s a = .device) :
    memRead s a = (deviceByte s a, { s with busState := busAfterRead s a }) := by
  simp only [memRead, readByte, afterRead, h]
  rfl

theorem afterRead_unseen (h : (busTarget s x).seesRead = false) : afterRead s x = s := by
  simp only [afterRead, h]
  rfl

/-- A write to RAM moves no address to another target. -/
theorem busTarget_memWrite_ram (h : busTarget s x = .ram n) (v : Byte) (a : Word) :
    busTarget (memWrite s x v) a = busTarget s a :=
  busTarget_memWrite v (by rw [h]; nofun)

/-- Settles O52: every address of the byte keeps its target and reads what was stored; any other reads as before. -/
theorem storeThenLoad : Obligations.StoreThenLoad := by
  intro s x a v n hm hx
  refine ⟨fun ha => ?_, fun ha hf => ?_⟩
  · have ht : busTarget (memWrite s x v) a = .ram n := (busTarget_memWrite_ram hx v a).trans ha
    rw [readByte_ram ht, memWrite_ram_mem hx, memGet_memSet_same hm]
  · have hax : a ≠ x := by
      rintro rfl
      exact ha hx
    have hr : ∀ k, busTarget s a = .ram k → busTarget s x ≠ .ram k := fun k hk hxk => ha (hk.trans (hxk.symm.trans hx))
    exact readByte_memWrite_other v hax hr hf (by rw [hx]; nofun)

/-! ## The boot ROM's byte at an address (R70) -/

theorem bootByte_of_unmapped (h : s.bootMapped = false) (n : Nat) : bootByte s n = none := by
  simp [bootByte, h]

theorem bootByte_of_le (h : 0x100 ≤ n) : bootByte s n = none := by
  simp [bootByte, show ¬ n < 0x100 by omega]

theorem bootByte_of_mapped {img : Vector Byte 256} (hi : s.params.bootRom = some img) (hb : s.bootMapped = true)
    (hn : n < 256) : bootByte s n = some img[n] := by
  simp [bootByte, hi, hb, hn]

/-! ## The targets of the console's windows (R69) -/

/-- The windows whose every address holds a byte of RAM of its own. -/
inductive OwnByte (s : State) (n : Nat) : Prop
  | videoRam (lo : 0x8000 ≤ n) (hi : n < 0xA000)
  | cartRam (lo : 0xA000 ≤ n) (hi : n < 0xC000) (on : s.cartRamEnabled = true)
  | workRam (lo : 0xC000 ≤ n) (hi : n < 0xE000)
  | oam (lo : 0xFE00 ≤ n) (hi : n < 0xFEA0)
  | highRam (lo : 0xFF80 ≤ n) (hi : n < 0xFFFF)

/-- In each window the bounds decide every test of the map. -/
theorem consoleTarget_ownByte (h : OwnByte s n) : consoleTarget s n = .ram n := by
  cases h <;> simp (disch := omega) only [consoleTarget, if_neg, if_pos]

/-- What an own byte's address is not: the boot ROM's, IF's or IE's. -/
theorem OwnByte.bounds (h : OwnByte s n) : 0x100 ≤ n ∧ n ≠ 0xFF0F ∧ n ≠ 0xFFFF := by
  cases h <;> omega

theorem consoleTarget_io (lo : 0xFF00 ≤ n) (hi : n < 0xFF80) : consoleTarget s n = ioTarget s n := by
  simp (disch := omega) only [consoleTarget, if_neg, if_pos]

section Console

variable (hc : s.params.bus = .console)
include hc

theorem busTarget_console (hif : a.toNat ≠ 0xFF0F) (hie : a.toNat ≠ 0xFFFF) (hb : bootByte s a.toNat = none) :
    busTarget s a = consoleTarget s a.toNat := by
  have hif' : a ≠ 0xFF0F := fun h => hif (congrArg BitVec.toNat h)
  have hie' : a ≠ 0xFFFF := fun h => hie (congrArg BitVec.toNat h)
  simp only [busTarget, if_neg hif', if_neg hie', hc, hb]

/-- Above the boot ROM's window only the console's own map matters. -/
theorem busTarget_console_of_le (hif : a.toNat ≠ 0xFF0F) (hie : a.toNat ≠ 0xFFFF) (h : 0x100 ≤ a.toNat) :
    busTarget s a = consoleTarget s a.toNat :=
  busTarget_console hc hif hie (bootByte_of_le h)

theorem busTarget_ownByte (h : OwnByte s a.toNat) : busTarget s a = .ram a.toNat := by
  obtain ⟨hlow, hif, hie⟩ := h.bounds
  rw [busTarget_console_of_le hc hif hie hlow, consoleTarget_ownByte h]

theorem busTarget_mirror (lo : 0xE000 ≤ a.toNat) (hi : a.toNat < 0xFE00) :
    busTarget s a = .ram (a.toNat - 0x2000) := by
  rw [busTarget_console_of_le hc (by omega) (by omega) (by omega)]
  simp (disch := omega) only [consoleTarget, if_neg, if_pos]

theorem busTarget_unusable (lo : 0xFEA0 ≤ a.toNat) (hi : a.toNat < 0xFF00) : busTarget s a = .unmapped := by
  rw [busTarget_console_of_le hc (by omega) (by omega) (by omega)]
  simp (disch := omega) only [consoleTarget, if_neg, if_pos]

theorem busTarget_cartOff (lo : 0xA000 ≤ a.toNat) (hi : a.toNat < 0xC000) (off : s.cartRamEnabled = false) :
    busTarget s a = .ramOff := by
  rw [busTarget_console_of_le hc (by omega) (by omega) (by omega)]
  simp (disch := omega) only [consoleTarget, if_neg, if_pos]
  exact if_neg (by simp [off])

theorem busTarget_romByte (h : a.toNat < 0x8000) (hb : bootByte s a.toNat = none) : busTarget s a = .rom a.toNat := by
  rw [busTarget_console hc (by omega) (by omega) hb, consoleTarget, if_pos h]

theorem busTarget_bootByte {w : Byte} (h : a.toNat < 0x8000) (hb : bootByte s a.toNat = some w) :
    busTarget s a = .boot w := by
  have hif : a ≠ 0xFF0F := by rintro rfl; exact absurd h (by decide)
  have hie : a ≠ 0xFFFF := by rintro rfl; exact absurd h (by decide)
  simp only [busTarget, if_neg hif, if_neg hie, hc, hb]

theorem busTarget_io (lo : 0xFF00 ≤ a.toNat) (hi : a.toNat < 0xFF80) (hif : a ≠ 0xFF0F) (hlatch : a ≠ 0xFF50)
    (hkey : ¬ (a = 0xFF4D ∧ s.params.speedSwitch = true)) : busTarget s a = .device := by
  have hif' : a.toNat ≠ 0xFF0F := fun e => hif (BitVec.eq_of_toNat_eq e)
  have hlatch' : a.toNat ≠ 0xFF50 := fun e => hlatch (BitVec.eq_of_toNat_eq e)
  have hkey' : ¬ (a.toNat = 0xFF4D ∧ s.params.speedSwitch = true) :=
    fun ⟨e, on⟩ => hkey ⟨BitVec.eq_of_toNat_eq e, on⟩
  rw [busTarget_console_of_le hc hif' (by omega) (by omega), consoleTarget_io lo hi, ioTarget,
    if_neg hlatch', if_neg hkey']

theorem busTarget_latch : busTarget s 0xFF50 = .bootLatch := by
  rw [busTarget_console_of_le hc (by decide) (by decide) (by decide), consoleTarget_io (by decide) (by decide)]
  rfl

/-! ## Accesses to the console's windows (R62, R68) -/

theorem ownByte_plain (h : OwnByte s a.toNat) (v : Byte) :
    readByte s a = memGet s.mem a.toNat ∧ (memWrite s a v).mem = memSet s.mem a.toNat v :=
  ⟨readByte_ram (busTarget_ownByte hc h), memWrite_ram_mem (busTarget_ownByte hc h) v⟩

theorem memWrite_busState_seen (h : seesWrite s a = true) (v : Byte) :
    (memWrite s a v).busState = Config.busWrite .console s.busState a v := by
  rw [memWrite_busState, if_pos h, busAfterWrite, hc]

theorem seesWrite_cartRam (lo : 0xA000 ≤ a.toNat) (hi : a.toNat < 0xC000) (on : s.cartRamEnabled = true) :
    seesWrite s a = true := by
  simp [seesWrite, busTarget_ownByte hc (.cartRam lo hi on), inCartWindow, hc, lo, hi]

/-- A write below 0x8000 reaches ROM or the boot ROM over it: a command to the MBC that changes no byte. -/
theorem memWrite_mbcCommand (h : a.toNat < 0x8000) (v : Byte) :
    (memWrite s a v).mem = s.mem ∧ seesWrite s a = true := by
  cases hb : bootByte s a.toNat with
  | none =>
    have ht := busTarget_romByte hc h hb
    exact ⟨memWrite_mem_other v (by simp [ht]), by simp [seesWrite, ht]⟩
  | some w =>
    have ht := busTarget_bootByte hc h hb
    exact ⟨memWrite_mem_other v (by simp [ht]), by simp [seesWrite, ht]⟩

theorem afterRead_cartRam (lo : 0xA000 ≤ a.toNat) (hi : a.toNat < 0xC000) : afterRead s a = s := by
  cases on : s.cartRamEnabled with
  | true => exact afterRead_unseen (by rw [busTarget_ownByte hc (.cartRam lo hi on)]; rfl)
  | false => exact afterRead_unseen (by rw [busTarget_cartOff hc lo hi on]; rfl)

/-- 0xE000-0xFDFF reaches the bytes of 0xC000-0xDDFF, which no device watches. -/
theorem mirror_access (lo : 0xE000 ≤ a.toNat) (hi : a.toNat < 0xFE00) (v : Byte) :
    readByte s a = readByte s (a - 0x2000) ∧ memWrite s a v = memWrite s (a - 0x2000) v := by
  have hsub : (a - 0x2000).toNat = a.toNat - 0x2000 := by bv_omega
  have hm := busTarget_mirror hc lo hi
  have ho : busTarget s (a - 0x2000) = .ram (a.toNat - 0x2000) := by
    rw [busTarget_ownByte hc (.workRam (by omega) (by omega)), hsub]
  have outside {x : Word} (h : 0xC000 ≤ x.toNat) : inCartWindow s x = false := by
    simp [inCartWindow, show ¬ x.toNat < 0xC000 by omega]
  exact ⟨by rw [readByte_ram hm, readByte_ram ho],
    by rw [memWrite_ram_eq hm (outside (by omega)), memWrite_ram_eq ho (outside (by omega))]⟩

theorem io_access (lo : 0xFF00 ≤ a.toNat) (hi : a.toNat < 0xFF80) (hif : a ≠ 0xFF0F) (hlatch : a ≠ 0xFF50)
    (hkey : ¬ (a = 0xFF4D ∧ s.params.speedSwitch = true)) (v : Byte) :
    memRead s a = ((Config.busRead .console s.busState a).1,
        { s with busState := (Config.busRead .console s.busState a).2 }) ∧
      memWrite s a v = { s with busState := Config.busWrite .console s.busState a v } := by
  have ht := busTarget_io hc lo hi hif hlatch hkey
  rw [memRead_device ht, memWrite_device ht, deviceByte, busAfterRead, busAfterWrite, hc]
  exact ⟨rfl, rfl⟩

end Console

/-- Settles O54: window by window, from the target of its addresses. -/
theorem consoleMap : Obligations.ConsoleMap := by
  intro s a v hc
  refine ⟨fun lo hi => ?videoRam, fun lo hi on => ?cartRam, fun lo hi => ?workRam, fun lo hi => ?oam,
    fun lo hi => ?highRam, fun hi hb => ?romRead, fun hi => ?romWrite, fun lo hi => ?mirror, fun lo hi => ?unusable,
    fun lo hi off => ?cartOff, fun lo hi => ?cartRead, fun lo hi hif hlatch hkey => ?io⟩
  case videoRam => exact ownByte_plain hc (.videoRam lo hi) v
  case cartRam =>
    exact ⟨ownByte_plain hc (.cartRam lo hi on) v, memWrite_busState_seen hc (seesWrite_cartRam hc lo hi on) v⟩
  case workRam => exact ownByte_plain hc (.workRam lo hi) v
  case oam => exact ownByte_plain hc (.oam lo hi) v
  case highRam => exact ownByte_plain hc (.highRam lo hi) v
  case romRead =>
    have hnone : bootByte s a.toNat = none := hb.elim (bootByte_of_unmapped · _) bootByte_of_le
    exact readByte_rom (busTarget_romByte hc hi hnone)
  case romWrite =>
    obtain ⟨hmem, hsees⟩ := memWrite_mbcCommand hc hi v
    exact ⟨hmem, memWrite_busState_seen hc hsees v⟩
  case mirror => exact mirror_access hc lo hi v
  case unusable =>
    have ht := busTarget_unusable hc lo hi
    exact ⟨readByte_unmapped ht, memWrite_ignored (.inr ht) v⟩
  case cartOff => exact memWrite_ignored (.inl (busTarget_cartOff hc lo hi off)) v
  case cartRead => exact afterRead_cartRam hc lo hi
  case io => exact io_access hc lo hi hif hlatch hkey v

/-! ## What a step does to the storage -/

theorem exec_storageKept {i : Instr} (h : exec i s = .next u) : StorageKept s u := by
  have outcome := exec_outcome i s
  rw [h] at outcome
  generalize ho : Host.Outcome.next u = o at outcome
  cases outcome with
  | completes hc =>
    obtain ⟨n, t, rfl, ht⟩ := hc
    cases ho
    exact ht.toStorageKept.trans .ofFrame
  | armsHaltBug | setsMode | raises =>
    cases ho
    exact .ofFrame

theorem instrStep_storageKept (h : instrStep exec s = .next t) : StorageKept s t := by
  rw [instrStep_eq] at h
  obtain ⟨u, hu, rfl⟩ := endInstr_next h
  exact ((fetchInstr_kept s).1.trans (exec_storageKept hu)).trans .ofFrame

theorem dispatch_storageKept {k : Fin 5} (h : dispatch k s = .next t) : StorageKept s t := by
  cases h
  have pushed : StorageKept s (push16 (dispatchReturn s) { s with haltBug := false }) :=
    .trans .ofFrame ((Proceeds.refl { s with haltBug := false }).push16 _).toStorageKept
  exact pushed.trans .ofFrame

/-- A step keeps the storage, whatever its kind. -/
theorem step_storageKept (h : step s = .next t) : StorageKept s t := by
  obtain ⟨r, -, e⟩ | ⟨-, -, e⟩ | ⟨-, -, e⟩ | ⟨k, -, -, -, e⟩ | ⟨-, -, -, e⟩ := stepWith_cases exec s <;>
    rw [step, e] at h
  · cases h
  · cases h
    exact .ofFrame
  · cases h
    exact .ofFrame
  · exact dispatch_storageKept h
  · exact instrStep_storageKept h

/-! ## The boot ROM overlay (R70) -/

theorem toNat_ofNat_low (h : n < 256) : (BitVec.ofNat 16 n).toNat = n := by
  rw [BitVec.toNat_ofNat, Nat.mod_eq_of_lt (by omega)]

theorem memWrite_latch_bootMapped (hc : s.params.bus = .console) (v : Byte) :
    (memWrite s 0xFF50 v).bootMapped = (s.bootMapped && decide (v = 0)) := by
  rw [memWrite_bootMapped_eq, if_pos (busTarget_latch hc)]

theorem memWrite_bootMapped_of_ne (hx : x ≠ 0xFF50) (v : Byte) : (memWrite s x v).bootMapped = s.bootMapped := by
  rw [memWrite_bootMapped_eq, if_neg fun h => hx (busTarget_bootLatch h).1]

/-- Settles O55: the reads from the overlay's byte, the latch from the one address that reaches it, the step from the
storage it keeps. -/
theorem bootRomOverlay : Obligations.BootRomOverlay := by
  intro s img hc hi
  refine ⟨fun hb n hn => ?mapped, fun hb n hn => ?unmapped, fun v hv => ?unmaps, ?zero,
    fun x v hx => memWrite_bootMapped_of_ne hx v, fun x => afterRead_bootMapped s x, fun hb t h => ?step⟩
  case mapped =>
    refine readByte_boot (busTarget_bootByte hc ?_ ?_) <;> rw [toNat_ofNat_low hn]
    · omega
    · exact bootByte_of_mapped hi hb hn
  case unmapped =>
    have ht := busTarget_romByte hc (a := BitVec.ofNat 16 n) (by rw [toNat_ofNat_low hn]; omega)
      (bootByte_of_unmapped hb _)
    rw [readByte_rom ht, toNat_ofNat_low hn]
  case unmaps => rw [memWrite_latch_bootMapped hc, decide_eq_false hv, Bool.and_false]
  case zero => rw [memWrite_latch_bootMapped hc, decide_eq_true rfl, Bool.and_true]
  case step => exact Bool.eq_false_iff.2 fun ht => Bool.eq_false_iff.1 hb ((step_storageKept h).bootMapped ht)

end Sys2Proof.Proofs
end

section
/-!
SUPPORT. The decoder and the encoder, and the statements of 30_encoding.md: PREFIX CB (O29), decode of encode (O57),
encode of decode (O58), words of the spec (O59).
-/
namespace Sys2Proof.Proofs

open Sys2Proof.Machine

/-! ## A byte and its fields (R91) -/

theorem append_fields (op : Byte) : fieldX op ++ fieldY op ++ fieldZ op = op := by
  revert op; decide

theorem fieldX_append (x : BitVec 2) (y z : BitVec 3) : fieldX (x ++ y ++ z) = x := by
  revert x y z; decide

/-! ## Three bytes begin with the encoding of what they decode to (R98-R102) -/

/-- The bytes `op`, `b2` and `b3` begin with the instruction `i`, whose length `op` settles. -/
def BeginWith (op b2 b3 : Byte) (i : Instr) : Prop :=
  i.WellFormed = true ∧ encode i = [op, b2, b3].take (lengthOf op)

theorem decodeCB_beginWith (op2 b3 : Byte) : BeginWith 0xCB op2 b3 (decodeCB op2) := by
  have row : ∀ op2, (decodeCB op2).WellFormed = true ∧ encode (decodeCB op2) = [0xCB, op2] := by decide
  exact row op2

/-- Each row of the quadrant, with the two bytes after the opcode as one word `n`. -/
theorem decodeX0_beginWith (y z : BitVec 3) (n : Word) :
    BeginWith (0b00#2 ++ y ++ z) (loByte n) (hiByte n) (decodeX0 (0b00#2 ++ y ++ z) (loByte n) (hiByte n)) := by
  simp only [decodeX0, hiLo_hiByte_loByte]
  obtain ⟨y⟩ := y
  obtain ⟨z⟩ := z
  fin_cases z <;> fin_cases y <;> exact ⟨rfl, rfl⟩

theorem decodeX1_beginWith (y z : BitVec 3) (b2 b3 : Byte) :
    BeginWith (0b01#2 ++ y ++ z) b2 b3 (decodeX1 (0b01#2 ++ y ++ z)) := by
  obtain ⟨y⟩ := y
  obtain ⟨z⟩ := z
  fin_cases z <;> fin_cases y <;> exact ⟨rfl, rfl⟩

theorem decodeX2_beginWith (y z : BitVec 3) (b2 b3 : Byte) :
    BeginWith (0b10#2 ++ y ++ z) b2 b3 (decodeX2 (0b10#2 ++ y ++ z)) := by
  obtain ⟨y⟩ := y
  obtain ⟨z⟩ := z
  fin_cases z <;> fin_cases y <;> exact ⟨rfl, rfl⟩

/-- As `decodeX0_beginWith`; the row of 0xCB is the CB map's (R99). -/
theorem decodeX3_beginWith (y z : BitVec 3) (n : Word) :
    BeginWith (0b11#2 ++ y ++ z) (loByte n) (hiByte n) (decodeX3 (0b11#2 ++ y ++ z) (loByte n) (hiByte n)) := by
  simp only [decodeX3, hiLo_hiByte_loByte]
  obtain ⟨y⟩ := y
  obtain ⟨z⟩ := z
  fin_cases z
  -- PREFIX CB is the row `y = 1` of the fourth column, `z = 3`.
  on_goal 4 =>
    fin_cases y
    on_goal 2 => exact decodeCB_beginWith (loByte n) (hiByte n)
    all_goals exact ⟨rfl, rfl⟩
  all_goals fin_cases y <;> exact ⟨rfl, rfl⟩

theorem decodeBytes_beginWith (op b2 b3 : Byte) : BeginWith op b2 b3 (decodeBytes op b2 b3) := by
  obtain ⟨x, y, z, rfl⟩ : ∃ x y z, x ++ y ++ z = op := ⟨_, _, _, append_fields op⟩
  obtain ⟨n, rfl, rfl⟩ : ∃ n, loByte n = b2 ∧ hiByte n = b3 := ⟨_, loByte_hiLo b3 b2, hiByte_hiLo b3 b2⟩
  simp only [decodeBytes, fieldX_append]
  obtain ⟨x⟩ := x
  fin_cases x
  · exact decodeX0_beginWith y z n
  · exact decodeX1_beginWith y z (loByte n) (hiByte n)
  · exact decodeX2_beginWith y z (loByte n) (hiByte n)
  · exact decodeX3_beginWith y z n

/-- Settles O58: by the quadrants of the opcode map. -/
theorem encodeOfDecode : Obligations.EncodeOfDecode := decodeBytes_beginWith

/-! ## Decoding an encoded instruction gives it back (R90-R102) -/

section Decode

variable {i : Instr} {op b2 b3 : Byte}

theorem decode_oneByte (hl : lengthOf op = 1) (hd : ∀ b2 b3, decodeBytes op b2 b3 = i) (rest : List Byte) :
    decode (op :: rest) = .ok (i, rest) := by
  simp [decode, hl, hd]

theorem decode_twoBytes (hl : lengthOf op = 2) (hd : ∀ b3, decodeBytes op b2 b3 = i) (rest : List Byte) :
    decode (op :: b2 :: rest) = .ok (i, rest) := by
  simp [decode, hl, hd]

theorem decode_threeBytes {f : Word → Instr} (hl : lengthOf op = 3)
    (hd : ∀ b2 b3, decodeBytes op b2 b3 = f (hiLo b3 b2)) (n : Word) (rest : List Byte) :
    decode (op :: loByte n :: hiByte n :: rest) = .ok (f n, rest) := by
  simp [decode, hl, hd]

end Decode

theorem decodeBytes_illegal {op : Byte} (hw : (Instr.illegal op).WellFormed = true) :
    lengthOf op = 1 ∧ ∀ b2 b3, decodeBytes op b2 b3 = .illegal op := by
  have hop : op ∈ illegalBytes := List.contains_iff_mem.1 hw
  fin_cases hop <;> exact ⟨rfl, fun _ _ => rfl⟩

/-- Settles O57: by the length of the encoding (R90) and the kind of its operands (R92-R97). -/
theorem decodeOfEncode : Obligations.DecodeOfEncode := by
  intro i rest hw
  cases i with
  | illegal op =>
    obtain ⟨hl, hd⟩ := decodeBytes_illegal hw
    exact decode_oneByte hl hd rest
  | prefixCB => cases hw
  | ldRR dst src => cases dst <;> cases src <;> exact decode_oneByte rfl (fun _ _ => rfl) rest
  | ldRHl r | ldHlR r | addAR r | adcAR r | subR r | sbcAR r | andR r | xorR r | orR r | cpR r | incR r | decR r =>
    cases r <;> exact decode_oneByte rfl (fun _ _ => rfl) rest
  | incRr p | decRr p | addHlRr p | pushRr p | popRr p => cases p <;> exact decode_oneByte rfl (fun _ _ => rfl) rest
  | retCc cc => cases cc <;> exact decode_oneByte rfl (fun _ _ => rfl) rest
  | rstT t => fin_cases t <;> exact decode_oneByte rfl (fun _ _ => rfl) rest
  | ldRN8 r | rlcR r | rrcR r | rlR r | rrR r | slaR r | sraR r | swapR r | srlR r =>
    cases r <;> exact decode_twoBytes rfl (fun _ => rfl) rest
  | bitR b r | resR b r | setR b r =>
    fin_cases b <;> cases r <;> exact decode_twoBytes rfl (fun _ => rfl) rest
  | bitHl b | resHl b | setHl b => fin_cases b <;> exact decode_twoBytes rfl (fun _ => rfl) rest
  | jrCc cc => cases cc <;> exact decode_twoBytes rfl (fun _ => rfl) rest
  | rlcHl | rrcHl | rlHl | rrHl | slaHl | sraHl | swapHl | srlHl
  | ldHlN8 | ldhAA8 | ldhA8A | ldHlSpE8 | addAN8 | adcAN8 | subN8 | sbcAN8 | andN8 | xorN8 | orN8 | cpN8 | addSpE8 | jrE8
  | stop => exact decode_twoBytes rfl (fun _ => rfl) rest
  | ldRrN16 p n => cases p <;> exact decode_threeBytes rfl (fun _ _ => rfl) n rest
  | jpCc cc a | callCc cc a =>
    cases cc <;> exact decode_threeBytes rfl (fun _ _ => rfl) a rest
  | ldAA16 a | ldA16A a | ldA16Sp a | jpA16 a | callA16 a =>
    exact decode_threeBytes rfl (fun _ _ => rfl) a rest
  | _ => exact decode_oneByte rfl (fun _ _ => rfl) rest

/-! ## Words of the spec (R90) -/

/-- A table word that holds an encoding and zeros above it decodes to the instruction encoded. -/
theorem decodeTableWord_of_encode {i : Instr} {nbits w : Nat} (hw : i.WellFormed = true) (zeros : List Byte)
    (h : tableBytes nbits w = encode i ++ zeros) : decodeTableWord nbits w = some i := by
  rw [decodeTableWord, h, decodeOfEncode i zeros hw]

/-- Settles O59: each word holds the encoding of its instruction. -/
theorem specWordsDecode : Obligations.SpecWordsDecode :=
  ⟨decodeTableWord_of_encode rfl [0, 0] rfl, decodeTableWord_of_encode rfl [0] rfl,
    decodeTableWord_of_encode rfl [] rfl, decodeTableWord_of_encode rfl [0, 0] rfl,
    decodeTableWord_of_encode rfl [0, 0] rfl, decodeTableWord_of_encode rfl [0] rfl,
    decodeTableWord_of_encode rfl [] rfl, decodeTableWord_of_encode rfl [0, 0] rfl,
    decodeTableWord_of_encode rfl [0, 0] rfl, decodeTableWord_of_encode rfl [0, 0] rfl⟩

/-! ## PREFIX CB (R102) -/

/-- Every row of the CB map completes and leaves PC and SP alone. -/
theorem execPrefixCB_frame (op2 : Byte) (s : State) :
    ∃ t, execPrefixCB op2 s = .next t ∧ t.pc = s.pc ∧ t.sp = s.sp := by
  unfold execPrefixCB
  split <;> exact ⟨_, rfl, by simp, by simp⟩

/-- The constructor's meaning and the CB map's rows agree, row by row: the kind of a rotate is its `y` (R220). -/
theorem exec_decodeCB (op2 : Byte) (s : State) : exec (decodeCB op2) s = execPrefixCB op2 s := by
  unfold decodeCB execPrefixCB rotKindOf
  generalize (fieldX op2).toNat = x, operand8 (fieldZ op2) = o, fieldY op2 = y
  match x with
  | 0 =>
    obtain ⟨y⟩ := y
    fin_cases y <;> cases o <;> rfl
  | 1 | 2 | _ + 3 => cases o <;> rfl

/-- Settles O29: by the row of the CB map, which the decoder gives after 0xCB. -/
theorem prefixRunsTheCbRow : Obligations.PrefixRunsTheCbRow :=
  fun op2 _ s => ⟨rfl, (exec_decodeCB op2 s).symm, execPrefixCB_frame op2 s⟩

end Sys2Proof.Proofs
end

section
/-!
SUPPORT. The frames that the statements about instructions share: the core's, field by field, and the bus's, once for each
kind of access (none, one read, one write, two writes to neighbours). The statements of 40_loads.md: register loads (O1), loads and stores through HL (O2, O3), A
(O4, O5), HL stepping (O6), pairs (O7), SP (O8), the stack (O9, O10), SP plus an offset (O11).
-/
namespace Sys2Proof.Proofs

open Sys2Proof.Machine Sys2Proof.Claims

variable {s t u : State} {but : List Reg8} {a x y : Word} {v w : Byte} {n : Nat}

/-! ## A form from the end of its instruction (R14) -/

/-- A form from the state `u` its meaning hands to `doneIn`: the effect has to hold of `u` with the result set. -/
theorem form_of_doneIn {i : Instr} {bytes : List Nat} {P : State → Prop} (u : State)
    (henc : (encode i).map BitVec.toNat = bytes) (hexec : exec i s = doneIn n u)
    (hP : P { u with result := .cycles n }) : Form i bytes n s P :=
  ⟨henc, _, hexec, rfl, hP⟩

/-- The bytes of an instruction with a 16-bit operand: the opcode, the low byte, the high byte (R63). -/
theorem map_toNat_wordOperand (op : Byte) (n : Word) :
    [op, loByte n, hiByte n].map BitVec.toNat = [op.toNat, n.toNat % 256, n.toNat / 256] := by
  simp only [List.map_cons, List.map_nil, loByte_toNat, hiByte_toNat]

/-! ## The core's frame -/

/-- The hidden state is kept where every field of it is; the `simp` lemmas of the state find the equations. -/
theorem kept_of_fields (ime : t.ime = s.ime := by simp) (imePending : t.imePending = s.imePending := by simp)
    (mode : t.mode = s.mode := by simp) (haltBug : t.haltBug = s.haltBug := by simp)
    (fault : t.fault = s.fault := by simp) (wakeInput : t.wakeInput = s.wakeInput := by simp)
    (opAddr : t.opAddr = s.opAddr := by simp) (params : t.params = s.params := by simp) : Kept s t :=
  ⟨ime, imePending, mode, haltBug, fault, wakeInput, opAddr, params⟩

/-- As `kept_of_fields`, for the registers outside a list. -/
theorem regsKept_of_fields (ha : Reg8.a ∈ but ∨ t.a = s.a := by simp) (hb : Reg8.b ∈ but ∨ t.b = s.b := by simp)
    (hc : Reg8.c ∈ but ∨ t.c = s.c := by simp) (hd : Reg8.d ∈ but ∨ t.d = s.d := by simp)
    (he : Reg8.e ∈ but ∨ t.e = s.e := by simp) (hh : Reg8.h ∈ but ∨ t.h = s.h := by simp)
    (hl : Reg8.l ∈ but ∨ t.l = s.l := by simp) : RegsKept s t but := by
  intro q hq
  cases q with
  | a => exact ha.resolve_left hq
  | b => exact hb.resolve_left hq
  | c => exact hc.resolve_left hq
  | d => exact hd.resolve_left hq
  | e => exact he.resolve_left hq
  | h => exact hh.resolve_left hq
  | l => exact hl.resolve_left hq

theorem coreKept_of_fields (regs : RegsKept s t but := by exact regsKept_of_fields) (f : t.f = s.f := by simp)
    (sp : t.sp = s.sp := by simp) (pc : t.pc = s.pc := by simp) (kept : Kept s t := by exact kept_of_fields) :
    CoreKept s t but :=
  ⟨regs, f, sp, pc, kept⟩

theorem coreKeptButF_of_fields (regs : RegsKept s t but := by exact regsKept_of_fields)
    (sp : t.sp = s.sp := by simp) (pc : t.pc = s.pc := by simp) (kept : Kept s t := by exact kept_of_fields) :
    CoreKeptButF s t but :=
  ⟨regs, sp, pc, kept⟩

theorem getR8_withResult (u : State) (r : StepResult) (q : Reg8) : getR8 { u with result := r } q = getR8 u q := by
  cases q <;> rfl

/-- A write of one register keeps the others. -/
theorem regsKept_setR8 (h : ∀ q, getR8 u q = getR8 s q) (r : Reg8) (v : Byte) (c : StepResult) :
    RegsKept s { setR8 u r v with result := c } [r] := by
  intro q hq
  have hne : q ≠ r := List.ne_of_not_mem_cons hq
  rw [getR8_withResult, getR8_setR8, if_neg hne, h]

theorem getR8_setR8_same (u : State) (r : Reg8) (v : Byte) (c : StepResult) :
    getR8 { setR8 u r v with result := c } r = v := by
  rw [getR8_withResult, getR8_setR8, if_pos rfl]

/-! ## The bus's frame -/

/-- The same parameters and the same state behind the bus. -/
structure SameBus (u t : State) : Prop where
  params : t.params = u.params := by simp
  mem : t.mem = u.mem := by simp
  iflag : t.iflag = u.iflag := by simp
  ie : t.ie = u.ie := by simp
  bootMapped : t.bootMapped = u.bootMapped := by simp
  cartRamEnabled : t.cartRamEnabled = u.cartRamEnabled := by simp
  key1 : t.key1 = u.key1 := by simp
  doubleSpeed : t.doubleSpeed = u.doubleSpeed := by simp
  busState : t.busState = u.busState := by simp

theorem SameBus.busTarget (h : SameBus u t) (a : Word) : busTarget t a = busTarget u a :=
  busTarget_congr h.params h.bootMapped h.cartRamEnabled a

theorem SameBus.readByte (h : SameBus u t) (a : Word) : readByte t a = readByte u a :=
  readByte_congr (h.busTarget a) h.mem h.iflag h.ie h.key1 h.busState h.params

/-- No access. -/
theorem SameBus.busKept (h : SameBus s t) : BusKept s t :=
  ⟨h.readByte, h.mem, h.iflag, h.ie, ⟨h.bootMapped, h.cartRamEnabled, h.key1, h.doubleSpeed⟩, h.busState⟩

/-- One read (R61). -/
theorem SameBus.busRead (h : SameBus (afterRead s x) t) : BusRead x s t := by
  refine ⟨fun a hf => (h.readByte a).trans (readByte_afterRead x hf), ?mem, ?iflag, ?ie,
    ⟨?bootMapped, ?cartRamEnabled, ?key1, ?doubleSpeed⟩, h.busState.trans (afterRead_busState s x)⟩
  case mem => rw [h.mem, afterRead_mem]
  case iflag => rw [h.iflag, afterRead_iflag]
  case ie => rw [h.ie, afterRead_ie]
  case bootMapped => rw [h.bootMapped, afterRead_bootMapped]
  case cartRamEnabled => rw [h.cartRamEnabled, afterRead_cartRamEnabled]
  case key1 => rw [h.key1, afterRead_key1]
  case doubleSpeed => rw [h.doubleSpeed, afterRead_doubleSpeed]

theorem writtenByDevice_eq_seesWrite (s : State) (x : Word) : WrittenByDevice s x = seesWrite s x := by
  unfold WrittenByDevice seesWrite inCartWindow
  cases busTarget s x <;> simp [Bool.and_assoc]

theorem lowFive_eq_and (v : Byte) : 0b000#3 ++ v.extractLsb' 0 5 = v &&& 0x1F := by
  revert v; decide

theorem writeIe_eq_storedIe (s : State) (v : Byte) : (writeIe s v).ie = storedIe s.params v := by
  cases h : s.params.ieUpper with
  | ones => simp only [writeIe, storedIe, h, if_pos, lowFive_eq_and]
  | stored => simp [writeIe, storedIe, h]

/-- `readByte_memWrite_other`, in the statements' terms. -/
theorem readByte_memWrite_outside (hax : ¬ SameByte s a x) (hf : (busTarget s a).isFree = false)
    (hboot : busTarget s x = .bootLatch → bootByte s a.toNat = none) :
    readByte (memWrite s x v) a = readByte s a :=
  readByte_memWrite_other v (fun h => hax (.inl h)) (fun n ha hx => hax (.inr ⟨n, ha, hx⟩)) hf hboot

/-- One write (R31, R32, R62, R68, R69, R70). -/
theorem SameBus.busWritten (h : SameBus (memWrite s x v) t) : BusWritten x v s t := by
  refine ⟨fun hm n hx => ?stored, fun a hax hf hboot => ?outside, fun n hx => ?mem, ?iflag, ?ie, ?bootMapped,
    ?cartRamEnabled, ?key1, ?doubleSpeed, ?busState⟩
  case stored => rw [h.readByte, readByte_memWrite_ram hm v hx]
  case outside => rw [h.readByte, readByte_memWrite_outside hax hf hboot]
  case mem => rw [h.mem, memGet_memWrite_other v hx]
  case iflag => rw [h.iflag, memWrite_iflag]
  case ie => rw [h.ie, memWrite_ie, writeIe_eq_storedIe]
  case bootMapped => rw [h.bootMapped, memWrite_bootMapped_eq]
  case cartRamEnabled => rw [h.cartRamEnabled, memWrite_cartRamEnabled]
  case key1 => rw [h.key1, memWrite_key1_eq]
  case doubleSpeed => rw [h.doubleSpeed, memWrite_doubleSpeed]
  case busState => rw [h.busState, memWrite_busState, writtenByDevice_eq_seesWrite, busAfterWrite]

/-! ## Two writes to neighbouring addresses (R9, R64) -/

/-- The two addresses of a 16-bit store. -/
def Neighbours (x y : Word) : Prop := y = x + 1 ∨ x = y + 1

theorem Neighbours.symm (h : Neighbours x y) : Neighbours y x := Or.symm h

/-- The mirror is too far away to make one byte of two neighbours (R69). -/
theorem Neighbours.not_sameByte (h : Neighbours x y) (s : State) : ¬ SameByte s x y := by
  rintro (rfl | ⟨n, hx, hy⟩)
  · obtain h | h := h <;> bv_omega
  · have hx := (busTarget_ram hx).2
    have hy := (busTarget_ram hy).2
    obtain rfl | rfl := h <;> bv_omega

/-- The boot ROM's window is far from its latch (R70). -/
theorem Neighbours.bootByte_of_latch (h : Neighbours x y) (hx : busTarget s x = .bootLatch) :
    bootByte s y.toNat = none := by
  obtain ⟨rfl, -⟩ := busTarget_bootLatch hx
  refine bootByte_of_le ?_
  obtain h | h := h <;> bv_omega

/-- A write never maps the boot ROM's bytes again (R70). -/
theorem bootByte_memWrite_eq_none (h : bootByte s n = none) : bootByte (memWrite s x v) n = none := by
  cases hm : (memWrite s x v).bootMapped with
  | false => exact bootByte_of_unmapped hm n
  | true => simpa [bootByte, hm, memWrite_bootMapped hm] using h

theorem Neighbours.busTarget_memWrite (h : Neighbours x y) : busTarget (memWrite s x v) y = busTarget s y :=
  Machine.busTarget_memWrite v h.bootByte_of_latch

/-- Both bytes of two writes to neighbouring addresses of RAM read back. -/
theorem Neighbours.readByte_first (h : Neighbours x y) (hm : Memory.wf s.mem = true) (hx : busTarget s x = .ram n) :
    readByte (memWrite (memWrite s x v) y w) x = v := by
  have hx' : busTarget (memWrite s x v) x = .ram n := (busTarget_memWrite_ram hx v x).trans hx
  rw [readByte_memWrite_outside (h.not_sameByte _) (by rw [hx']; rfl) h.symm.bootByte_of_latch,
    readByte_memWrite_ram hm v hx]

theorem Neighbours.readByte_second (h : Neighbours x y) (hm : Memory.wf s.mem = true) (hy : busTarget s y = .ram n) :
    readByte (memWrite (memWrite s x v) y w) y = w :=
  readByte_memWrite_ram (memWrite_mem_wf hm x v) w (h.busTarget_memWrite.trans hy)

/-- Every other byte reads as before. -/
theorem Neighbours.readByte_outside (h : Neighbours x y) (hax : ¬ SameByte s a x) (hay : ¬ SameByte s a y)
    (hf : (busTarget s a).isFree = false) (hb : bootByte s a.toNat = none) :
    readByte (memWrite (memWrite s x v) y w) a = readByte s a := by
  have ha : busTarget (memWrite s x v) a = busTarget s a := Machine.busTarget_memWrite v fun _ => hb
  have hay' : ¬ SameByte (memWrite s x v) a y := by
    simpa only [SameByte, ha, h.busTarget_memWrite] using hay
  rw [readByte_memWrite_outside hay' (by rwa [ha]) fun _ => bootByte_memWrite_eq_none hb,
    readByte_memWrite_outside hax hf fun _ => hb]

/-! ## Addresses and pairs as numbers (R21, R97) -/

theorem getPairSp_toNat (s : State) (p : PairSp) : (getPairSp s p).toNat = pairNat s p := by
  cases p with
  | bc => exact hiLo_toNat s.b s.c
  | de => exact hiLo_toNat s.d s.e
  | hl => exact hiLo_toNat s.h s.l
  | sp => rfl

theorem ofNat_pairNat (s : State) (p : PairSp) : BitVec.ofNat 16 (pairNat s p) = getPairSp s p := by
  rw [← getPairSp_toNat, BitVec.ofNat_toNat, BitVec.setWidth_eq]

/-- A write of a pair is its value at the end of the instruction. -/
theorem pairNat_setPairSp (s : State) (p : PairSp) (v : Word) (c : StepResult) :
    pairNat { setPairSp s p v with result := c } p = v.toNat := by
  have h : pairNat (setPairSp s p v) p = v.toNat := by rw [← getPairSp_toNat, getPairSp_setPairSp]
  rw [← h]
  cases p <;> rfl

theorem getHL_toNat (s : State) : (getHL s).toNat = hlNat s := getPairSp_toNat s .hl

theorem hlNat_setHL (s : State) (v : Word) (c : StepResult) : hlNat { setHL s v with result := c } = v.toNat :=
  pairNat_setPairSp s .hl v c

theorem highPage_toNat (n : Byte) : (highPage n).toNat = 0xFF00 + n.toNat := by
  simp only [highPage, zext16]; bv_omega

theorem ofNat_highPage (n : Byte) : BitVec.ofNat 16 (0xFF00 + n.toNat) = highPage n := by
  rw [← highPage_toNat, BitVec.ofNat_toNat, BitVec.setWidth_eq]

theorem getHL_add_one_toNat (s : State) : (getHL s + 1).toNat = (hlNat s + 1) % 65536 := by
  rw [BitVec.toNat_add, getHL_toNat]; rfl

theorem getHL_sub_one_toNat (s : State) : (getHL s - 1).toNat = (hlNat s + 65535) % 65536 := by
  rw [BitVec.toNat_sub, getHL_toNat, Nat.add_comm]; rfl

/-! ## Register loads (R120-R122) -/

/-- Settles O1: a write of one register. -/
theorem registerLoads : Obligations.RegisterLoads := by
  intro s
  refine ⟨fun dst src => form_of_doneIn (setR8 s dst (getR8 s src)) ?_ rfl
      ⟨getR8_setR8_same s dst _ _, coreKept_of_fields (regsKept_setR8 (fun _ => rfl) dst _ _), SameBus.busKept {}⟩,
    fun r n => form_of_doneIn (setR8 s r n) ?_ rfl
      ⟨getR8_setR8_same s r n _, coreKept_of_fields (regsKept_setR8 (fun _ => rfl) r n _), SameBus.busKept {}⟩⟩
  · cases dst <;> cases src <;> rfl
  · cases r <;> rfl

/-- Settles O2: the address is taken before the write of the register. -/
theorem loadFromHl : Obligations.LoadFromHl := by
  intro s r
  refine form_of_doneIn (setR8 (afterRead s (getHL s)) r (readByte s (getHL s))) ?_ rfl
    ⟨getR8_setR8_same _ r _ _, coreKept_of_fields (regsKept_setR8 (getR8_afterRead s _) r _ _), SameBus.busRead {}⟩
  cases r <;> rfl

/-! ## Loads and stores of one byte (R123-R134) -/

@[simp] theorem loadA_a (x : Word) (s : State) : (loadA x s).a = readByte s x := rfl

@[simp] theorem loadA_busState (x : Word) (s : State) : (loadA x s).busState = (afterRead s x).busState := rfl

/-- An instruction that stores a byte and does nothing else. -/
theorem form_of_memWrite {i : Instr} {bytes : List Nat} (henc : (encode i).map BitVec.toNat = bytes)
    (hexec : exec i s = doneIn n (memWrite s x v)) :
    Form i bytes n s fun t => CoreKept s t [] ∧ BusWritten x v s t :=
  form_of_doneIn _ henc hexec ⟨coreKept_of_fields, SameBus.busWritten {}⟩

/-- An instruction that loads A from memory and does nothing else. -/
theorem form_of_loadA {i : Instr} {bytes : List Nat} (henc : (encode i).map BitVec.toNat = bytes)
    (hexec : exec i s = doneIn n (loadA x s)) :
    Form i bytes n s fun t => t.a = readByte s x ∧ CoreKept s t [.a] ∧ BusRead x s t :=
  form_of_doneIn _ henc hexec ⟨rfl, coreKept_of_fields, SameBus.busRead {}⟩

/-- Settles O3: one write at HL. -/
theorem storeToHl : Obligations.StoreToHl :=
  fun _ => ⟨fun r => form_of_memWrite (by cases r <;> rfl) rfl, fun _ => form_of_memWrite rfl rfl⟩

/-- Settles O4: one read into A, at the address the registers or the operand give. -/
theorem accumulatorLoads : Obligations.AccumulatorLoads := by
  intro s
  simp only [ofNat_pairNat, ofNat_highPage]
  exact ⟨form_of_loadA rfl rfl, form_of_loadA rfl rfl, fun a => form_of_loadA (map_toNat_wordOperand _ a) rfl,
    form_of_loadA rfl rfl, fun n => form_of_loadA rfl rfl⟩

/-- Settles O5: one write of A. -/
theorem accumulatorStores : Obligations.AccumulatorStores :=
  fun _ => ⟨form_of_memWrite rfl rfl, form_of_memWrite rfl rfl,
    fun a => form_of_memWrite (map_toNat_wordOperand _ a) rfl, form_of_memWrite rfl rfl,
    fun _ => form_of_memWrite rfl rfl, highPage_toNat⟩

/-- Settles O6: the access at HL as it was, then a write of HL. -/
theorem hlStepping : Obligations.HlStepping := by
  intro s
  have down (u : State) : hlNat { setHL u (getHL s - 1) with result := .cycles 8 } = (hlNat s + 65535) % 65536 := by
    rw [hlNat_setHL, getHL_sub_one_toNat]
  have up (u : State) : hlNat { setHL u (getHL s + 1) with result := .cycles 8 } = (hlNat s + 1) % 65536 := by
    rw [hlNat_setHL, getHL_add_one_toNat]
  exact ⟨form_of_doneIn (setHL (loadA (getHL s) s) (getHL s - 1)) rfl rfl
      ⟨rfl, ⟨down _, coreKept_of_fields⟩, SameBus.busRead {}⟩,
    form_of_doneIn (setHL (memWrite s (getHL s) s.a) (getHL s - 1)) rfl rfl
      ⟨⟨down _, coreKept_of_fields⟩, SameBus.busWritten {}⟩,
    form_of_doneIn (setHL (loadA (getHL s) s) (getHL s + 1)) rfl rfl
      ⟨rfl, ⟨up _, coreKept_of_fields⟩, SameBus.busRead {}⟩,
    form_of_doneIn (setHL (memWrite s (getHL s) s.a) (getHL s + 1)) rfl rfl
      ⟨⟨up _, coreKept_of_fields⟩, SameBus.busWritten {}⟩⟩

/-! ## Loads and stores of 16 bits (R139-R141) -/

theorem regsKept_setPairSp (s : State) (p : PairSp) (v : Word) (c : StepResult) :
    RegsKept s { setPairSp s p v with result := c } (pairRegs p) := by
  cases p with
  | bc => exact regsKept_of_fields (t := { setBC s v with result := c }) (but := [.b, .c])
  | de => exact regsKept_of_fields (t := { setDE s v with result := c }) (but := [.d, .e])
  | hl => exact regsKept_of_fields (t := { setHL s v with result := c }) (but := [.h, .l])
  | sp => exact regsKept_of_fields (t := { s with sp := v, result := c }) (but := [])

theorem setPairSp_sp {p : PairSp} (h : p ≠ .sp) (s : State) (v : Word) : (setPairSp s p v).sp = s.sp := by
  cases p with
  | bc | de | hl => rfl
  | sp => exact absurd rfl h

/-- Settles O7: a write of one pair. -/
theorem pairLoads : Obligations.PairLoads := by
  intro s
  refine ⟨fun p n => form_of_doneIn (setPairSp s p n) ?_ rfl
      ⟨pairNat_setPairSp s p n _, regsKept_setPairSp s p n _, fun h => setPairSp_sp h s n, setPairSp_f s p n,
        setPairSp_pc s p n, kept_of_fields, SameBus.busKept {}⟩,
    form_of_doneIn { s with sp := getHL s } rfl rfl
      ⟨getHL_toNat s, regsKept_of_fields, rfl, rfl, kept_of_fields, SameBus.busKept {}⟩⟩
  cases p <;> exact map_toNat_wordOperand _ n

/-- Settles O8: two writes to neighbouring addresses. -/
theorem storeSp : Obligations.StoreSp := by
  intro s a
  have next : Neighbours a (a + 1) := .inl rfl
  exact form_of_doneIn (memWrite (memWrite s a (s.sp.extractLsb' 0 8)) (a + 1) (s.sp.extractLsb' 8 8))
    (map_toNat_wordOperand _ a) rfl
    ⟨coreKept_of_fields, SameBus.busWritten {}, SameBus.busWritten {}, fun _ => next.readByte_outside⟩

/-! ## The stack (R142, R143) -/

/-- What a push writes, for any state that has the bus and the SP it leaves. -/
theorem pushedBytes_of_sameBus
    (h : SameBus (memWrite (memWrite s (s.sp - 1) v) (s.sp - 2) w) t) (hsp : t.sp = s.sp - 2) :
    PushedBytes v w s t := by
  have next : Neighbours (s.sp - 1) (s.sp - 2) := .inr (by bv_omega)
  refine ⟨hsp, SameBus.busWritten {}, h.busWritten, fun hm n hx => ?high, fun hm n hx => ?low,
    fun a hx hx' hf hb => ?outside⟩
  case high => rw [h.readByte, next.readByte_first hm hx]
  case low => rw [h.readByte, next.readByte_second hm hx]
  case outside => rw [h.readByte, next.readByte_outside hx hx' hf hb]

/-- The bytes of a pair in the order of the push (R21). -/
theorem bytes_getPairAf (s : State) (p : PairAf) :
    hiByte (getPairAf s p) = (pairAfBytes s p).1 ∧ loByte (getPairAf s p) = (pairAfBytes s p).2 := by
  cases p <;> exact ⟨hiByte_hiLo _ _, loByte_hiLo _ _⟩

/-- Settles O9: a push of the pair's two bytes. -/
theorem pushPair : Obligations.PushPair := by
  intro s p
  refine form_of_doneIn (push16 (getPairAf s p) s) (by cases p <;> rfl) rfl
    ⟨?_, regsKept_of_fields, by simp, by simp, kept_of_fields⟩
  obtain ⟨hi, lo⟩ := bytes_getPairAf s p
  rw [← hi, ← lo, push16_eq]
  exact pushedBytes_of_sameBus {} rfl

theorem pop16_fst (s : State) : (pop16 s).1 = popped s := by
  have h : SameBus (afterRead s s.sp) { afterRead s s.sp with sp := s.sp + 1 } := {}
  apply BitVec.eq_of_toNat_eq
  simp only [pop16, memRead, afterRead_sp, popped, h.readByte, hiLo_toNat]
  bv_omega

@[simp] theorem pop16_busState (s : State) :
    (pop16 s).2.busState = (afterRead (afterRead s s.sp) (s.sp + 1)).busState := by rw [pop16_eq]

theorem exec_popRr (p : PairAf) (s : State) :
    exec (.popRr p) s = doneIn 12 (setPairAf (pop16 s).2 p (popped s)) := by
  rw [← pop16_fst]; rfl

/-- Settles O10: a pop, then a write of the pair; that of AF drops the low nibble. -/
theorem popPair : Obligations.PopPair := by
  intro s
  have rest (p : PairAf) :
      let t := { setPairAf (pop16 s).2 p (popped s) with result := .cycles 12 }
      PoppedBus s t ∧ t.pc = s.pc ∧ Kept s t :=
    ⟨⟨by simp, SameBus.busRead {}⟩, by simp, kept_of_fields⟩
  refine ⟨form_of_doneIn (setBC (pop16 s).2 (popped s)) rfl (exec_popRr .bc s)
      ⟨pairNat_setPairSp _ .bc _ _, regsKept_of_fields, by simp, rest .bc⟩,
    form_of_doneIn (setDE (pop16 s).2 (popped s)) rfl (exec_popRr .de s)
      ⟨pairNat_setPairSp _ .de _ _, regsKept_of_fields, by simp, rest .de⟩,
    form_of_doneIn (setHL (pop16 s).2 (popped s)) rfl (exec_popRr .hl s)
      ⟨pairNat_setPairSp _ .hl _ _, regsKept_of_fields, by simp, rest .hl⟩,
    form_of_doneIn (setAF (pop16 s).2 (popped s)) rfl (exec_popRr .af s)
      ⟨hiByte_toNat (popped s), ?_, regsKept_of_fields, rest .af⟩⟩
  rw [← loByte_toNat]
  exact and_highNibble_toNat _

/-! ## SP plus a signed offset (R144, R203) -/

theorem flagsAre_setZNHC (s : State) (z n h c : Bool) :
    FlagsAre (setZNHC s (some z) (some n) (some h) (some c)) z n h c :=
  packFlags_bits z n h c

/-- The carries out of bits 3 and 7 of SP plus the unsigned offset. -/
theorem flagsAre_setSpOffsetFlags (sp : Word) (e : Byte) (s : State) :
    FlagsAre (setSpOffsetFlags sp e s) false false (decide (sp.toNat % 16 + e.toNat % 16 > 15))
      (decide (sp.toNat % 256 + e.toNat > 255)) := by
  have hh : (add8 (loByte sp) e false).h = decide (sp.toNat % 16 + e.toNat % 16 > 15) := by
    simp [add8, loByte_toNat]
  have hc : (add8 (loByte sp) e false).c = decide (sp.toNat % 256 + e.toNat > 255) := by
    simp [add8, loByte_toNat]
  rw [← hh, ← hc]
  exact flagsAre_setZNHC s _ _ _ _

/-- Settles O11: a signed sum of 16 bits, and the flags of the low byte's. -/
theorem spOffset : Obligations.SpOffset := by
  intro s e
  refine ⟨form_of_doneIn (setSpOffsetFlags s.sp e (setHL s (s.sp + sext16 e))) rfl rfl
      ⟨?_, flagsAre_setSpOffsetFlags s.sp e _, coreKeptButF_of_fields, SameBus.busKept {}⟩,
    form_of_doneIn (setSpOffsetFlags s.sp e { s with sp := s.sp + sext16 e }) rfl rfl
      ⟨add_sext16_toNat s.sp e, flagsAre_setSpOffsetFlags s.sp e _, regsKept_of_fields, rfl, kept_of_fields,
        SameBus.busKept {}⟩⟩
  rw [← add_sext16_toNat]
  exact congrArg _ (hlNat_setHL s _ (.cycles 12))

end Sys2Proof.Proofs
end

section
/-!
SUPPORT. The shapes that the statements of 41_alu8.md share: an operation of the ALU in its three forms, and an
instruction that writes the flags, with or without a register or the byte at HL. The statements of 41_alu8.md: the ALU's
operations (O12-O17), INC and DEC (O18), DAA (O19) and what it is for (O20), CPL, SCF and CCF (O21).
-/
namespace Sys2Proof.Proofs

open Sys2Proof.Machine Sys2Proof.Claims

variable {s t u : State} {a v w : Byte} {op n : Nat} {cin : Bool} {i : Instr} {bytes : List Nat}
  {z nn h c : Option Bool}

/-! ## Forms -/

/-- A form with its effect in other words: weaker ones, or the same by unfolding. -/
theorem form_imp {P Q : State → Prop} (hf : Form i bytes n s P) (hPQ : ∀ t, P t → Q t) : Form i bytes n s Q := by
  obtain ⟨henc, t, hexec, hres, hP⟩ := hf
  exact ⟨henc, t, hexec, hres, hPQ t hP⟩

/-- An instruction has one next state, so what its form says holds of that one. -/
theorem effect_of_form {P : State → Prop} (hf : Form i bytes n s P) (ht : exec i s = .next t) : P t := by
  obtain ⟨-, t', hexec, -, hP⟩ := hf
  cases hexec.symm.trans ht
  exact hP

/-! ## The ALU's operations in their three forms (R150) -/

/-- The flags of a result, and A where the operation writes it, on a core whose A was `a` (R150). -/
structure AluDone (r : AluResult) (a : Byte) (t : State) : Prop where
  a : t.a = if r.writesA then r.r else a
  flags : FlagsAre t (isZero r.r) r.n r.h r.c

theorem aluDone_aluExec (o : AluOp) (v : Byte) (s : State) (k : StepResult) :
    AluDone (alu o s.a v (flagC s)) s.a { aluExec o v s with result := k } := by
  rw [aluExec_eq]
  exact ⟨rfl, packFlags_bits _ _ _ _⟩

/-- The bytes and the meanings of an operation's three forms. -/
structure AluInstrs (o : AluOp) (op : Nat) (onReg : Reg8 → Instr) (onHl : Instr) (onImm : Byte → Instr) : Prop where
  bytesReg : ∀ r, (encode (onReg r)).map BitVec.toNat = [op + regNo r] := by intro r; cases r <;> rfl
  bytesHl : (encode onHl).map BitVec.toNat = [op + 6] := by rfl
  bytesImm : ∀ m, (encode (onImm m)).map BitVec.toNat = [op + 70, m.toNat] := by exact fun _ => rfl
  execReg : ∀ r s, exec (onReg r) s = aluReg o r s := by exact fun _ _ => rfl
  execHl : ∀ s, exec onHl s = aluHl o s := by exact fun _ => rfl
  execImm : ∀ m s, exec (onImm m) s = aluImm o m s := by exact fun _ _ => rfl

/-- The three forms of an operation, from what its result says of A and the flags. -/
theorem AluInstrs.forms {o : AluOp} {onReg : Reg8 → Instr} {onHl : Instr} {onImm : Byte → Instr}
    {effect : Byte → Bool → Byte → State → Prop} (is : AluInstrs o op onReg onHl onImm)
    (heff : ∀ {a cf v t}, AluDone (alu o a v cf) a t → effect a cf v t) : AluForms onReg onHl onImm op effect := by
  intro s
  refine ⟨fun r => form_of_doneIn (aluExec o (getR8 s r) s) (is.bytesReg r) (is.execReg r s) ?reg,
    form_of_doneIn (aluExec o (readByte s (getHL s)) (afterRead s (getHL s))) is.bytesHl (is.execHl s) ?hl,
    fun m => form_of_doneIn (aluExec o m s) (is.bytesImm m) (is.execImm m s) ?imm⟩
  case reg => exact ⟨heff (aluDone_aluExec o _ s _), coreKeptButF_of_fields, SameBus.busKept {}⟩
  case imm => exact ⟨heff (aluDone_aluExec o _ s _), coreKeptButF_of_fields, SameBus.busKept {}⟩
  case hl =>
    have done := aluDone_aluExec o (readByte s (getHL s)) (afterRead s (getHL s)) (.cycles 8)
    rw [flagC, afterRead_a, afterRead_f] at done
    exact ⟨heff done, coreKeptButF_of_fields, SameBus.busRead {}⟩

/-! ## Addition and subtraction (R10) -/

theorem add8_toNat (a v : Byte) (cin : Bool) : (add8 a v cin).r.toNat = (a.toNat + v.toNat + cin.toNat) % 256 :=
  BitVec.toNat_ofNat _ 8

theorem sub8_toNat (a v : Byte) (cin : Bool) :
    (sub8 a v cin).r.toNat = (a.toNat + 256 - v.toNat + 256 - cin.toNat) % 256 := by
  cases cin <;> simp only [sub8, Bool.toNat_true, Bool.toNat_false] <;> bv_omega

/-- A difference is zero between equal bytes alone. -/
theorem isZero_sub8 (a v : Byte) : isZero (sub8 a v false).r = decide (a = v) := by
  simp [isZero, sub8, BitVec.sub_eq_iff_eq_add]

/-- Where A is written, Z says whether the new A is zero. -/
theorem AluDone.written {r : AluResult} (d : AluDone r a t) (hw : r.writesA = true) :
    t.a = r.r ∧ FlagsAre t (decide (t.a = 0)) r.n r.h r.c := by
  have ha : t.a = r.r := by rw [d.a, if_pos hw]
  exact ⟨ha, ha ▸ d.flags⟩

theorem AluDone.add (d : AluDone (aluOf (add8 a v cin) false true) a t) :
    t.a.toNat = (a.toNat + v.toNat + cin.toNat) % 256 ∧
    FlagsAre t (decide (t.a = 0)) false (decide (a.toNat % 16 + v.toNat % 16 + cin.toNat > 15))
      (decide (a.toNat + v.toNat + cin.toNat > 255)) := by
  obtain ⟨ha, flags⟩ := d.written rfl
  exact ⟨ha ▸ add8_toNat a v cin, flags⟩

theorem AluDone.sub (d : AluDone (aluOf (sub8 a v cin) true true) a t) :
    t.a.toNat = (a.toNat + 256 - v.toNat + 256 - cin.toNat) % 256 ∧
    FlagsAre t (decide (t.a = 0)) true (decide (a.toNat % 16 < v.toNat % 16 + cin.toNat))
      (decide (a.toNat < v.toNat + cin.toNat)) := by
  obtain ⟨ha, flags⟩ := d.written rfl
  exact ⟨ha ▸ sub8_toNat a v cin, flags⟩

/-- Settles O12: a sum with no carry in. -/
theorem addForms : Obligations.AddForms := AluInstrs.forms (o := .add) {} AluDone.add

/-- Settles O13: a sum with the C flag as the carry in. -/
theorem adcForms : Obligations.AdcForms := AluInstrs.forms (o := .adc) {} AluDone.add

/-- Settles O14: a difference with no borrow in. -/
theorem subForms : Obligations.SubForms := by
  refine AluInstrs.forms (o := .sub) {} fun d => ?_
  obtain ⟨ha, flags⟩ := d.sub
  refine ⟨?_, flags⟩
  rw [ha, Bool.toNat_false]
  omega

/-- Settles O15: a difference with the C flag as the borrow in. -/
theorem sbcForms : Obligations.SbcForms := AluInstrs.forms (o := .sbc) {} AluDone.sub

/-- Settles O16: A is written, each bit on its own. -/
theorem logicForms : Obligations.LogicForms := by
  refine ⟨AluInstrs.forms (o := .and) {} fun d => ?_, AluInstrs.forms (o := .xor) {} fun d => ?_,
    AluInstrs.forms (o := .or) {} fun d => ?_⟩ <;> obtain ⟨ha, flags⟩ := d.written rfl
  · exact ⟨fun k _ => ha ▸ BitVec.getLsbD_and, flags⟩
  · exact ⟨fun k _ => ha ▸ BitVec.getLsbD_xor, flags⟩
  · exact ⟨fun k _ => ha ▸ BitVec.getLsbD_or, flags⟩

/-- Settles O17: the flags of the difference, and A not written. -/
theorem cpForms : Obligations.CpForms :=
  AluInstrs.forms (o := .cp) {} fun d => ⟨d.a, isZero_sub8 _ _ ▸ d.flags⟩

/-! ## A write of a register or of the byte at HL, with flags (R12) -/

/-- The order of a write of a register and one of the flags does not matter. -/
theorem setZNHC_setR8 (s : State) (r : Reg8) (v : Byte) (z n h c : Option Bool) :
    setZNHC (setR8 s r v) z n h c = setR8 (setZNHC s z n h c) r v := by
  cases r <;> rfl

/-- The flags after `SetZNHC`: those given, and those of before where none is given. -/
theorem flagsAre_setZNHC_getD (hf : u.f = s.f) (k : StepResult) :
    FlagsAre { setZNHC u z nn h c with result := k } (z.getD (flagZ s)) (nn.getD (flagN s)) (h.getD (flagH s))
      (c.getD (flagC s)) := by
  simp only [flagZ, flagN, flagH, flagC, ← hf]
  exact packFlags_bits _ _ _ _

/-- An instruction that writes a register and the flags and does nothing else. -/
theorem form_of_setR8_setZNHC {r : Reg8} (henc : (encode i).map BitVec.toNat = bytes)
    (hexec : exec i s = doneIn n (setZNHC (setR8 s r v) z nn h c)) :
    Form i bytes n s fun t =>
      getR8 t r = v ∧ FlagsAre t (z.getD (flagZ s)) (nn.getD (flagN s)) (h.getD (flagH s)) (c.getD (flagC s)) ∧
      CoreKeptButF s t [r] ∧ BusKept s t := by
  refine form_of_doneIn _ henc hexec ⟨?_, flagsAre_setZNHC_getD (setR8_f s r v) _, ?_, SameBus.busKept {}⟩
  · rw [setZNHC_setR8]
    exact getR8_setR8_same _ r v _
  · rw [setZNHC_setR8]
    exact coreKeptButF_of_fields (regsKept_setR8 (getR8_setZNHC s z nn h c) r v _)

/-- An instruction that writes the flags and does nothing else. -/
theorem form_of_setZNHC (henc : (encode i).map BitVec.toNat = bytes)
    (hexec : exec i s = doneIn n (setZNHC s z nn h c)) :
    Form i bytes n s fun t =>
      FlagsAre t (z.getD (flagZ s)) (nn.getD (flagN s)) (h.getD (flagH s)) (c.getD (flagC s)) ∧
      CoreKeptButF s t [] ∧ BusKept s t :=
  form_of_doneIn _ henc hexec ⟨flagsAre_setZNHC_getD rfl _, coreKeptButF_of_fields, SameBus.busKept {}⟩

/-- An instruction that reads the byte at an address, writes it back and writes the flags. -/
theorem form_of_memWrite_setZNHC {y : Word} (henc : (encode i).map BitVec.toNat = bytes)
    (hexec : exec i s = doneIn n (setZNHC (memWrite (afterRead s y) y w) z nn h c)) :
    Form i bytes n s fun t =>
      FlagsAre t (z.getD (flagZ s)) (nn.getD (flagN s)) (h.getD (flagH s)) (c.getD (flagC s)) ∧
      CoreKeptButF s t [] ∧ BusWritten y w (afterRead s y) t :=
  form_of_doneIn _ henc hexec ⟨flagsAre_setZNHC_getD (by simp) _, coreKeptButF_of_fields, SameBus.busWritten {}⟩

/-! ## INC and DEC (R151) -/

theorem add_one_toNat (v : Byte) : (v + 1).toNat = (v.toNat + 1) % 256 := BitVec.toNat_add v 1

theorem sub_one_toNat (v : Byte) : (v - 1).toNat = (v.toNat + 255) % 256 := by bv_omega

/-- Settles O18: one more or one less, written where the operand was. -/
theorem incDecByte : Obligations.IncDecByte := by
  intro s
  refine ⟨fun r => ?incR, fun r => ?decR, fun v w x hv hw hx => ?hl⟩
  case incR =>
    refine form_imp (form_of_setR8_setZNHC (r := r) (by cases r <;> rfl) rfl) fun t ⟨hr, flags, kept⟩ => ?_
    rw [hr]
    exact ⟨add_one_toNat _, flags, kept⟩
  case decR =>
    refine form_imp (form_of_setR8_setZNHC (r := r) (by cases r <;> rfl) rfl) fun t ⟨hr, flags, kept⟩ => ?_
    rw [hr]
    exact ⟨sub_one_toNat _, flags, kept⟩
  case hl =>
    have hw : w = v + 1 := BitVec.eq_of_toNat_eq (hw.trans (add_one_toNat v).symm)
    have hx : x = v - 1 := BitVec.eq_of_toNat_eq (hx.trans (sub_one_toNat v).symm)
    subst hv hw hx
    exact ⟨form_imp (form_of_memWrite_setZNHC rfl rfl) fun _ => id,
      form_imp (form_of_memWrite_setZNHC rfl rfl) fun _ => id⟩

/-! ## DAA (R188) -/

theorem toNat_add_if (p : Prop) [Decidable p] (a k : Byte) :
    (if p then a + k else a).toNat = (a.toNat + if p then k.toNat else 0) % 256 := by
  split
  · exact BitVec.toNat_add a k
  · exact (Nat.mod_eq_of_lt a.isLt).symm

/-- After an addition the two adjustments are added (N = 0). -/
theorem daaAdjust_add_toNat (a : Byte) (h c : Bool) :
    (daaAdjust a false h c).1.toNat =
      (a.toNat + (if c = true ∨ a.toNat > 0x99 then 0x60 else 0) + (if h = true ∨ a.toNat % 16 > 9 then 6 else 0)) %
        256 := by
  simp only [daaAdjust, Bool.false_eq_true, if_false, toNat_add_if, Nat.mod_add_mod, Bool.or_eq_true, decide_eq_true_eq]
  rfl

/-- After a subtraction they are subtracted (N = 1). -/
theorem daaAdjust_sub_toNat (a : Byte) (h c : Bool) :
    (daaAdjust a true h c).1.toNat =
      (a.toNat + 256 - ((if c = true then 0x60 else 0) + (if h = true then 6 else 0))) % 256 := by
  simp only [daaAdjust, if_true]
  split_ifs <;> bv_omega

/-- Settles O19: the adjusted A, whose C is the one R188 gives. -/
theorem decimalAdjust : Obligations.DecimalAdjust := by
  intro s
  refine form_imp (form_of_setR8_setZNHC (r := .a) (v := (daaAdjust s.a (flagN s) (flagH s) (flagC s)).1) rfl rfl)
    fun t ⟨ha, flags@⟨_, _, _, hc, _⟩, kept⟩ => ?_
  have ha : t.a = _ := ha
  refine ⟨fun hn => ?add, fun hn => ?sub, ?flags, kept⟩
  case add =>
    rw [hn] at ha hc
    exact ⟨ha ▸ daaAdjust_add_toNat _ _ _, hc⟩
  case sub =>
    rw [hn] at ha hc
    exact ⟨ha ▸ daaAdjust_sub_toNat _ _ _, hc⟩
  case flags =>
    rw [hc, ha]
    exact flags

/-! ## Two-digit decimal addition (R160, R188) -/

/-- Two decimal digits in a byte. -/
def IsBcd (m : Nat) : Prop := m % 16 < 10 ∧ m / 16 < 10

/-- The number two digits stand for. -/
def bcdValue (m : Nat) : Nat := m / 16 * 10 + m % 16

/-- DAA adjusts the low digit of a sum exactly when the low digits' sum has two digits. -/
theorem lowAdjust_iff {p q : Nat} (hp : IsBcd p) (hq : IsBcd q) :
    (p % 16 + q % 16 > 15 ∨ (p + q) % 256 % 16 > 9) ↔ p % 16 + q % 16 ≥ 10 := by
  obtain ⟨hp, -⟩ := hp
  obtain ⟨hq, -⟩ := hq
  omega

/-- DAA adjusts the high digit exactly when the decimal sum has three digits. -/
theorem highAdjust_iff {p q : Nat} (hp : IsBcd p) (hq : IsBcd q) :
    (p + q > 255 ∨ (p + q) % 256 > 0x99) ↔ bcdValue p + bcdValue q ≥ 100 := by
  obtain ⟨hpl, hph⟩ := hp
  obtain ⟨hql, hqh⟩ := hq
  unfold bcdValue
  omega

/-- What DAA makes of the sum of two bytes, with its conditions in decimal. -/
def daaOfSum (p q : Nat) : Nat :=
  ((p + q) % 256 + (if bcdValue p + bcdValue q ≥ 100 then 0x60 else 0) + (if p % 16 + q % 16 ≥ 10 then 6 else 0)) % 256

/-- Its digits are those of the decimal addition, with the carries of that. -/
theorem daaOfSum_digits {p q : Nat} (hp : IsBcd p) (hq : IsBcd q) :
    daaOfSum p q % 16 + (if p % 16 + q % 16 ≥ 10 then 10 else 0) = p % 16 + q % 16 ∧
    daaOfSum p q / 16 + (if bcdValue p + bcdValue q ≥ 100 then 10 else 0) =
      p / 16 + q / 16 + if p % 16 + q % 16 ≥ 10 then 1 else 0 := by
  obtain ⟨hpl, hph⟩ := hp
  obtain ⟨hql, hqh⟩ := hq
  unfold daaOfSum bcdValue
  split_ifs <;> constructor <;> omega

theorem daaOfSum_decimal {p q : Nat} (hp : IsBcd p) (hq : IsBcd q) :
    IsBcd (daaOfSum p q) ∧ bcdValue (daaOfSum p q) = (bcdValue p + bcdValue q) % 100 := by
  obtain ⟨hlow, hhigh⟩ := daaOfSum_digits hp hq
  obtain ⟨hpl, hph⟩ := hp
  obtain ⟨hql, hqh⟩ := hq
  unfold IsBcd bcdValue at *
  split_ifs at hlow hhigh <;> omega

/-- Settles O20: the flags of the sum tell DAA which digits to adjust. -/
theorem bcdAddition : Obligations.BcdAddition := by
  intro s t u r _ _ ha hr hadd hdaa
  obtain ⟨addReg, -, -⟩ := addForms s
  obtain ⟨⟨sum, -, hN, hH, hC, -⟩, -⟩ := effect_of_form (addReg r) hadd
  obtain ⟨adjusted, -, -⟩ := effect_of_form (decimalAdjust t) hdaa
  obtain ⟨hu, hcu⟩ := adjusted hN
  simp only [hH, hC, sum, decide_eq_true_eq, lowAdjust_iff ha hr, highAdjust_iff ha hr] at hu
  rw [hC, sum, ← Bool.decide_or, decide_eq_decide.2 (highAdjust_iff ha hr)] at hcu
  have hu : u.a.toNat = daaOfSum s.a.toNat (getR8 s r).toNat := hu
  obtain ⟨digits, value⟩ := daaOfSum_decimal ha hr
  rw [← hu] at digits value
  exact ⟨digits, value, hcu⟩

/-! ## CPL, SCF and CCF -/

theorem xor_ones_toNat (a : Byte) : (a ^^^ 0xFF).toNat = 255 - a.toNat := by
  rw [show (0xFF : Byte) = BitVec.allOnes 8 from rfl, BitVec.xor_allOnes, BitVec.toNat_not]

/-- Settles O21: a write of A with flags, and two writes of flags alone. -/
theorem complementAndCarry : Obligations.ComplementAndCarry := by
  intro s
  refine ⟨?cpl, form_imp (form_of_setZNHC rfl rfl) fun _ => id, form_imp (form_of_setZNHC rfl rfl) fun _ => id⟩
  case cpl =>
    refine form_imp (form_of_setR8_setZNHC (r := .a) (v := s.a ^^^ 0xFF) rfl rfl) fun t ⟨ha, effect⟩ => ⟨?_, effect⟩
    exact (congrArg BitVec.toNat ha).trans (xor_ones_toNat s.a)

end Sys2Proof.Proofs
end

section
/-!
SUPPORT. A write of one pair and nothing else, and the 16-bit sum with its carries. The statements of 42_alu16.md: INC rr
and DEC rr (O22), ADD HL,rr (O23).
-/
namespace Sys2Proof.Proofs

open Sys2Proof.Machine Sys2Proof.Claims

variable {s : State} {n : Nat} {i : Instr} {bytes : List Nat} {p : PairSp} {v : Word}

/-! ## ADD HL,rr (R202, R11) -/

theorem add16_toNat (a b : Word) : (add16 a b).r.toNat = (a.toNat + b.toNat) % 65536 :=
  BitVec.toNat_ofNat _ _

/-- The carries of HL and a pair, on their numbers. -/
theorem add16_carries (s : State) (p : PairSp) :
    (add16 (getHL s) (getPairSp s p)).h = decide (hlNat s % 4096 + pairNat s p % 4096 > 4095) ∧
    (add16 (getHL s) (getPairSp s p)).c = decide (hlNat s + pairNat s p > 65535) := by
  rw [← getHL_toNat, ← getPairSp_toNat]
  exact ⟨rfl, rfl⟩

/-- Settles O23: a write of HL, and one of the flags with Z left out. -/
theorem addHlPair : Obligations.AddHlPair := by
  intro s p
  obtain ⟨hh, hc⟩ := add16_carries s p
  have sum : (add16 (getHL s) (getPairSp s p)).r.toNat = (hlNat s + pairNat s p) % 65536 := by
    rw [add16_toNat, getHL_toNat, getPairSp_toNat]
  rw [← hh, ← hc, ← sum]
  exact form_of_doneIn _ (by cases p <;> rfl) rfl
    ⟨hlNat_setHL s _ (.cycles 8), flagsAre_setZNHC_getD (u := setHL s _) rfl _, coreKeptButF_of_fields,
      SameBus.busKept {}⟩

/-! ## INC rr and DEC rr (R200, R201) -/

/-- An instruction that writes a pair and does nothing else. -/
theorem form_of_setPairSp (henc : (encode i).map BitVec.toNat = bytes)
    (hexec : exec i s = doneIn n (setPairSp s p v)) :
    Form i bytes n s fun t =>
      pairNat t p = v.toNat ∧ RegsKept s t (pairRegs p) ∧ (p ≠ .sp → t.sp = s.sp) ∧ t.f = s.f ∧ t.pc = s.pc ∧
      Kept s t ∧ BusKept s t :=
  form_of_doneIn _ henc hexec ⟨pairNat_setPairSp s p v _, regsKept_setPairSp s p v _, fun h => setPairSp_sp h s v,
    setPairSp_f s p v, setPairSp_pc s p v, kept_of_fields, SameBus.busKept {}⟩

theorem getPairSp_add_one_toNat (s : State) (p : PairSp) : (getPairSp s p + 1).toNat = (pairNat s p + 1) % 65536 := by
  rw [BitVec.toNat_add, getPairSp_toNat]; rfl

theorem getPairSp_sub_one_toNat (s : State) (p : PairSp) :
    (getPairSp s p - 1).toNat = (pairNat s p + 65535) % 65536 := by
  rw [BitVec.toNat_sub, getPairSp_toNat, Nat.add_comm]; rfl

/-- Settles O22: one more or one less, written to the pair alone. -/
theorem incDecPair : Obligations.IncDecPair := by
  intro s p rest
  rw [← getPairSp_add_one_toNat, ← getPairSp_sub_one_toNat]
  exact ⟨form_of_setPairSp (by cases p <;> rfl) rfl, form_of_setPairSp (by cases p <;> rfl) rfl⟩

end Sys2Proof.Proofs
end

section
/-!
SUPPORT. The bits of a byte shifted by one place with a bit shifted in, those of each kind of rotate and shift, and the
bytes of the CB page. The statements of 43_rotate_shift_bit.md: the rotates of A (O24), the rotates, shifts and SWAP of a
register and of the byte at HL (O25, O26), BIT (O27), RES and SET (O28).
-/
namespace Sys2Proof.Proofs

open Sys2Proof.Machine Sys2Proof.Claims

variable {s : State} {n op : Nat} {i : Instr} {bytes : List Nat} {v w : Byte} {r : Reg8} {y : Word} {kind : RotKind}
  {bit : Byte → Bool → Nat → Bool} {carry : Byte → Bool} {onReg : Reg8 → Instr} {onHl : Instr}

/-! ## The bits of a rotate or shift (R220) -/

/-- Bit 0 takes the bit shifted in, each other bit its lower neighbour. -/
theorem getLsbD_shiftLeft_shiftIn (v : Byte) (b : Bool) {k : Nat} (hk : k < 8) :
    (v <<< 1 ||| BitVec.ofNat 8 b.toNat).getLsbD k = if k = 0 then b else v.getLsbD (k - 1) := by
  rw [BitVec.getLsbD_or, BitVec.getLsbD_shiftLeft, BitVec.getLsbD_ofNat]
  cases k with
  | zero => cases b <;> rfl
  | succ k => cases b <;> simp [hk, Nat.testBit_succ]

/-- Bit 7 takes the bit shifted in, each other bit its upper neighbour. -/
theorem getLsbD_shiftRight_shiftIn (v : Byte) (b : Bool) {k : Nat} (hk : k < 8) :
    (v >>> 1 ||| BitVec.ofNat 8 b.toNat <<< 7).getLsbD k = if k = 7 then b else v.getLsbD (k + 1) := by
  rw [BitVec.getLsbD_or, BitVec.getLsbD_ushiftRight, BitVec.getLsbD_shiftLeft, BitVec.getLsbD_ofNat, Nat.add_comm 1 k]
  by_cases h : k = 7
  · subst h
    cases b <;> simp
  · have low : k < 7 := by omega
    simp [h, low]

/-- What `RotShift` gives for a kind: the bits of the result, and the new carry. -/
structure RotBits (kind : RotKind) (bit : Byte → Bool → Nat → Bool) (carry : Byte → Bool) : Prop where
  bits : ∀ v cf, ∀ k < 8, (rotShift kind v cf).1.getLsbD k = bit v cf k
  carry : ∀ v cf, (rotShift kind v cf).2 = carry v := by exact fun _ _ => rfl

/-- Bit 7 comes round to bit 0. -/
theorem rotBits_rlc : RotBits .rlc (fun v _ k => v.getLsbD ((k + 7) % 8)) (fun v => v.getLsbD 7) where
  bits v _ k hk := by
    refine (getLsbD_shiftLeft_shiftIn v _ hk).trans ?_
    split
    · next h => rw [h]
    · next h => rw [show (k + 7) % 8 = k - 1 by omega]

/-- Bit 0 comes round to bit 7. -/
theorem rotBits_rrc : RotBits .rrc (fun v _ k => v.getLsbD ((k + 1) % 8)) (fun v => v.getLsbD 0) where
  bits v _ k hk := by
    refine (getLsbD_shiftRight_shiftIn v _ hk).trans ?_
    split
    · next h => rw [h]
    · next h => rw [Nat.mod_eq_of_lt (by omega)]

theorem rotBits_rl : RotBits .rl (fun v cf k => if k = 0 then cf else v.getLsbD (k - 1)) (fun v => v.getLsbD 7) where
  bits v cf _ hk := getLsbD_shiftLeft_shiftIn v cf hk

theorem rotBits_rr : RotBits .rr (fun v cf k => if k = 7 then cf else v.getLsbD (k + 1)) (fun v => v.getLsbD 0) where
  bits v cf _ hk := getLsbD_shiftRight_shiftIn v cf hk

theorem rotBits_sla :
    RotBits .sla (fun v _ k => if k = 0 then false else v.getLsbD (k - 1)) (fun v => v.getLsbD 7) where
  bits v _ k hk := by
    rw [← getLsbD_shiftLeft_shiftIn v false hk]
    exact congrArg (BitVec.getLsbD · k) BitVec.or_zero.symm

theorem rotBits_srl :
    RotBits .srl (fun v _ k => if k = 7 then false else v.getLsbD (k + 1)) (fun v => v.getLsbD 0) where
  bits v _ k hk := by
    rw [← getLsbD_shiftRight_shiftIn v false hk]
    exact congrArg (BitVec.getLsbD · k) BitVec.or_zero.symm

/-- The sign bit of a byte is its bit 7 shifted in again. -/
theorem and_signBit (v : Byte) : v &&& 0x80 = BitVec.ofNat 8 (v.getLsbD 7).toNat <<< 7 := by
  revert v; decide

theorem rotBits_sra :
    RotBits .sra (fun v _ k => if k = 7 then v.getLsbD 7 else v.getLsbD (k + 1)) (fun v => v.getLsbD 0) where
  bits v _ k hk := by
    rw [← getLsbD_shiftRight_shiftIn v _ hk, ← and_signBit]
    rfl

/-- The nibbles change places: one of the two shifts gives each bit. -/
theorem rotBits_swap : RotBits .swap (fun v _ k => v.getLsbD ((k + 4) % 8)) (fun _ => false) where
  bits v cf k hk := by
    rw [rotShift, BitVec.getLsbD_or, BitVec.getLsbD_shiftLeft, BitVec.getLsbD_ushiftRight]
    by_cases low : k < 4
    · rw [show (k + 4) % 8 = 4 + k by omega]
      simp [low]
    · rw [show (k + 4) % 8 = k - 4 by omega, BitVec.getLsbD_of_ge v (4 + k) (by omega)]
      simp [low, hk]

/-! ## The rotates of A (R221-R224) -/

theorem rotateA_eq (kind : RotKind) (s : State) :
    let result := rotShift kind s.a (flagC s)
    rotateA kind s = doneIn 4 (setZNHC (setR8 s .a result.1) (some false) (some false) (some false) (some result.2)) :=
  rfl

/-- A rotate of A is the kind's on the register A, with Z cleared. -/
theorem RotBits.accForm (is : RotBits kind bit carry) (henc : (encode i).map BitVec.toNat = [op])
    (hexec : ∀ s, exec i s = rotateA kind s) : AccForm i op bit carry := by
  intro s
  rw [← is.carry s.a (flagC s)]
  refine form_imp (form_of_setR8_setZNHC henc ((hexec s).trans (rotateA_eq kind s))) fun t ⟨ha, effect⟩ =>
    ⟨fun k hk => ?_, effect⟩
  rw [← is.bits s.a (flagC s) k hk, ← ha]
  rfl

/-- Settles O24: the four rotates, on A. -/
theorem accumulatorRotates : Obligations.AccumulatorRotates :=
  ⟨rotBits_rlc.accForm rfl fun _ => rfl, rotBits_rrc.accForm rfl fun _ => rfl, rotBits_rl.accForm rfl fun _ => rfl,
    rotBits_rr.accForm rfl fun _ => rfl⟩

/-! ## The CB page's rotates, shifts and SWAP (R225-R240) -/

theorem rotReg_eq (kind : RotKind) (r : Reg8) (s : State) :
    let result := rotShift kind (getR8 s r) (flagC s)
    rotReg kind r s = doneIn 8 (setZNHC (setR8 s r result.1) (some (isZero result.1)) (some false) (some false)
      (some result.2)) := rfl

theorem rotHl_eq (kind : RotKind) (s : State) :
    let result := rotShift kind (readByte s (getHL s)) (flagC s)
    rotHl kind s = doneIn 16 (setZNHC (memWrite (afterRead s (getHL s)) (getHL s) result.1) (some (isZero result.1))
      (some false) (some false) (some result.2)) := rfl

/-- The bytes and the meanings of a kind's two forms. -/
structure RotInstrs (kind : RotKind) (op : Nat) (onReg : Reg8 → Instr) (onHl : Instr) : Prop where
  bytesReg : ∀ r, (encode (onReg r)).map BitVec.toNat = [0xCB, op + regNo r] := by intro r; cases r <;> rfl
  bytesHl : (encode onHl).map BitVec.toNat = [0xCB, op + 6] := by rfl
  execReg : ∀ r s, exec (onReg r) s = rotReg kind r s := by exact fun _ _ => rfl
  execHl : ∀ s, exec onHl s = rotHl kind s := by exact fun _ => rfl

/-- The two forms of a kind: the result goes where the operand was. -/
theorem RotBits.rotForms (is : RotBits kind bit carry) (instrs : RotInstrs kind op onReg onHl) :
    RotForms onReg onHl op bit carry := by
  intro s
  refine ⟨fun r => ?reg, (rotShift kind (readByte s (getHL s)) (flagC s)).1, is.bits _ _, ?hl⟩
  case reg =>
    rw [← is.carry _ (flagC s)]
    refine form_imp (form_of_setR8_setZNHC (instrs.bytesReg r) ((instrs.execReg r s).trans (rotReg_eq kind r s)))
      fun t ⟨hr, effect⟩ => ?_
    rw [hr]
    exact ⟨is.bits _ _, effect⟩
  case hl =>
    rw [← is.carry _ (flagC s)]
    exact form_imp (form_of_memWrite_setZNHC instrs.bytesHl ((instrs.execHl s).trans (rotHl_eq kind s))) fun _ => id

/-- Settles O25: the four rotates. -/
theorem rotates : Obligations.Rotates :=
  ⟨rotBits_rlc.rotForms {}, rotBits_rrc.rotForms {}, rotBits_rl.rotForms {}, rotBits_rr.rotForms {}⟩

/-- Settles O26: the three shifts and SWAP. -/
theorem shiftsAndSwap : Obligations.ShiftsAndSwap :=
  ⟨rotBits_sla.rotForms {}, rotBits_sra.rotForms {}, rotBits_swap.rotForms {}, rotBits_srl.rotForms {}⟩

/-! ## BIT, RES and SET: the bytes (R92, R97) -/

/-- A second byte of the CB page, by its three fields. -/
theorem cbByte_toNat (x : BitVec 2) (b : Fin 8) (z : BitVec 3) :
    (x ++ code3 b ++ z).toNat = 64 * x.toNat + 8 * b.val + z.toNat := by
  revert x b z; decide

theorem code_toNat (r : Reg8) : r.code.toNat = regNo r := by
  cases r <;> rfl

/-- The bytes of a form with a bit index and a register. -/
theorem map_toNat_cbReg (x : BitVec 2) (b : Fin 8) (r : Reg8) :
    [0b11001011#8, x ++ code3 b ++ r.code].map BitVec.toNat = [0xCB, 64 * x.toNat + 8 * b.val + regNo r] := by
  rw [← code_toNat, ← cbByte_toNat]; rfl

/-! ## BIT (R241, R242) -/

/-- Settles O27: a write of the flags with C left out, after one read or none. -/
theorem bitTests : Obligations.BitTests := by
  intro s b
  refine ⟨fun r => form_imp (form_of_setZNHC (map_toNat_cbReg 1 b r) rfl) fun _ => id,
    form_of_doneIn (bitTest b (readByte s (getHL s)) (afterRead s (getHL s))) ?_ rfl
      ⟨flagsAre_setZNHC_getD (afterRead_f s _) _, coreKeptButF_of_fields, SameBus.busRead {}⟩⟩
  revert b; decide

/-! ## RES and SET (R243-R246) -/

theorem getLsbD_bitMask (b : Fin 8) (k : Nat) : (bitMask b).getLsbD k = decide (k = b.val) := by
  have mask : bitMask b = BitVec.twoPow 8 b.val := rfl
  simp [mask, eq_comm]

theorem getLsbD_resetBit (v : Byte) (b : Fin 8) {k : Nat} (hk : k < 8) :
    (resetBit v b).getLsbD k = if k = b.val then false else v.getLsbD k := by
  rw [resetBit, BitVec.getLsbD_and, BitVec.getLsbD_not, getLsbD_bitMask]
  split <;> simp [*]

theorem getLsbD_setBit (v : Byte) (b : Fin 8) (k : Nat) :
    (setBit v b).getLsbD k = if k = b.val then true else v.getLsbD k := by
  rw [setBit, BitVec.getLsbD_or, getLsbD_bitMask]
  split <;> simp [*]

/-- An instruction that writes a register and does nothing else. -/
theorem form_of_setR8 (henc : (encode i).map BitVec.toNat = bytes) (hexec : exec i s = doneIn n (setR8 s r v)) :
    Form i bytes n s fun t => getR8 t r = v ∧ CoreKept s t [r] ∧ BusKept s t :=
  form_of_doneIn _ henc hexec
    ⟨getR8_setR8_same s r v _, coreKept_of_fields (regsKept_setR8 (fun _ => rfl) r v _), SameBus.busKept {}⟩

/-- An instruction that reads the byte at an address, writes it back and does nothing else. -/
theorem form_of_memWrite_afterRead (henc : (encode i).map BitVec.toNat = bytes)
    (hexec : exec i s = doneIn n (memWrite (afterRead s y) y w)) :
    Form i bytes n s fun t => CoreKept s t [] ∧ BusWritten y w (afterRead s y) t :=
  form_of_doneIn _ henc hexec ⟨coreKept_of_fields, SameBus.busWritten {}⟩

/-- Settles O28: the operand with its one bit forced, written where it was. -/
theorem bitResetAndSet : Obligations.BitResetAndSet := by
  intro s b
  refine ⟨fun r => ?resR, fun r => ?setR,
    ⟨resetBit (readByte s (getHL s)) b, fun _ => getLsbD_resetBit _ b, ?resHl⟩,
    ⟨setBit (readByte s (getHL s)) b, fun k _ => getLsbD_setBit _ b k, ?setHl⟩⟩
  case resR =>
    refine form_imp (form_of_setR8 (map_toNat_cbReg 2 b r) rfl) fun t ⟨hr, kept⟩ => ⟨fun _ hk => ?_, kept⟩
    rw [hr, getLsbD_resetBit _ b hk]
  case setR =>
    refine form_imp (form_of_setR8 (map_toNat_cbReg 3 b r) rfl) fun t ⟨hr, kept⟩ => ⟨fun k _ => ?_, kept⟩
    rw [hr, getLsbD_setBit _ b k]
  case resHl => exact form_of_memWrite_afterRead (by revert b; decide) rfl
  case setHl => exact form_of_memWrite_afterRead (by revert b; decide) rfl

end Sys2Proof.Proofs
end

section
/-!
SUPPORT. A write of PC alone, the two ends of a conditional transfer, and what a call and a return do: a push or a pop
of PC. The statements of 44_control.md: jumps (O30), calls and RST (O31), returns (O32).
-/
namespace Sys2Proof.Proofs

open Sys2Proof.Machine Sys2Proof.Claims

variable {s t : State} {n m : Nat} {i : Instr} {bytes : List Nat} {a v : Word} {cc : Cond}

/-! ## Conditions (R96) -/

theorem condHolds_eq_condBit (s : State) (cc : Cond) : condHolds s cc = condBit s cc := by
  cases cc <;> rfl

/-- A conditional instruction: `P` of the state `u` where the condition holds, `Q` of the state itself where not. -/
theorem form_of_cond {P Q : State → Prop} (u : State) (henc : (encode i).map BitVec.toNat = bytes)
    (hexec : exec i s = if condHolds s cc then doneIn n u else doneIn m s)
    (taken : P { u with result := .cycles n }) (notTaken : Q { s with result := .cycles m }) :
    Form i bytes (if condBit s cc then n else m) s fun t => if condBit s cc then P t else Q t := by
  rw [condHolds_eq_condBit] at hexec
  by_cases hc : condBit s cc
  · simp only [if_pos hc] at hexec ⊢
    exact form_of_doneIn u henc hexec taken
  · simp only [if_neg hc] at hexec ⊢
    exact form_of_doneIn s henc hexec notTaken

/-- A transfer that is not taken: the result alone is written. -/
theorem kept_withResult (s : State) (r : StepResult) :
    CoreKept s { s with result := r } [] ∧ BusKept s { s with result := r } :=
  ⟨coreKept_of_fields, SameBus.busKept {}⟩

/-! ## Jumps (R260-R264) -/

/-- An instruction that writes PC and does nothing else. -/
theorem form_of_setPc (henc : (encode i).map BitVec.toNat = bytes) (hexec : exec i s = doneIn n { s with pc := a }) :
    Form i bytes n s fun t => t.pc = a ∧ RegsKept s t [] ∧ t.f = s.f ∧ t.sp = s.sp ∧ Kept s t ∧ BusKept s t :=
  form_of_doneIn _ henc hexec ⟨rfl, regsKept_of_fields, rfl, rfl, kept_of_fields, SameBus.busKept {}⟩

/-- A conditional jump writes PC in both cases: not taken, with the value it has. -/
theorem form_of_condJump (henc : (encode i).map BitVec.toNat = bytes)
    (hexec : exec i s = if condHolds s cc then doneIn n { s with pc := a } else doneIn m s) :
    Form i bytes (if condBit s cc then n else m) s fun t =>
      t.pc = (if condBit s cc then a else s.pc) ∧ RegsKept s t [] ∧ t.f = s.f ∧ t.sp = s.sp ∧ Kept s t ∧
      BusKept s t :=
  form_of_setPc henc (by rw [hexec, condHolds_eq_condBit]; split <;> rfl)

/-- Settles O30: a write of PC; the target of JR is a signed sum of 16 bits. -/
theorem jumps : Obligations.Jumps := by
  intro s
  dsimp only
  refine ⟨fun a => form_of_setPc (map_toNat_wordOperand _ a) rfl,
    form_imp (form_of_setPc rfl rfl) fun t ⟨hpc, rest⟩ => ⟨hpc ▸ getHL_toNat s, rest⟩,
    fun cc a => form_of_condJump (by cases cc <;> exact map_toNat_wordOperand _ a) rfl,
    fun e => form_imp (form_of_setPc rfl rfl) fun t ⟨hpc, rest⟩ => ⟨by rw [hpc, add_sext16_toNat], rest⟩,
    fun cc e => form_imp (form_of_condJump (by cases cc <;> rfl) rfl) fun t ⟨hpc, rest⟩ => ⟨?_, rest⟩⟩
  split
  · next hc => rw [hpc, if_pos hc, add_sext16_toNat]
  · next hc => rw [hpc, if_neg hc]

/-! ## Calls (R265, R266, R270) -/

/-- What a push does (R9), for any state that has the bus and the SP it leaves. -/
theorem pushed_of_push16 (h : SameBus (push16 v s) t) (hsp : t.sp = s.sp - 2) : Pushed v s t := by
  rw [push16_eq] at h
  exact pushedBytes_of_sameBus { h with } hsp

/-- A call: PC is pushed, then written. -/
theorem called_callTo (s : State) (a : Word) (r : StepResult) :
    let t := { push16 s.pc s with pc := a, result := r }
    t.pc = a ∧ Pushed s.pc s t ∧ RegsKept s t [] ∧ t.f = s.f ∧ Kept s t :=
  ⟨rfl, pushed_of_push16 {} (push16_sp s.pc s), regsKept_of_fields, push16_f s.pc s, kept_of_fields⟩

theorem restartAddress_eq (k : Fin 8) : restartAddress k = BitVec.ofNat 16 (8 * k.val) := by
  rw [restartAddress, Nat.mul_comm]

/-- Settles O31: a call, or nothing. -/
theorem calls : Obligations.Calls := by
  intro s
  refine ⟨fun a => form_of_doneIn (callTo a s) (map_toNat_wordOperand _ a) rfl (called_callTo s a _),
    fun cc a => form_of_cond (callTo a s) (by cases cc <;> exact map_toNat_wordOperand _ a) rfl (called_callTo s a _)
      (kept_withResult s _),
    fun k => ?rst⟩
  case rst =>
    rw [← restartAddress_eq]
    exact form_of_doneIn (callTo (restartAddress k) s) (by revert k; decide) rfl (called_callTo s _ _)

/-! ## Returns (R267-R269) -/

@[simp] theorem returnPop_pc (s : State) : (returnPop s).pc = popped s := pop16_fst s

@[simp] theorem returnPop_sp (s : State) : (returnPop s).sp = s.sp + 2 := pop16_sp s

@[simp] theorem returnPop_busState (s : State) :
    (returnPop s).busState = (afterRead (afterRead s s.sp) (s.sp + 1)).busState := pop16_busState s

/-- A return pops PC, whatever becomes of IME. -/
theorem returned_returnPop (s : State) (ime : Bool) (r : StepResult) :
    let t := { returnPop s with ime := ime, result := r }
    t.pc = popped s ∧ PoppedBus s t ∧ RegsKept s t [] ∧ t.f = s.f ∧ Kept s { t with ime := s.ime } :=
  ⟨returnPop_pc s, ⟨returnPop_sp s, SameBus.busRead {}⟩, regsKept_of_fields, returnPop_f s, kept_of_fields⟩

/-- Settles O32: a return, or nothing; RETI alone writes IME. -/
theorem returns : Obligations.Returns := by
  intro s
  exact ⟨form_of_doneIn (returnPop s) rfl rfl ⟨returned_returnPop s _ _, returnPop_ime s⟩,
    fun cc => form_of_cond (returnPop s) (by cases cc <;> rfl) rfl ⟨returned_returnPop s _ _, returnPop_ime s⟩
      (kept_withResult s _),
    form_of_doneIn (returnFromInterrupt s) rfl rfl ⟨returned_returnPop s true _, rfl⟩⟩

end Sys2Proof.Proofs
end

section
/-!
SUPPORT. When an interrupt is pending, and the step that executes an instruction. The statements of 45_system.md: NOP,
DI and EI (O33), HALT (O34), STOP (O35), ILLEGAL (O36), the EI delay (O44).
-/
namespace Sys2Proof.Proofs

open Sys2Proof.Machine Sys2Proof.Claims

variable {s u : State}

/-! ## Pending interrupts (R312) -/

theorem pending_getLsbD (s : State) (k : Fin 5) :
    (pending s).getLsbD k.val = (s.iflag.getLsbD k.val && s.ie.getLsbD k.val) := by
  simp [pending]

theorem ne_zero_iff_exists_bit (p : BitVec 5) : p ≠ 0 ↔ ∃ k : Fin 5, p.getLsbD k.val = true := by
  revert p; decide

/-- An interrupt is pending where a source is flagged and enabled. -/
theorem pending_ne_zero_iff (s : State) :
    pending s ≠ 0 ↔ ∃ k : Fin 5, s.iflag.getLsbD k.val = true ∧ s.ie.getLsbD k.val = true := by
  simp only [ne_zero_iff_exists_bit, pending_getLsbD, Bool.and_eq_true]

/-! ## The step that executes an instruction (R310) -/

theorem dispatchSource_eq_none (h : s.ime = false ∨ pending s = 0) : dispatchSource s = none := by
  obtain him | hp := h
  · simp [dispatchSource, him]
  · simp [dispatchSource, hp, lowestSet]

theorem step_of_executes (h : Executes s) :
    step s = endInstr s.imePending (exec (fetchInstr s).1 (fetchInstr s).2) := by
  obtain ⟨hfault, hmode, hno⟩ := h
  simp only [step, stepWith, hfault, hmode, dispatchSource_eq_none hno, instrStep_eq]

theorem promoteIme_false (u : State) : promoteIme false u = u := by simp [promoteIme]

theorem promoteIme_of_imePending_eq_false (pend : Bool) (h : u.imePending = false) : promoteIme pend u = u := by
  simp [promoteIme, h]

/-- Still pending at the end of the instruction, without a fault. -/
theorem promoteIme_of_pending (hf : u.fault = none) (hp : u.imePending = true) :
    promoteIme true u = { u with ime := true, imePending := false } := by
  simp [promoteIme, hf, hp]

/-! ## NOP, DI and EI -/

/-- Settles O33: NOP writes nothing, DI both fields, EI `ime_pending`. -/
theorem nopDiEi : Obligations.NopDiEi := by
  intro s
  exact ⟨form_of_doneIn s rfl rfl ⟨kept_withResult s _, rfl, rfl⟩,
    form_of_doneIn { s with ime := false, imePending := false } rfl rfl
      ⟨⟨coreKept_of_fields, SameBus.busKept {}⟩, rfl, rfl⟩,
    form_of_doneIn { s with imePending := true } rfl rfl ⟨⟨coreKept_of_fields, SameBus.busKept {}⟩, rfl, rfl⟩⟩

/-- Settles O44: the promotion by `ime_pending` before and after the instruction; the fetch and EI leave IME. -/
theorem eiDelay : Obligations.EiDelay := by
  intro s u hexe hu
  have hstep : step s = .next (promoteIme s.imePending u) := by rw [step_of_executes hexe, hu]; rfl
  have unpromoted (hs : s.imePending = false) : step s = .next u := by
    rw [hstep, hs, promoteIme_false]
  refine ⟨unpromoted, fun hs hf hp => ?_, fun _ hp => ?_, fun hei hs => ⟨u, unpromoted hs, ?_⟩⟩
  · rw [hstep, hs, promoteIme_of_pending hf hp]
  · rw [hstep, promoteIme_of_imePending_eq_false _ hp]
  · obtain ⟨pc, bus, hfetch⟩ := fetchInstr_frame s
    rw [hei, hfetch] at hu
    cases hu
    exact ⟨rfl, rfl⟩

/-! ## HALT and STOP -/

theorem exec_halt_armsBug (h : s.ime = false ∧ pending s ≠ 0) :
    exec .halt s = doneIn 4 { s with haltBug := true } :=
  if_pos (by simpa using h)

theorem exec_halt_enters (h : ¬ (s.ime = false ∧ pending s ≠ 0)) :
    exec .halt s = doneIn 4 { s with mode := .halt } :=
  if_neg (by simpa using h)

/-- Settles O34: by the HALT bug's condition, a write of its flag or of the mode. -/
theorem haltEntersOrArmsBug : Obligations.HaltEntersOrArmsBug := by
  intro s
  simp only [← pending_ne_zero_iff]
  by_cases hbug : s.ime = false ∧ pending s ≠ 0
  · exact form_of_doneIn _ rfl (exec_halt_armsBug hbug)
      ⟨fun _ => ⟨rfl, rfl⟩, fun h => absurd hbug h, coreKept_of_fields, SameBus.busKept {}⟩
  · exact form_of_doneIn _ rfl (exec_halt_enters hbug)
      ⟨fun h => absurd h hbug, fun _ => ⟨rfl, rfl⟩, coreKept_of_fields, SameBus.busKept {}⟩

theorem exec_stop_enters (n : Byte) (h : s.params.speedSwitch = false ∨ s.key1.getLsbD 0 = false) :
    exec (.stop n) s = doneIn 4 { s with mode := .stop } :=
  if_neg (by simpa [or_iff_not_imp_left] using h)

theorem exec_stop_switches (n : Byte) (hp : s.params.speedSwitch = true) (hk : s.key1.getLsbD 0 = true) :
    exec (.stop n) s = doneIn 4 { s with
      doubleSpeed := (Config.speedSwitch s.key1).doubleSpeed, key1 := (Config.speedSwitch s.key1).key1
      mode := if (Config.speedSwitch s.key1).entersStop then .stop else s.mode } :=
  if_pos (by rw [hp, hk]; rfl)

/-- Settles O35: a write of the mode, or of what the switch decides (D14). -/
theorem stopEntersStopMode : Obligations.StopEntersStopMode := by
  intro s n
  exact ⟨fun h => form_of_doneIn _ rfl (exec_stop_enters n h) ⟨rfl, coreKept_of_fields, SameBus.busKept {}⟩,
    fun hp hk => form_of_doneIn _ rfl (exec_stop_switches n hp hk)
      ⟨rfl, rfl, rfl, coreKept_of_fields, SameBus.busKept {}⟩⟩

/-! ## ILLEGAL -/

theorem illegal_wellFormed {op : Byte}
    (h : op.toNat ∈ [0xD3, 0xDB, 0xDD, 0xE3, 0xE4, 0xEB, 0xEC, 0xED, 0xF4, 0xFC, 0xFD]) :
    (Instr.illegal op).WellFormed = true := by
  revert op; decide

/-- Settles O36: a write of the fault and of the result. -/
theorem illegalRecordsFault : Obligations.IllegalRecordsFault := by
  intro s op hop
  obtain ⟨-, hdecode⟩ := decodeBytes_illegal (illegal_wellFormed hop)
  exact ⟨hdecode, rfl, _, rfl, rfl, rfl, coreKept_of_fields, SameBus.busKept {}⟩

end Sys2Proof.Proofs
end

section
/-!
SUPPORT. The fetch away from the devices, the idle steps and the dispatch, what a host action other than reset can do, and
the ends of a run. The statements of 60_exceptions.md: the step that executes (O37, O38), dispatch (O39), the interrupt
controller (O40), the idle modes (O41, O42), the fault (O43), host actions (O47), completion (O49), the modes (O50), the
ends of a run (O51, O60).
-/
namespace Sys2Proof.Proofs

open Sys2Proof.Machine Sys2Proof.Claims

variable {s t u : State} {i : Instr} {act : EnvAction} {k : Fin 5}

/-! ## The bytes an instruction uses (R90, R102) -/

theorem lengthOf_cases (op : Byte) : lengthOf op = 1 ∨ lengthOf op = 2 ∨ lengthOf op = 3 := by
  unfold lengthOf
  split
  · exact .inr (.inr rfl)
  · split
    · exact .inr (.inl rfl)
    · exact .inl rfl

/-- The bytes after an instruction's last do not matter: both readings have one encoding, which decodes to one
instruction. -/
theorem decodeBytes_congr {op b2 b3 c2 c3 : Byte}
    (h : [op, b2, b3].take (lengthOf op) = [op, c2, c3].take (lengthOf op)) :
    decodeBytes op b2 b3 = decodeBytes op c2 c3 := by
  obtain ⟨hwf, henc⟩ := decodeBytes_beginWith op b2 b3
  obtain ⟨hwf', henc'⟩ := decodeBytes_beginWith op c2 c3
  have hdec := decodeOfEncode _ [] hwf
  rw [henc, h, ← henc', decodeOfEncode _ [] hwf'] at hdec
  exact (congrArg Prod.fst (Except.ok.inj hdec)).symm

theorem decodeBytes_oneByte {op : Byte} (hl : lengthOf op = 1) (b2 b3 : Byte) :
    decodeBytes op 0 0 = decodeBytes op b2 b3 :=
  decodeBytes_congr (by rw [hl]; rfl)

theorem decodeBytes_twoBytes {op : Byte} (hl : lengthOf op = 2) (b2 b3 : Byte) :
    decodeBytes op b2 0 = decodeBytes op b2 b3 :=
  decodeBytes_congr (by rw [hl]; rfl)

/-- Three bytes are always enough. -/
theorem decode_threeBytes_eq_ok {op b2 b3 : Byte} {rest : List Byte} (h : decode [op, b2, b3] = .ok (i, rest)) :
    decodeBytes op b2 b3 = i ∧ rest.length = 3 - lengthOf op := by
  have enough : ¬ [op, b2, b3].length < lengthOf op := by
    have := lengthOf_cases op
    simp only [List.length_cons, List.length_nil]
    omega
  simp only [decode, if_neg enough] at h
  cases h
  exact ⟨rfl, List.length_drop⟩

/-! ## The fetch of bytes that are no device's (R8) -/

theorem fetchImm8_notFree (hf : (busTarget s s.pc).isFree = false) :
    fetchImm8 s = (readByte s s.pc, { s with pc := s.pc + 1 }) := by
  rw [fetchImm8, afterRead_notFree hf]

/-- The state after the opcode's fetch, with PC at `p`. -/
def opcodeFetched (s : State) (p : Word) : State := { s with pc := p, haltBug := false, opAddr := s.pc }

theorem opcodeFetched_sameBus (s : State) (p : Word) : SameBus s (opcodeFetched s p) := by
  unfold opcodeFetched
  exact {}

theorem fetchOpcode_notFree (hf : (busTarget s s.pc).isFree = false) :
    fetchOpcode s = (readByte s s.pc, opcodeFetched s (if s.haltBug then s.pc else s.pc + 1)) := by
  rw [fetchOpcode, afterRead_notFree hf, opcodeFetched]
  cases s.haltBug <;> rfl

/-- A further byte's fetch reads what `s` holds there and moves PC. -/
theorem fetchImm8_opcodeFetched {p : Word} (hf : (busTarget s p).isFree = false) :
    fetchImm8 (opcodeFetched s p) = (readByte s p, opcodeFetched s (p + 1)) := by
  have bus := opcodeFetched_sameBus s p
  have hf' : (busTarget (opcodeFetched s p) (opcodeFetched s p).pc).isFree = false := by rwa [bus.busTarget]
  rw [fetchImm8_notFree hf', bus.readByte]
  rfl

/-- The fetch of an instruction: its opcode at PC, its further bytes from `p` on, where the opcode's fetch leaves PC. -/
theorem fetchInstr_notFree {p : Word} (hp : p = if s.haltBug then s.pc else s.pc + 1)
    (hop : (busTarget s s.pc).isFree = false)
    (himm : ∀ k, k + 1 < lengthOf (readByte s s.pc) → (busTarget s (p + BitVec.ofNat 16 k)).isFree = false) :
    fetchInstr s = (decodeBytes (readByte s s.pc) (readByte s p) (readByte s (p + 1)),
      opcodeFetched s (p + BitVec.ofNat 16 (lengthOf (readByte s s.pc) - 1))) := by
  rw [fetchInstr, fetchOpcode_notFree hop, ← hp]
  generalize readByte s s.pc = op at *
  have second (hl : 1 < lengthOf op) := fetchImm8_opcodeFetched (by simpa using himm 0 hl)
  have third (hl : 2 < lengthOf op) := fetchImm8_opcodeFetched (p := p + 1) (himm 1 hl)
  obtain hl | hl | hl := lengthOf_cases op
  · simp only [hl, decodeBytes_oneByte hl (readByte s p) (readByte s (p + 1))]
    simp
  · simp only [hl, second (by omega), decodeBytes_twoBytes hl (readByte s p) (readByte s (p + 1))]
    rfl
  · have hpc : p + 1 + 1 = p + BitVec.ofNat 16 2 := by bv_omega
    simp only [hl, second (by omega), third (by omega), hpc]

/-- A step that executes, from the three bytes it decodes and the place of PC after the opcode. -/
theorem step_of_decode {p : Word} {rest : List Byte} (hexe : Executes s)
    (hp : p = if s.haltBug then s.pc else s.pc + 1)
    (hdec : decode [readByte s s.pc, readByte s p, readByte s (p + 1)] = .ok (i, rest))
    (hop : (busTarget s s.pc).isFree = false)
    (himm : ∀ k, k + rest.length < 2 → (busTarget s (p + BitVec.ofNat 16 k)).isFree = false) :
    step s = endInstr s.imePending (exec i (opcodeFetched s (p + BitVec.ofNat 16 (2 - rest.length)))) := by
  obtain ⟨rfl, hlen⟩ := decode_threeBytes_eq_ok hdec
  have hl := lengthOf_cases (readByte s s.pc)
  rw [step_of_executes hexe, fetchInstr_notFree hp hop fun k hk => himm k (by omega),
    show 2 - rest.length = lengthOf (readByte s s.pc) - 1 by omega]

theorem add_ofNat_succ (a : Word) (k : Nat) : a + BitVec.ofNat 16 (k + 1) = a + 1 + BitVec.ofNat 16 k := by
  rw [BitVec.ofNat_add]; bv_omega

/-- Settles O37: the further bytes stand after the opcode. -/
theorem stepRunsDecodedInstruction : Obligations.StepRunsDecodedInstruction := by
  intro s i rest hexe hbug hdec hfree
  have hp : s.pc + 1 = if s.haltBug then s.pc else s.pc + 1 := by simp [hbug]
  have next : s.pc + 2 = s.pc + 1 + 1 := by bv_omega
  rw [next] at hdec
  obtain ⟨-, hlen⟩ := decode_threeBytes_eq_ok hdec
  have hl := lengthOf_cases (readByte s s.pc)
  have hop : (busTarget s s.pc).isFree = false := by simpa using hfree 0 (by omega)
  have himm (k : Nat) (hk : k + rest.length < 2) : (busTarget s (s.pc + 1 + BitVec.ofNat 16 k)).isFree = false := by
    simpa only [add_ofNat_succ] using hfree (k + 1) (by omega)
  have hlast : 3 - rest.length = 2 - rest.length + 1 := by omega
  rw [step_of_decode hexe hp hdec hop himm, hlast, add_ofNat_succ, opcodeFetched, ← hbug]

/-- Settles O38: the byte after the opcode is the opcode's own. -/
theorem haltBugReadsTheByteTwice : Obligations.HaltBugReadsTheByteTwice := by
  intro s i rest hexe hbug hdec hfree
  have hop : (busTarget s s.pc).isFree = false := by simpa using hfree 0 (by decide)
  exact step_of_decode hexe (by simp [hbug]) hdec hop fun k hk => hfree k (by omega)

/-! ## Interrupts (R312, R316) -/

theorem sourceBit_getLsbD (k j : Fin 5) : (sourceBit k).getLsbD j.val = decide (j = k) := by
  revert k j; decide

theorem requestInterrupt_getLsbD (k j : Fin 5) (s : State) :
    (requestInterrupt k s).iflag.getLsbD j.val = (decide (j = k) || s.iflag.getLsbD j.val) := by
  rw [requestInterrupt, BitVec.getLsbD_or, sourceBit_getLsbD, Bool.or_comm]

theorem clearIf_getLsbD (k j : Fin 5) (s : State) :
    (clearIf k s).iflag.getLsbD j.val = (decide (j ≠ k) && s.iflag.getLsbD j.val) := by
  rw [clearIf, BitVec.getLsbD_and, BitVec.getLsbD_not, sourceBit_getLsbD]
  simp [Bool.and_comm]

theorem lowestSet_eq_some_iff {p : BitVec 5} :
    lowestSet p = some k ↔ p.getLsbD k.val = true ∧ ∀ j < k, p.getLsbD j.val = false := by
  revert p k; decide

/-- The source to serve, on the bits of IF and IE. -/
theorem lowestSet_pending_iff :
    lowestSet (pending s) = some k ↔
      (s.iflag.getLsbD k.val = true ∧ s.ie.getLsbD k.val = true) ∧
        ∀ j < k, ¬ (s.iflag.getLsbD j.val = true ∧ s.ie.getLsbD j.val = true) := by
  simp only [lowestSet_eq_some_iff, ← Bool.not_eq_true, pending_getLsbD, Bool.and_eq_true]

theorem takePending_of_some (h : lowestSet (pending s) = some k) : takePending s = (some k, clearIf k s) := by
  simp only [takePending, h]

theorem takePending_of_none (h : lowestSet (pending s) = none) : takePending s = (none, s) := by
  simp only [takePending, h]

theorem lowestSet_eq_none_iff {p : BitVec 5} : lowestSet p = none ↔ p = 0 := by
  rw [← Option.not_isSome_iff_eq_none, lowestSet_isSome, not_not]

/-- Settles O40: by the source `take_pending` finds, if it finds one. -/
theorem interruptController : Obligations.InterruptController := by
  intro s
  refine ⟨fun k j => requestInterrupt_getLsbD k j s, pending_getLsbD s, ?_, fun k hk => ?_⟩
  · rw [← lowestSet_eq_none_iff]
    refine ⟨fun h => ?_, takePending_of_none⟩
    cases hl : lowestSet (pending s) with
    | none => rfl
    | some k => simp [takePending_of_some hl] at h
  · cases hl : lowestSet (pending s) with
    | none => simp [takePending_of_none hl] at hk
    | some j =>
      rw [takePending_of_some hl] at hk ⊢
      cases hk
      obtain ⟨hset, hlow⟩ := lowestSet_eq_some_iff.1 hl
      exact ⟨hset, hlow, fun j => clearIf_getLsbD k j s, clearIf_ie k s⟩

/-! ## Dispatch (R320, R321) -/

theorem memWrite_withHaltBug (s : State) (b : Bool) (x : Word) (v : Byte) :
    memWrite { s with haltBug := b } x v = { memWrite s x v with haltBug := b } := by
  have h : busTarget { s with haltBug := b } x = busTarget s x := busTarget_congr rfl rfl rfl x
  cases h' : busTarget s x <;>
    simp only [memWrite, storeByte, seesWrite, inCartWindow, busAfterWrite, h, h', writeIf, writeIe]
  cases s.params.ieUpper <;> rfl

theorem push16_withHaltBug (s : State) (b : Bool) (v : Word) :
    push16 v { s with haltBug := b } = { push16 v s with haltBug := b } := by
  simp only [push16_eq, memWrite_withHaltBug]

theorem vector_eq (k : Fin 5) : vector k = BitVec.ofNat 16 (0x40 + 8 * k.val) := by
  revert k; decide

theorem dispatch_eq (k : Fin 5) (s : State) :
    dispatch k s = .next { push16 (dispatchReturn s) s with
      ime := false, imePending := false, haltBug := false, pc := BitVec.ofNat 16 (0x40 + 8 * k.val)
      iflag := (push16 (dispatchReturn s) s).iflag &&& ~~~(1#5 <<< k.val), result := .cycles 20 } := by
  simp only [dispatch, push16_withHaltBug, vector_eq, clearIf, sourceBit, doneIn_eq]

theorem step_of_dispatchSource (hf : s.fault = none) (hm : s.mode = .run) (hd : dispatchSource s = some k) :
    step s = dispatch k s := by
  simp only [step, stepWith, hf, hm, hd]

/-- Settles O39: the source from the bits of IF and IE, the push from the state before the step. -/
theorem stepDispatchesInterrupt : Obligations.StepDispatchesInterrupt := by
  intro s k hf hm hime hk hlow
  have hsource : dispatchSource s = some k := by
    rw [dispatchSource, if_pos hime]
    exact lowestSet_pending_iff.2 ⟨hk, hlow⟩
  refine ⟨push16 (dispatchReturn s) s, _, pushed_of_push16 (v := dispatchReturn s) {} (push16_sp _ s),
    regsKept_of_fields, push16_f _ s, kept_of_fields, ?_, rfl⟩
  rw [step_of_dispatchSource hf hm hsource, dispatch_eq]

/-! ## Idle steps (R332, R334) -/

theorem step_of_halt (hf : s.fault = none) (hm : s.mode = .halt) : step s = haltStep s := by
  simp only [step, stepWith, hf, hm]

theorem step_of_stop (hf : s.fault = none) (hm : s.mode = .stop) : step s = stopStep s := by
  simp only [step, stepWith, hf, hm]

/-- Settles O41: nothing is pending where no source is flagged and enabled. -/
theorem haltModeStep : Obligations.HaltModeStep := by
  intro s hf hm
  rw [step_of_halt hf hm, haltStep, doneIn_eq]
  simp only [← pending_ne_zero_iff, ite_not]

/-- Settles O42: the step reads `wake_input` alone, which a request leaves. -/
theorem stopModeStep : Obligations.StopModeStep := by
  intro s hf hm
  refine ⟨step_of_stop hf hm, fun k t hw h => ?_⟩
  rw [step_of_stop (by simpa using hf) (by simpa using hm)] at h
  cases h
  simp [hw]

/-! ## What the host can do between steps (R355) -/

/-- Everything a host action but reset can change: IF, the bytes and the latch behind the bus, the devices, and
`wake_input`, which `wake` alone raises. -/
structure HostWrites (act : EnvAction) (s t : State) : Prop where
  eq : t = { s with
    iflag := t.iflag, mem := t.mem, cartRamEnabled := t.cartRamEnabled, busState := t.busState
    wakeInput := t.wakeInput }
  memory : Memory.wf s.mem = true → Memory.wf t.mem = true
  wake : act ≠ .wake true → s.wakeInput = false → t.wakeInput = false

theorem pokeByte_eq (s : State) (a : Word) (v : Byte) :
    pokeByte s a v = { s with mem := (pokeByte s a v).mem } := by
  unfold pokeByte; split <;> rfl

/-- Everything a host action but reset can do. -/
theorem envAct_hostWrites (h : ∀ draw, act ≠ .reset draw) (s : State) : HostWrites act s (envAct act s) := by
  cases act with
  | reset draw => exact absurd rfl (h draw)
  | poke a v =>
    have eq := pokeByte_eq s a v
    exact ⟨by rw [envAct, eq], fun hm => pokeByte_mem_wf hm a v, fun _ hw => by rwa [envAct, pokeByte_wakeInput]⟩
  | wake level => exact ⟨rfl, id, fun hl _ => by simpa [envAct] using hl⟩
  | request | advance | devices | cartRam => exact ⟨rfl, id, fun _ => id⟩

/-- Settles O43: no host action but reset writes the fault. -/
theorem faultIsFinal : Obligations.FaultIsFinal := by
  intro s r hf
  refine ⟨by simp only [step, stepWith, hf], fun act h => ?_, fun _ => rfl⟩
  rw [(envAct_hostWrites h s).eq, hf]

theorem HostWrites.storageKept (h : HostWrites act s t) : StorageKept s t where
  params := by rw [h.eq]
  lowNibble := by rw [h.eq]; exact id
  memory := h.memory
  ieUpper _ := by rw [h.eq]; exact id
  bootMapped := by rw [h.eq]; exact id

theorem HostWrites.inv (h : HostWrites act s t) (hi : Inv s) : Inv t :=
  inv_of_storageKept hi h.storageKept
    (by rw [h.eq]; exact fun hm => ⟨hi.idlePending hm, hi.idleHaltBug hm⟩) (by rw [h.eq]; exact hi.faulted)

theorem powerOn_inv (p : Params) (draw : Draw) : Inv (State.powerOn p draw) where
  lowNibble := highNibble_lowNibble _
  memory := memOfCells_wf draw.cells
  ieUpper _ := BitVec.zero_and
  idlePending _ := rfl
  idleHaltBug _ := rfl
  overlay := id
  faulted := by simp [State.powerOn]

/-- Settles O47: reset answers a state of `Inv`; the others write no field of the core. -/
theorem hostActionsKeepInvariant : Obligations.HostActionsKeepInvariant := by
  intro s act hi
  refine ⟨?_, fun h => ?_⟩
  · by_cases h : ∀ draw, act ≠ .reset draw
    · exact (envAct_hostWrites h s).inv hi
    · push Not at h
      obtain ⟨draw, rfl⟩ := h
      exact powerOn_inv s.params draw
  · rw [(envAct_hostWrites h s).eq]
    exact ⟨regsKept_of_fields, rfl, rfl, rfl, rfl, rfl, rfl, rfl, rfl⟩

/-! ## A step completes, and the modes it ends in (R330, R341) -/

theorem exec_next (i : Instr) (s : State) : ∃ u, exec i s = .next u := by
  have outcome := exec_outcome i s
  generalize exec i s = o at outcome
  cases outcome with
  | completes hc =>
    obtain ⟨n, t, rfl, -⟩ := hc
    exact ⟨_, rfl⟩
  | armsHaltBug | setsMode | raises => exact ⟨_, rfl⟩

/-- Settles O49: by the kind of the step. -/
theorem everyStepCompletes : Obligations.EveryStepCompletes := by
  intro s hf
  obtain ⟨r, hr, -⟩ | ⟨-, -, e⟩ | ⟨-, -, e⟩ | ⟨k, -, -, -, e⟩ | ⟨-, -, -, e⟩ := stepWith_cases exec s
  · simp [hf] at hr
  · exact ⟨_, e⟩
  · exact ⟨_, e⟩
  · exact ⟨_, e⟩
  · obtain ⟨u, hu⟩ := exec_next (fetchInstr s).1 (fetchInstr s).2
    exact ⟨promoteIme s.imePending u, by rw [step, e, instrStep_eq, hu, endInstr]⟩

/-- `m'` is a mode in which the instruction `i`, started in mode `m`, can end (R330). -/
def EndMode (i : Instr) (m m' : Mode) : Prop := m' = m ∨ i = .halt ∧ m' = .halt ∨ (∃ n, i = .stop n) ∧ m' = .stop

theorem execHalt_endMode (h : exec .halt s = .next u) : EndMode .halt s.mode u.mode := by
  by_cases hbug : s.ime = false ∧ pending s ≠ 0
  · cases (exec_halt_armsBug hbug).symm.trans h
    exact .inl rfl
  · cases (exec_halt_enters hbug).symm.trans h
    exact .inr (.inl ⟨rfl, rfl⟩)

theorem execStop_endMode {n : Byte} (h : exec (.stop n) s = .next u) : EndMode (.stop n) s.mode u.mode := by
  by_cases hkey : s.params.speedSwitch = false ∨ s.key1.getLsbD 0 = false
  · cases (exec_stop_enters n hkey).symm.trans h
    exact .inr (.inr ⟨⟨n, rfl⟩, rfl⟩)
  · obtain ⟨hp, hk⟩ : s.params.speedSwitch = true ∧ s.key1.getLsbD 0 = true := by simpa using hkey
    cases (exec_stop_switches n hp hk).symm.trans h
    dsimp only
    split
    · exact .inr (.inr ⟨⟨n, rfl⟩, rfl⟩)
    · exact .inl rfl

theorem exec_endMode (h : exec i s = .next u) : EndMode i s.mode u.mode := by
  cases hi : leavesFlow i with
  | false =>
    obtain ⟨n, t, e, ht⟩ := exec_completes hi s
    cases e.symm.trans h
    exact .inl ht.mode
  | true =>
    cases i with
    | halt => exact execHalt_endMode h
    | stop n => exact execStop_endMode h
    | illegal op =>
      cases h
      exact .inl rfl
    | _ => cases hi

/-- A step in RUN ends in the mode its instruction ends in; a dispatch stays in RUN. -/
theorem step_run_endMode (hm : s.mode = .run) (h : step s = .next t) : EndMode (fetchInstr s).1 .run t.mode := by
  obtain ⟨r, -, e⟩ | ⟨-, hm', -⟩ | ⟨-, hm', -⟩ | ⟨k, -, -, -, e⟩ | ⟨-, -, -, e⟩ := stepWith_cases exec s
  · cases e.symm.trans h
  · cases hm.symm.trans hm'
  · cases hm.symm.trans hm'
  · cases ((dispatch_eq k s).symm.trans e.symm).trans h
    exact .inl (by simpa using hm)
  · rw [step, e, instrStep_eq] at h
    obtain ⟨u, hu, rfl⟩ := endInstr_next h
    obtain ⟨-, hmode, -⟩ := fetchInstr_kept s
    rw [promoteIme_mode, ← hm, ← hmode]
    exact exec_endMode hu

/-- A step in an idle mode stays in it or goes to RUN. -/
theorem step_idle_mode (hm : s.mode ≠ .run) (h : step s = .next t) : t.mode = .run ∨ t.mode = s.mode := by
  obtain ⟨r, -, e⟩ | ⟨-, hm', e⟩ | ⟨-, hm', e⟩ | ⟨k, -, hm', -⟩ | ⟨-, hm', -⟩ := stepWith_cases exec s
  · cases e.symm.trans h
  · cases e.symm.trans h
    rw [hm']
    exact ite_eq_or_eq _ _ _
  · cases e.symm.trans h
    rw [hm']
    exact (ite_eq_or_eq _ _ _).symm
  · exact absurd hm' hm
  · exact absurd hm' hm

/-- Settles O50: by the mode the step begins in. -/
theorem modeTransitions : Obligations.ModeTransitions := by
  intro s t h
  refine ⟨fun hm ht => ?_, fun hm ht => ?_, fun hm ht => ?_, fun hm ht => ?_⟩
  · simpa [EndMode, ht] using step_run_endMode hm h
  · simpa [EndMode, ht] using step_run_endMode hm h
  · simpa [hm, ht] using step_idle_mode (by simp [hm]) h
  · simpa [hm, ht] using step_idle_mode (by simp [hm]) h

/-! ## The ends of a run (R337, R390) -/

theorem runEnd_haltedForGood_iff :
    runEnd s = some .haltedForGood ↔ s.fault = none ∧ s.mode = .halt ∧ s.ie &&& 0x1F = 0 := by
  unfold runEnd
  cases hf : s.fault <;> cases hm : s.mode <;> simp

theorem runEnd_stopped_iff : runEnd s = some .stopped ↔ s.fault = none ∧ s.mode = .stop ∧ s.wakeInput = false := by
  unfold runEnd
  cases hf : s.fault <;> cases hm : s.mode <;> simp

theorem lowFive_eq_zero {v : Byte} (h : v &&& 0x1F = 0) : v.extractLsb' 0 5 = 0 := by
  revert v; decide

/-- With nothing enabled nothing is pending (R312). -/
theorem pending_eq_zero (h : s.ie &&& 0x1F = 0) : pending s = 0 := by
  rw [pending, lowFive_eq_zero h]
  exact BitVec.and_zero

/-- Settles O51: nothing can be pending, and the host writes neither the fault nor the mode nor IE. -/
theorem haltedForGood : Obligations.HaltedForGood := by
  intro s hs
  obtain ⟨hf, hm, hie⟩ := runEnd_haltedForGood_iff.1 hs
  refine ⟨?_, fun act h => ?_⟩
  · rw [step_of_halt hf hm, haltStep, if_pos (pending_eq_zero hie), ← hm, doneIn_eq]
  · rw [runEnd_haltedForGood_iff, (envAct_hostWrites h s).eq]
    exact ⟨hf, hm, hie⟩

/-- Settles O60: the step reads `wake_input` alone, which no other action raises. -/
theorem stoppedUntilWoken : Obligations.StoppedUntilWoken := by
  refine fun s => ⟨fun hs => ?_, fun hf hm hw => ?_⟩
  · obtain ⟨hf, hm, hw⟩ := runEnd_stopped_iff.1 hs
    refine ⟨?_, fun act h hwake => ?_⟩
    · rw [step_of_stop hf hm, stopStep, hw, ← hm, doneIn_eq]
      rfl
    · have host := envAct_hostWrites h s
      rw [runEnd_stopped_iff]
      refine ⟨?_, ?_, host.wake hwake hw⟩
      · rw [host.eq, hf]
      · rw [host.eq, hm]
  · refine ⟨by simp [runEnd, hf, hm, hw], ?_⟩
    rw [step_of_stop hf hm, stopStep, if_pos hw, doneIn_eq]

end Sys2Proof.Proofs
end

section
/-!
SUPPORT. States that differ in the last result alone stay so through every operation of the core, and the end of an
instruction overwrites it. The statements of 70_reset_and_hazards.md: the invariant at reset (O46) and the cycle count that
no step reads (O48).
-/
namespace Sys2Proof.Proofs

open Sys2Proof.Machine Sys2Proof.Claims

variable {s t : State}

/-! ## Reset (R360) -/

/-- Settles O46: `State.reset` is one of the resets. -/
theorem invariantAtReset : Obligations.InvariantAtReset :=
  ⟨powerOn_inv Params.default Draw.zero, powerOn_inv⟩

/-! ## Accesses of the bus in states that differ in the result (R61, R9) -/

theorem afterRead_withResult (s : State) (r : StepResult) (x : Word) :
    afterRead { s with result := r } x = { afterRead s x with result := r } := by
  rw [afterRead_eq, afterRead_eq]
  rfl

theorem storeByte_withResult (s : State) (r : StepResult) (x : Word) (v : Byte) :
    storeByte { s with result := r } x v = { storeByte s x v with result := r } := by
  have target : busTarget { s with result := r } x = busTarget s x := rfl
  unfold storeByte
  rw [target]
  cases busTarget s x with
  | ieReg =>
    unfold writeIe
    cases s.params.ieUpper <;> rfl
  | _ => rfl

theorem memWrite_withResult (s : State) (r : StepResult) (x : Word) (v : Byte) :
    memWrite { s with result := r } x v = { memWrite s x v with result := r } := by
  rw [memWrite, storeByte_withResult]
  rfl

theorem push16_withResult (s : State) (r : StepResult) (v : Word) :
    push16 v { s with result := r } = { push16 v s with result := r } := by
  simp only [push16_eq, memWrite_withResult]

theorem readByte_withResult (s : State) (r : StepResult) (x : Word) :
    readByte { s with result := r } x = readByte s x := rfl

theorem popped_withResult (s : State) (r : StepResult) : popped { s with result := r } = popped s := by
  simp only [popped, afterRead_withResult, readByte_withResult]

theorem pop16_withResult (s : State) (r : StepResult) :
    pop16 { s with result := r } = ((pop16 s).1, { (pop16 s).2 with result := r }) := by
  refine Prod.ext ?value ?state
  case value => rw [pop16_fst, popped_withResult, pop16_fst]
  case state => simp only [pop16_eq, afterRead_withResult]

theorem fetchOpcode_withResult (s : State) (r : StepResult) :
    fetchOpcode { s with result := r } = ((fetchOpcode s).1, { (fetchOpcode s).2 with result := r }) := by
  simp only [fetchOpcode, afterRead_withResult]
  cases s.haltBug <;> rfl

theorem fetchImm8_withResult (s : State) (r : StepResult) :
    fetchImm8 { s with result := r } = ((fetchImm8 s).1, { (fetchImm8 s).2 with result := r }) := by
  rw [fetchImm8, afterRead_withResult]
  rfl

theorem fetchInstr_withResult (s : State) (r : StepResult) :
    fetchInstr { s with result := r } = ((fetchInstr s).1, { (fetchInstr s).2 with result := r }) := by
  simp only [fetchInstr, fetchOpcode_withResult, fetchImm8_withResult]
  split <;> rfl

/-! ## One rule per operation of an instruction -/

/-- The two states differ in the last result at most. -/
def SameButResult (s t : State) : Prop := ∃ r, t = { s with result := r }

theorem SameButResult.withResult (s : State) (r : StepResult) : SameButResult s { s with result := r } := ⟨r, rfl⟩

/-- The end of an instruction overwrites the result (R310). -/
theorem SameButResult.doneIn (h : SameButResult s t) (n : Nat) : doneIn n t = doneIn n s := by
  obtain ⟨r, rfl⟩ := h
  rfl

/-- An operation that carries the result through leaves it the only difference. -/
theorem SameButResult.map (h : SameButResult s t) (f : State → State)
    (hf : ∀ u r, f { u with result := r } = { f u with result := r } := by exact fun _ _ => rfl) :
    SameButResult (f s) (f t) := by
  obtain ⟨r, rfl⟩ := h
  exact ⟨r, hf s r⟩

protected theorem SameButResult.afterRead (h : SameButResult s t) (x : Word) :
    SameButResult (afterRead s x) (afterRead t x) :=
  h.map (afterRead · x) fun u r => afterRead_withResult u r x

protected theorem SameButResult.memWrite (h : SameButResult s t) (x : Word) (v : Byte) :
    SameButResult (memWrite s x v) (memWrite t x v) :=
  h.map (memWrite · x v) fun u r => memWrite_withResult u r x v

protected theorem SameButResult.push16 (h : SameButResult s t) (v : Word) :
    SameButResult (push16 v s) (push16 v t) :=
  h.map (push16 v) fun u r => push16_withResult u r v

protected theorem SameButResult.setR8 (h : SameButResult s t) (q : Reg8) (v : Byte) :
    SameButResult (setR8 s q v) (setR8 t q v) :=
  h.map (setR8 · q v) fun _ _ => by cases q <;> rfl

protected theorem SameButResult.setPairSp (h : SameButResult s t) (p : PairSp) (v : Word) :
    SameButResult (setPairSp s p v) (setPairSp t p v) :=
  h.map (setPairSp · p v) fun _ _ => by cases p <;> rfl

protected theorem SameButResult.setPairAf (h : SameButResult s t) (p : PairAf) (v : Word) :
    SameButResult (setPairAf s p v) (setPairAf t p v) :=
  h.map (setPairAf · p v) fun _ _ => by cases p <;> rfl

protected theorem SameButResult.setHL (h : SameButResult s t) (v : Word) : SameButResult (setHL s v) (setHL t v) :=
  h.map (setHL · v)

protected theorem SameButResult.setPc (h : SameButResult s t) (a : Word) :
    SameButResult { s with pc := a } { t with pc := a } :=
  h.map ({ · with pc := a })

protected theorem SameButResult.setZNHC (h : SameButResult s t) (z n hc c : Option Bool) :
    SameButResult (setZNHC s z n hc c) (setZNHC t z n hc c) :=
  h.map (setZNHC · z n hc c)

protected theorem SameButResult.aluExec (h : SameButResult s t) (op : AluOp) (v : Byte) :
    SameButResult (aluExec op v s) (aluExec op v t) :=
  h.map (aluExec op v) fun _ _ => by cases op <;> rfl

protected theorem SameButResult.loadA (h : SameButResult s t) (x : Word) : SameButResult (loadA x s) (loadA x t) := by
  obtain ⟨r, rfl⟩ := h
  exact ((SameButResult.withResult s r).afterRead x).map ({ · with a := readByte s x })

protected theorem SameButResult.pop16 (h : SameButResult s t) : SameButResult (pop16 s).2 (pop16 t).2 :=
  h.map (fun u => (pop16 u).2) fun _ _ => by rw [pop16_withResult]

protected theorem SameButResult.returnPop (h : SameButResult s t) : SameButResult (returnPop s) (returnPop t) :=
  h.map returnPop fun _ _ => by simp only [returnPop, pop16_withResult]

protected theorem SameButResult.modifyHl (h : SameButResult s t) (g : Byte → Byte) :
    SameButResult (modifyHl g s) (modifyHl g t) := by
  obtain ⟨r, rfl⟩ := h
  exact ((SameButResult.withResult s r).afterRead (getHL s)).memWrite _ _

protected theorem SameButResult.callTo (h : SameButResult s t) (a : Word) :
    SameButResult (callTo a s) (callTo a t) := by
  obtain ⟨r, rfl⟩ := h
  exact ((SameButResult.withResult s r).push16 s.pc).setPc a

/-! ## The step (R310, R383) -/

theorem execPrefixCB_withResult (op2 : Byte) (s : State) (r : StepResult) :
    execPrefixCB op2 { s with result := r } = execPrefixCB op2 s := by
  have same : SameButResult s { s with result := r } := .withResult s r
  unfold execPrefixCB
  split
  · exact ((same.setR8 _ _).setZNHC _ _ _ _).doneIn _
  · exact (((same.afterRead _).memWrite _ _).setZNHC _ _ _ _).doneIn _
  · rfl
  · exact ((same.afterRead _).setZNHC _ _ _ _).doneIn _
  · exact (same.setR8 _ _).doneIn _
  · exact (same.modifyHl _).doneIn _
  · exact (same.setR8 _ _).doneIn _
  · exact (same.modifyHl _).doneIn _

/-- An instruction reads no result: what it computes differs in the result alone, which its end overwrites. -/
theorem exec_withResult (i : Instr) (s : State) (r : StepResult) : exec i { s with result := r } = exec i s := by
  have same : SameButResult s { s with result := r } := .withResult s r
  cases i with
  | ldRR | ldRN8 | resR | setR => exact (same.setR8 _ _).doneIn _
  | ldRHl => exact ((same.afterRead _).setR8 _ _).doneIn _
  | ldHlR | ldHlN8 | ldBcA | ldDeA | ldA16A | ldhCA | ldhA8A => exact (same.memWrite _ _).doneIn _
  | ldABc | ldADe | ldAA16 | ldhAC | ldhAA8 => exact (same.loadA _).doneIn _
  | ldAHld | ldAHli => exact ((same.loadA _).setHL _).doneIn _
  | ldHldA | ldHliA => exact ((same.memWrite _ _).setHL _).doneIn _
  | ldRrN16 | incRr | decRr => exact (same.setPairSp _ _).doneIn _
  | ldA16Sp => exact ((same.memWrite _ _).memWrite _ _).doneIn _
  | pushRr => exact (same.push16 _).doneIn _
  | popRr =>
    rw [exec_popRr, exec_popRr, popped_withResult]
    exact (same.pop16.setPairAf _ _).doneIn _
  | addAR | adcAR | subR | sbcAR | andR | xorR | orR | cpR
  | addAN8 | adcAN8 | subN8 | sbcAN8 | andN8 | xorN8 | orN8 | cpN8 => exact (same.aluExec _ _).doneIn _
  | addAHl | adcAHl | subHl | sbcAHl | andHl | xorHl | orHl | cpHl =>
    exact ((same.afterRead _).aluExec _ _).doneIn _
  | incR | decR | rlcR | rrcR | rlR | rrR | slaR | sraR | swapR | srlR =>
    exact ((same.setR8 _ _).setZNHC _ _ _ _).doneIn _
  | incHl | decHl | rlcHl | rrcHl | rlHl | rrHl | slaHl | sraHl | swapHl | srlHl =>
    exact (((same.afterRead _).memWrite _ _).setZNHC _ _ _ _).doneIn _
  | bitHl => exact ((same.afterRead _).setZNHC _ _ _ _).doneIn _
  | resHl | setHl => exact (same.modifyHl _).doneIn _
  | callA16 | rstT => exact (same.callTo _).doneIn _
  | callCc cc a => exact if_congr Iff.rfl ((same.callTo a).doneIn 24) rfl
  | ret => exact same.returnPop.doneIn _
  | reti => exact (same.returnPop.map ({ · with ime := true })).doneIn _
  | retCc cc => exact if_congr Iff.rfl (same.returnPop.doneIn 20) rfl
  | prefixCB op2 => exact execPrefixCB_withResult op2 s r
  -- no access of the bus and no write of a register it names: the two outcomes compute to the same term
  | ldSpHl | ldHlSpE8 | addHlRr | addSpE8 | daa | cpl | scf | ccf | rlca | rrca | rla | rra | bitR | jpA16 | jpHl
  | jpCc | jrE8 | jrCc | nop | halt | stop | di | ei | illegal => rfl

theorem instrStep_withResult (s : State) (r : StepResult) :
    instrStep exec { s with result := r } = instrStep exec s := by
  rw [instrStep_eq, fetchInstr_withResult, exec_withResult]
  rfl

theorem dispatch_withResult (k : Fin 5) (s : State) (r : StepResult) :
    dispatch k { s with result := r } = dispatch k s := by
  have ret : dispatchReturn { s with result := r } = dispatchReturn s := rfl
  rw [dispatch_eq, ret, push16_withResult, dispatch_eq]

theorem step_of_noDispatch (hf : s.fault = none) (hm : s.mode = .run) (hd : dispatchSource s = none) :
    step s = instrStep exec s := by
  simp only [step, stepWith, hf, hm, hd]

/-- Settles O48: the kind of a step is chosen from other fields, and every kind of step ignores the last result. -/
theorem cycleCountIsNotRead : Obligations.CycleCountIsNotRead := by
  intro s r
  obtain ⟨c, hf, -⟩ | ⟨hf, hm, -⟩ | ⟨hf, hm, -⟩ | ⟨k, hf, hm, hd, -⟩ | ⟨hf, hm, hd, -⟩ := stepWith_cases exec s
  · rw [(faultIsFinal s c hf).1, (faultIsFinal { s with result := r } c hf).1]
  · rw [step_of_stop hf hm, step_of_stop (s := { s with result := r }) hf hm]
    rfl
  · rw [step_of_halt hf hm, step_of_halt (s := { s with result := r }) hf hm]
    rfl
  · rw [step_of_dispatchSource hf hm hd, step_of_dispatchSource (s := { s with result := r }) hf hm hd,
      dispatch_withResult]
  · rw [step_of_noDispatch hf hm hd, step_of_noDispatch (s := { s with result := r }) hf hm hd,
      instrStep_withResult]

end Sys2Proof.Proofs
end
